-- ==== Sys2Proof/Word.lean ====
section
/-! DEFINITION. The word types of the gifsharp LZW decode block (spec/00_scope.md R6, R8): every value is an unsigned
number held in a field of the width spec/10_state.md gives it. -/

namespace Sys2Proof

/-- A byte: a cell of IN or OUT, a pixel index, a SUFFIX entry (R32, R37). -/
abbrev Byte := BitVec 8

/-- A 32-bit register word (R14). -/
abbrev Word := BitVec 32

/-- A fetched LZW code, at most 4095 (R58, R61). -/
abbrev Code := BitVec 12

/-- A 13-bit code field: PREFIX entries, CLEAR_CODE, PREV_CODE and the other code registers (R24 to R31). -/
abbrev CodeField := BitVec 13

end Sys2Proof
end

