-- ==== Sys2Proof/Config.lean ====
section
/-! DEFINITION. The block's fixed parameters (spec/00_scope.md R6) and the free values of what the spec leaves
unspecified (spec/70_reset_and_hazards.md R128, spec/93_implementation_defined.md I1). -/

namespace Sys2Proof

/-- MAX_CODE: the largest code value and the largest table index (R6). -/
def Config.maxCode : Nat := 4095

/-- MAX_BITS: the largest code width (R6). -/
def Config.maxBits : Nat := 12

/-- RC_MIN: the smallest RUNNING_CODE at which a definition is in range (R6). -/
def Config.rcMin : Nat := 2

/-- RC_MAX: the largest RUNNING_CODE at which a definition is in range (R6). -/
def Config.rcMax : Nat := 4097

/-- WALK_BOUND: the largest number of PREFIX replacements one chain walk may make (R6). -/
def Config.walkBound : Nat := 4096

/-- NO_SUCH_CODE: the sentinel of an undefined PREFIX entry and of "no previous code" (R6, D6). -/
def Config.noSuchCode : CodeField := 4098#13

/-- DEPTH_MIN: the smallest accepted minimum code size (R6, D9). -/
def Config.depthMin : Nat := 1

/-- DEPTH_MAX: the largest accepted minimum code size (R6, D9). -/
def Config.depthMax : Nat := 8

/-- What a byte of IN or OUT that nothing has written reads as. DESIGN CHOICE (log entry 4), unsafe: the spec gives
no content for memory the host has not filled. -/
def Config.unlistedByte : Byte := 0#8

/-- IN_SIZE of the platform at `State.reset`. DESIGN CHOICE (log entry 3), unsafe: a parameter of the platform (R7);
the whole 32-bit offset space is taken. -/
def Config.resetInSize : Nat := 4294967296

/-- OUT_SIZE of the platform at `State.reset`. DESIGN CHOICE (log entry 3), unsafe. -/
def Config.resetOutSize : Nat := 4294967296

/-- FREE VALUE: what entry `i` of PREFIX holds after the `n`-th reset (R128 "A model takes any value for them";
log entry 5). -/
opaque Config.freePrefix : Nat → Nat → CodeField

/-- FREE VALUE: what entry `i` of SUFFIX holds after the `n`-th reset (R128; log entry 5). -/
opaque Config.freeSuffix : Nat → Nat → Byte

/-- FREE VALUE: what entry `i` of STACK holds after the `n`-th reset (R128; log entry 5). -/
opaque Config.freeStack : Nat → Nat → Byte

/-- FREE VALUE: what entry `i` of CHUNK_BUF holds after the `n`-th reset (R128; log entry 5). -/
opaque Config.freeChunkBuf : Nat → Nat → Byte

end Sys2Proof
end

