-- ==== Sys2Proof/Syntax.lean ====
section
/-! DEFINITION. The instructions: one constructor for each row of spec/opcode_table.json, in its order. The block has three
kinds of encoded input (spec/30_encoding.md R52): command words the host writes to CMD, LZW codes taken from the payload
bitstream, and stream bytes read from IN. -/

namespace Sys2Proof

/-- An encoded input with the meaning its decoder gives it. A command word keeps its bits [31:4] as `ignored` (R53), so
that no bit of the encoding is dropped; a code class keeps the code (R61); MCS and SB_LEN keep their byte (R56, R57). -/
inductive Instr where
  | nop (ignored : BitVec 28)
  | decodeImage (ignored : BitVec 28)
  | sbOpen (ignored : BitVec 28)
  | sbNextChunk (ignored : BitVec 28)
  | reserved4 (ignored : BitVec 28)
  | reserved5 (ignored : BitVec 28)
  | reserved6 (ignored : BitVec 28)
  | reserved7 (ignored : BitVec 28)
  | reserved8 (ignored : BitVec 28)
  | reserved9 (ignored : BitVec 28)
  | reservedA (ignored : BitVec 28)
  | reservedB (ignored : BitVec 28)
  | reservedC (ignored : BitVec 28)
  | reservedD (ignored : BitVec 28)
  | reservedE (ignored : BitVec 28)
  | reservedF (ignored : BitVec 28)
  | lzwEnd (code : Code)
  | lzwClear (code : Code)
  | lzwLiteral (code : Code)
  | lzwKnown (code : Code)
  | lzwKwkwk (code : Code)
  | lzwInvalid (code : Code)
  | mcs (byte : Byte)
  | sbLen (len : Byte)
  | sbTerminator
  deriving DecidableEq, Repr

end Sys2Proof
end

