-- ==== Sys2Proof/WellFormed.lean ====
section
/-! DEFINITION. Which terms of `Instr` stand for an encoded input. -/

namespace Sys2Proof

/-- A length byte announces 1 to 255 payload bytes; the byte 0 is the terminator, an instruction of its own (R57). -/
def Instr.lenInRange : Instr → Bool
  | .sbLen len => len != 0#8
  | _ => true

/-- A literal is a code below CLEAR_CODE, which is at most 2^8 (R61 order 3, R88): it fits a byte. -/
def Instr.literalInRange : Instr → Bool
  | .lzwLiteral code => code.toNat < 256
  | _ => true

/-- The clear code is 2^DEPTH for a DEPTH of 1 to 8 (R24, R88). -/
def Instr.clearInRange : Instr → Bool
  | .lzwClear code => [2, 4, 8, 16, 32, 64, 128, 256].contains code.toNat
  | _ => true

/-- The end code is CLEAR_CODE + 1 (R24, R88). -/
def Instr.endInRange : Instr → Bool
  | .lzwEnd code => [3, 5, 9, 17, 33, 65, 129, 257].contains code.toNat
  | _ => true

/-- A table reference lies above the end code, so it is at least 4 (R61 orders 4 to 6). -/
def Instr.referenceInRange : Instr → Bool
  | .lzwKnown code | .lzwKwkwk code | .lzwInvalid code => 4 ≤ code.toNat
  | _ => true

/-- The well-formed instructions: those some decoder state with an accepted minimum code size can read. -/
def WellFormed (i : Instr) : Bool :=
  i.lenInRange && i.literalInRange && i.clearInRange && i.endInRange && i.referenceInRange

end Sys2Proof
end

