-- ==== Sys2Proof/Decode.lean ====
section
/-! DEFINITION. The decoder and the encoder. What an encoded input means depends on where it is read (spec/30_encoding.md
R52): a word the host writes to CMD, the first byte of an image's data, a byte where a length byte is due, or a code of the
payload bitstream, whose class depends on the decoder's registers and table (R61). -/

namespace Sys2Proof

/-- What classifies a code (R61, R91): CLEAR_CODE, END_CODE, RUNNING_CODE and PREFIX, read after the fetch's increment. -/
structure CodeContext where
  clearCode : CodeField
  endCode : CodeField
  runningCode : CodeField
  prefixTab : Vector CodeField 4096
  deriving DecidableEq, Repr

/-- Where an encoded input is read. -/
inductive Slot where
  /-- a host write to CMD (R53) -/
  | command
  /-- the first byte of an image's data (R56) -/
  | firstByte
  /-- a byte where a length byte is due (R57) -/
  | lengthByte
  /-- a code taken from the payload bitstream (R58) -/
  | code (cc : CodeContext)
  deriving DecidableEq, Repr

/-- An encoded input, in the table's three formats. -/
inductive Encoded where
  | cmdw (word : Word)
  | streamByte (byte : Byte)
  | lzwCode (code : Code)
  deriving DecidableEq, Repr

/-- Why the decoder rejects: every word, byte and code has a meaning at its own slot, so only a mismatch is rejected. -/
inductive DecodeError where
  /-- CMD takes a 32-bit word (R53) -/
  | notACommandWord
  /-- the stream slots take a byte (R55) -/
  | notAStreamByte
  /-- the bitstream gives codes (R58) -/
  | notACode
  /-- the bytes end before the input does -/
  | tooShort
  /-- a code is at most 12 bits wide (R58) -/
  | codeTooWide
  deriving DecidableEq, Repr

/-- The CODE field of a command word, bits [3:0] (R53). -/
def cmdCode (word : Word) : BitVec 4 := word.extractLsb' 0 4

/-- The ignored bits of a command word, bits [31:4] (R53). -/
def cmdIgnored (word : Word) : BitVec 28 := word.extractLsb' 4 28

/-- The command word with the given fields (R53). -/
def cmdWord (code : BitVec 4) (ignored : BitVec 28) : Word := ignored ++ code

/-- The row of the command table for a CODE (R53, R54). -/
def commandOf (code : Nat) (ignored : BitVec 28) : Instr :=
  match code with
  | 0 => .nop ignored
  | 1 => .decodeImage ignored
  | 2 => .sbOpen ignored
  | 3 => .sbNextChunk ignored
  | 4 => .reserved4 ignored
  | 5 => .reserved5 ignored
  | 6 => .reserved6 ignored
  | 7 => .reserved7 ignored
  | 8 => .reserved8 ignored
  | 9 => .reserved9 ignored
  | 10 => .reservedA ignored
  | 11 => .reservedB ignored
  | 12 => .reservedC ignored
  | 13 => .reservedD ignored
  | 14 => .reservedE ignored
  | _ => .reservedF ignored

/-- A word written to CMD (R53): CODE selects the command, the other bits are ignored. -/
def decodeCommand (word : Word) : Instr := commandOf (cmdCode word).toNat (cmdIgnored word)

/-- A byte where a length byte is due (R57): 0 is the terminator, any other announces that many payload bytes. -/
def decodeLength (byte : Byte) : Instr := if byte = 0#8 then .sbTerminator else .sbLen byte

/-- The class of a code: the first condition that holds, in the order of R61 and R91. The test
`c = RUNNING_CODE − 2` is written as a sum, so that it never subtracts below zero (R105). -/
def decodeCode (cc : CodeContext) (code : Code) : Instr :=
  if code.toNat = cc.endCode.toNat then .lzwEnd code
  else if code.toNat = cc.clearCode.toNat then .lzwClear code
  else if code.toNat < cc.clearCode.toNat then .lzwLiteral code
  else if cc.prefixTab[code.toNat] ≠ Config.noSuchCode then .lzwKnown code
  else if code.toNat + 2 = cc.runningCode.toNat then .lzwKwkwk code
  else .lzwInvalid code

/-- The decoder: the instruction an encoded input stands for at the slot it is read at. -/
def decode (slot : Slot) (input : Encoded) : Except DecodeError Instr :=
  match slot, input with
  | .command, .cmdw word => .ok (decodeCommand word)
  | .command, _ => .error .notACommandWord
  | .firstByte, .streamByte byte => .ok (.mcs byte)
  | .firstByte, _ => .error .notAStreamByte
  | .lengthByte, .streamByte byte => .ok (decodeLength byte)
  | .lengthByte, _ => .error .notAStreamByte
  | .code cc, .lzwCode code => .ok (decodeCode cc code)
  | .code _, _ => .error .notACode

/-- A 32-bit word from its bytes, bits [7:0] at offset +0 (R42). -/
def wordOfBytes (b0 b1 b2 b3 : Byte) : Word := b3 ++ b2 ++ b1 ++ b0

/-- The decoder on bytes, total, with the bytes left over: a command word is four bytes in the register's byte lanes
(R42), a stream byte is one, and a code is given zero-extended in two bytes, the low bits first (R40, R58). -/
def decodeBytes (slot : Slot) (bytes : List Byte) : Except DecodeError (Instr × List Byte) :=
  match slot, bytes with
  | .command, b0 :: b1 :: b2 :: b3 :: rest => .ok (decodeCommand (wordOfBytes b0 b1 b2 b3), rest)
  | .command, _ => .error .tooShort
  | .firstByte, byte :: rest => .ok (.mcs byte, rest)
  | .firstByte, [] => .error .tooShort
  | .lengthByte, byte :: rest => .ok (decodeLength byte, rest)
  | .lengthByte, [] => .error .tooShort
  | .code cc, b0 :: b1 :: rest =>
    if b1.toNat < 16 then .ok (decodeCode cc ((b1 ++ b0).setWidth 12), rest) else .error .codeTooWide
  | .code _, _ => .error .tooShort

/-- The encoder: the word, byte or code of an instruction, from the encoding tables of R53, R56, R57 and R58. -/
def encode (i : Instr) : Encoded :=
  match i with
  | .nop ignored => .cmdw (cmdWord 0x0#4 ignored)
  | .decodeImage ignored => .cmdw (cmdWord 0x1#4 ignored)
  | .sbOpen ignored => .cmdw (cmdWord 0x2#4 ignored)
  | .sbNextChunk ignored => .cmdw (cmdWord 0x3#4 ignored)
  | .reserved4 ignored => .cmdw (cmdWord 0x4#4 ignored)
  | .reserved5 ignored => .cmdw (cmdWord 0x5#4 ignored)
  | .reserved6 ignored => .cmdw (cmdWord 0x6#4 ignored)
  | .reserved7 ignored => .cmdw (cmdWord 0x7#4 ignored)
  | .reserved8 ignored => .cmdw (cmdWord 0x8#4 ignored)
  | .reserved9 ignored => .cmdw (cmdWord 0x9#4 ignored)
  | .reservedA ignored => .cmdw (cmdWord 0xA#4 ignored)
  | .reservedB ignored => .cmdw (cmdWord 0xB#4 ignored)
  | .reservedC ignored => .cmdw (cmdWord 0xC#4 ignored)
  | .reservedD ignored => .cmdw (cmdWord 0xD#4 ignored)
  | .reservedE ignored => .cmdw (cmdWord 0xE#4 ignored)
  | .reservedF ignored => .cmdw (cmdWord 0xF#4 ignored)
  | .lzwEnd code => .lzwCode code
  | .lzwClear code => .lzwCode code
  | .lzwLiteral code => .lzwCode code
  | .lzwKnown code => .lzwCode code
  | .lzwKwkwk code => .lzwCode code
  | .lzwInvalid code => .lzwCode code
  | .mcs byte => .streamByte byte
  | .sbLen len => .streamByte len
  | .sbTerminator => .streamByte 0#8

/-- The conditions of R61's table on a code of each class, and the slot of every other instruction's format. -/
def Instr.readableAt (i : Instr) (slot : Slot) : Bool :=
  match i, slot with
  | .mcs _, .firstByte => true
  | .sbLen _, .lengthByte | .sbTerminator, .lengthByte => true
  | .lzwEnd c, .code cc => c.toNat = cc.endCode.toNat
  | .lzwClear c, .code cc => c.toNat = cc.clearCode.toNat
  | .lzwLiteral c, .code cc => c.toNat < cc.clearCode.toNat
  | .lzwKnown c, .code cc => cc.endCode.toNat < c.toNat ∧ cc.prefixTab[c.toNat] ≠ Config.noSuchCode
  | .lzwKwkwk c, .code cc =>
    cc.endCode.toNat < c.toNat ∧ cc.prefixTab[c.toNat] = Config.noSuchCode ∧ c.toNat + 2 = cc.runningCode.toNat
  | .lzwInvalid c, .code cc =>
    cc.endCode.toNat < c.toNat ∧ cc.prefixTab[c.toNat] = Config.noSuchCode ∧ c.toNat + 2 ≠ cc.runningCode.toNat
  | .nop _, .command | .decodeImage _, .command | .sbOpen _, .command | .sbNextChunk _, .command
  | .reserved4 _, .command | .reserved5 _, .command | .reserved6 _, .command | .reserved7 _, .command
  | .reserved8 _, .command | .reserved9 _, .command | .reservedA _, .command | .reservedB _, .command
  | .reservedC _, .command | .reservedD _, .command | .reservedE _, .command | .reservedF _, .command => true
  | _, _ => false

/-- A context as an accepted minimum code size leaves it: END_CODE = CLEAR_CODE + 1 (R24, R36(a)). -/
def CodeContext.wf (cc : CodeContext) : Bool := cc.endCode.toNat = cc.clearCode.toNat + 1

/-- Which kind of input a bare table word of `nbits` bits is taken as (log entry 14): no bits at all, a code; a byte of 16
or more, a length byte; anything else up to 32 bits, a command word. -/
inductive TableWordKind where
  | code
  | lengthByte
  | command
  | none
  deriving DecidableEq, Repr

/-- The convention of log entry 14: a bare word does not say where it is read, and the table numbers a command word, a
stream byte and a code alike. -/
def tableWordKind (nbits w : Nat) : TableWordKind :=
  if nbits = 0 then .code
  else if 32 < nbits then .none
  else if nbits ≤ 8 ∧ 16 ≤ w then .lengthByte
  else .command

/-- The context just after a minimum code size of 2 is accepted and one code is fetched (R63). -/
def freshContext : CodeContext :=
  { clearCode := 4#13, endCode := 5#13, runningCode := 7#13, prefixTab := Vector.replicate 4096 Config.noSuchCode }

/-- The instruction the decoder reads from a table word (log entry 14). -/
def decodeTableWord (nbits w : Nat) : Option Instr :=
  match tableWordKind nbits w with
  | .code => some (decodeCode freshContext (BitVec.ofNat 12 w))
  | .lengthByte => some (decodeLength (BitVec.ofNat 8 w))
  | .command => some (decodeCommand (BitVec.ofNat 32 w))
  | .none => none

end Sys2Proof
end

