-- ==== Sys2Proof/Machine/State.lean ====
section
/-! DEFINITION. The machine's state as plain data (spec/10_state.md), the reasons a step can stop, and the state after
reset (spec/70_reset_and_hazards.md R127, R128). The registers are grouped by the unit that owns them. -/

namespace Sys2Proof.Machine

/-- STATUS.PHASE (R17). The field's value 7 is reserved and never written: it has no constructor. -/
inductive Phase where
  | none
  | initialized
  | streaming
  | cleared
  | draining
  | done
  | failed
  deriving DecidableEq, Repr

/-- The four commands (R53). -/
inductive Command where
  | nop
  | decodeImage
  | sbOpen
  | sbNextChunk
  deriving DecidableEq, Repr

/-- The block's errors, one constructor for each cause of R115's table, with the value it records. -/
inductive BlockError where
  /-- UnexpectedEnd 1: no minimum-code-size byte (R88) -/
  | noMcsByte
  /-- UnexpectedEnd 2: input at end during the drain (R111) -/
  | noLengthInDrain
  /-- UnexpectedEnd 3: input at end in SB_NEXT_CHUNK (R74) -/
  | noLengthInNextChunk
  /-- TruncatedStream 1: a code needs bits and the input is at end (R84) -/
  | codeAtInputEnd
  /-- TruncatedStream 2: a code needs bits and the terminator was reached (R84) -/
  | codeAtTerminator
  /-- InvalidCode 1 (R97) -/
  | invalidCode (code : CodeField)
  /-- CorruptTable 1: minimum code size outside 1..8 (R88) -/
  | badMcs (byte : Byte)
  /-- CorruptTable 2: walk bound reached (R98, R99) -/
  | walkBound (code : CodeField)
  /-- CorruptTable 3: a walk met a value above 4095 (R98, R99) -/
  | walkRange (value : CodeField)
  /-- CorruptTable 4: a walk ended at the clear code (R98, R99) -/
  | walkClear (code : CodeField)
  /-- CorruptTable 5: definition with RUNNING_CODE outside [2, 4097] (R100) -/
  | defineRange (runningCode : CodeField)
  /-- PrematureEnd 1: end code fetched while pixels remain (R92) -/
  | prematureEnd (code : CodeField)
  deriving DecidableEq, Repr

/-- Who called `next_chunk` (R80), and so where it returns: SB_NEXT_CHUNK (R74), the code extractor's `next_byte` (R84)
or the drain (R111). -/
inductive ChunkCaller where
  | command
  | extractor
  | drain
  deriving DecidableEq, Repr

/-- Who called `flush` (R110), and so what follows it: the start of a row (R108), or the definition that ends a KNOWN or
KWKWK code (R95, R96). -/
inductive FlushCaller where
  | rowStart
  | define (code : CodeField) (kw : Bool)
  deriving DecidableEq, Repr

/-- The sequencer position (R35): the point of the running command's pseudocode the block has reached. The row iterator's
pass and row are the registers PASS and ROW. -/
inductive Seq where
  /-- no command runs -/
  | idle
  /-- the start of a command's pseudocode (R70) -/
  | start (cmd : Command)
  /-- at a call of `next_chunk` (R80) -/
  | nextChunk (caller : ChunkCaller)
  /-- in `next_chunk`'s payload loop (R80) -/
  | payload (caller : ChunkCaller)
  /-- in SB_NEXT_CHUNK's copy loop, at index `i` (R74) -/
  | copyOut (i : Nat)
  /-- at the first row of `row_order` (R106) -/
  | firstRow
  /-- at the end of a row, before the next one of `row_order` (R106) -/
  | nextRow
  /-- at `flush`'s loop test (R110) -/
  | flush (caller : FlushCaller)
  /-- a byte is popped and about to be emitted (R110) -/
  | emit (v : Byte) (caller : FlushCaller)
  /-- at `decode_row`'s loop test (R108) -/
  | rowLoop
  /-- in `extract`'s loop of a code fetch (R83, R90) -/
  | fetch
  /-- a code is fetched and about to be processed (R91) -/
  | process (code : Code)
  /-- at the start of the drain (R111) -/
  | startDrain
  /-- at `finish_ok` (R71) -/
  | finish
  /-- at a `raise` (R116) -/
  | raising (e : BlockError)
  deriving DecidableEq, Repr

/-- STATUS but its two sub-block bits, and ERR_INFO (R16, R17, R18). -/
structure StatusRegs where
  busy : Bool
  done : Bool
  error : Bool
  badCmd : Bool
  err : BitVec 4
  phase : Phase
  lastCmd : BitVec 4
  errValue : CodeField
  errSub : BitVec 4
  deriving DecidableEq, Repr

/-- GEOM, MODE, IN_PTR and IN_END: the operand registers (R19, R20, R21). -/
structure OperandRegs where
  width : BitVec 16
  height : BitVec 16
  interlace : Bool
  inPtr : Word
  inEnd : Word
  deriving DecidableEq, Repr

/-- The sub-block reader: STATUS.SB_TERM and SB_SHORT, CHUNK and CHUNK_BUF (R16, R22, R34). -/
structure ReaderRegs where
  sbTerm : Bool
  sbShort : Bool
  chunkLen : BitVec 8
  chunkDecl : BitVec 8
  chunkPos : BitVec 8
  chunkBuf : Vector Byte 255
  deriving DecidableEq, Repr

/-- The code extractor: SHIFT_ACC, SHIFT_STATE and CUR_CODE (R27, R28). -/
structure ExtractorRegs where
  shiftAcc : Word
  shiftState : BitVec 6
  curCode : CodeField
  deriving DecidableEq, Repr

/-- The LZW decoder: LZW_CFG, LZW_CODES, LZW_RUN, LZW_MAX, PREV_CODE, PREFIX and SUFFIX (R23 to R27, R31, R32). -/
structure LzwRegs where
  mcs : BitVec 8
  depth : BitVec 4
  clearCode : CodeField
  endCode : CodeField
  runningCode : CodeField
  runningBits : BitVec 4
  maxCode1 : CodeField
  prevCode : CodeField
  prefixTab : Vector CodeField 4096
  suffixTab : Vector Byte 4096
  deriving DecidableEq, Repr

/-- The output stack: STACK_PTR and STACK (R28, R33). -/
structure StackRegs where
  stackPtr : BitVec 13
  stack : Vector Byte 4098
  deriving DecidableEq, Repr

/-- The scanline reassembler: ROWPOS, COL and PIX_REMAIN (R29). -/
structure RowRegs where
  row : BitVec 16
  pass : BitVec 2
  col : BitVec 16
  pixRemain : Word
  deriving DecidableEq, Repr

/-- A byte space: its size, a parameter of the platform (R7, R38), and its bytes as a list of cells in canonical form. -/
structure Space where
  size : Nat
  cells : List Host.Cell
  deriving DecidableEq, Repr

/-- One access of the block, as the event history records it (R48). -/
inductive Access where
  | inRead (offset : Nat) (byte : Byte)
  | outWrite (offset : Nat) (byte : Byte)
  deriving DecidableEq, Repr

/-- One access of the host. A register access carries its width in bits and its byte offset (R43). -/
inductive HostAccess where
  | regWrite (width offset : Nat) (value : Word)
  | regRead (width offset : Nat)
  | inWrite (offset : Nat) (byte : Byte)
  | inRead (offset : Nat)
  | outWrite (offset : Nat) (byte : Byte)
  | outRead (offset : Nat)
  deriving DecidableEq, Repr

/-- A pending turn: which agent moves at a micro-step boundary (R44, R129; log entry 2). -/
inductive Turn where
  /-- the block takes one micro-step -/
  | block
  /-- the host makes one access -/
  | host (access : HostAccess)
  /-- the host polls until BUSY = 0: the block moves while it is busy (R64 WAIT; log entry 18) -/
  | wait
  /-- reset (R129) -/
  | reset
  deriving DecidableEq, Repr

/-- What a read of the host returned. -/
inductive Observation where
  | reg (offset : Nat) (value : Word)
  | inByte (offset : Nat) (byte : Byte)
  | outByte (offset : Nat) (byte : Byte)
  deriving DecidableEq, Repr

/-- The machine's state: the registers and arrays of each unit, the sequencer position, the two byte spaces, the event
history, and the model's own agenda, observations and free-value counter (log entries 2, 5 and 15). -/
structure State where
  status : StatusRegs
  oper : OperandRegs
  reader : ReaderRegs
  extr : ExtractorRegs
  lzw : LzwRegs
  stk : StackRegs
  rows : RowRegs
  seq : Seq
  inSpace : Space
  outSpace : Space
  /-- newest first -/
  history : List Access
  /-- next turn first -/
  agenda : List Turn
  /-- newest first -/
  observations : List Observation
  freeCount : Nat
  deriving DecidableEq, Repr

/-- Why the machine stops. -/
inductive Fault where
  /-- Raised by a block read at an offset at or beyond IN_SIZE (R38 "the block is stuck"). Safe: the block has no step. -/
  | inNotAdmitted (offset : Nat)
  /-- Raised by a block write at an offset at or beyond OUT_SIZE (R38). Safe: the block has no step. -/
  | outNotAdmitted (offset : Nat)
  /-- Raised by a push onto a full stack or a pop beyond its capacity, in states no run reaches (R33, R103). Safe. -/
  | stackOutOfRange
  /-- Raised by a read of CHUNK_BUF at index 255, in states no run reaches (R34). Safe. -/
  | chunkBufOutOfRange
  /-- Raised by a host access to a byte IN does not have (R37). Safe. -/
  | hostInOutOfRange (offset : Nat)
  /-- Raised by a host access to a byte OUT does not have (R37). Safe. -/
  | hostOutOutOfRange (offset : Nat)
  deriving DecidableEq, Repr

/-- What the model gives no meaning to. -/
inductive Refusal where
  /-- Raised by an arm of `exec` whose instruction has no meaning yet. Safe. -/
  | notModelled (mnemonic : String)
  /-- Raised by a host register access that is not 32 bits wide at a multiple of 4 (R43 "The model refuses it"). Safe. -/
  | regAccessNotWhole (width offset : Nat)
  /-- Raised by a host register access at an offset outside the 256-byte window (R37). Safe. -/
  | regOutsideWindow (offset : Nat)
  deriving DecidableEq, Repr

/-- The entries `f i, f (i+1), …`, `n` of them. -/
def fillList {α : Type} (f : Nat → α) (i : Nat) : Nat → List α
  | 0 => []
  | n + 1 => f i :: fillList f (i + 1) n

theorem fillList_length {α : Type} (f : Nat → α) (i n : Nat) : (fillList f i n).length = n := by
  induction n generalizing i with
  | zero => rfl
  | succ n ih => simp [fillList, ih]

/-- The array whose entry `i` is `f i`. -/
def fillVector {α : Type} (f : Nat → α) (n : Nat) : Vector α n := ⟨⟨fillList f 0 n⟩, fillList_length f 0 n⟩

/-- The status registers after reset (R127). -/
def StatusRegs.zero : StatusRegs :=
  { busy := false, done := false, error := false, badCmd := false, err := 0#4, phase := .none, lastCmd := 0#4,
    errValue := 0#13, errSub := 0#4 }

/-- The operand registers after reset (R127). -/
def OperandRegs.zero : OperandRegs :=
  { width := 0#16, height := 0#16, interlace := false, inPtr := 0#32, inEnd := 0#32 }

/-- The sub-block reader after the `n`-th reset: its registers 0 (R127), CHUNK_BUF unspecified (R128). -/
def ReaderRegs.afterReset (n : Nat) : ReaderRegs :=
  { sbTerm := false, sbShort := false, chunkLen := 0#8, chunkDecl := 0#8, chunkPos := 0#8,
    chunkBuf := fillVector (Config.freeChunkBuf n) 255 }

/-- The code extractor after reset (R127). -/
def ExtractorRegs.zero : ExtractorRegs := { shiftAcc := 0#32, shiftState := 0#6, curCode := 0#13 }

/-- The LZW decoder after the `n`-th reset: its registers 0 (R127), PREFIX and SUFFIX unspecified (R128). -/
def LzwRegs.afterReset (n : Nat) : LzwRegs :=
  { mcs := 0#8, depth := 0#4, clearCode := 0#13, endCode := 0#13, runningCode := 0#13, runningBits := 0#4,
    maxCode1 := 0#13, prevCode := 0#13, prefixTab := fillVector (Config.freePrefix n) 4096,
    suffixTab := fillVector (Config.freeSuffix n) 4096 }

/-- The output stack after the `n`-th reset: STACK_PTR 0 (R127), its entries unspecified (R128). -/
def StackRegs.afterReset (n : Nat) : StackRegs :=
  { stackPtr := 0#13, stack := fillVector (Config.freeStack n) 4098 }

/-- The scanline reassembler after reset (R127). -/
def RowRegs.zero : RowRegs := { row := 0#16, pass := 0#2, col := 0#16, pixRemain := 0#32 }

/-- The machine right after reset: every register field 0 (R127), the arrays unspecified (R128), the block idle (R130), no
byte of IN or OUT placed (log entry 4), on a platform of the whole offset space (log entry 3). -/
def State.reset : State :=
  { status := StatusRegs.zero, oper := OperandRegs.zero, reader := ReaderRegs.afterReset 0, extr := ExtractorRegs.zero,
    lzw := LzwRegs.afterReset 0, stk := StackRegs.afterReset 0, rows := RowRegs.zero, seq := .idle,
    inSpace := { size := Config.resetInSize, cells := [] }, outSpace := { size := Config.resetOutSize, cells := [] },
    history := [], agenda := [], observations := [], freeCount := 0 }

end Sys2Proof.Machine
end

