-- ==== Sys2Proof/Machine/Ops.lean ====
section
/-! DEFINITION. The named operations over memory and registers: the byte spaces (spec/20_memory.md), the end of a command by
`finish_ok` or `raise` (spec/40_host_interface.md R71, spec/60_exceptions.md R115, R116), the acceptance of a command (R70),
reset (spec/70_reset_and_hazards.md), the input read (R79), the stack (spec/10_state.md R33), the chain walks, the table
(spec/42_lzw_decoder.md R89, R98 to R100) and the pixel output (spec/43_scanline.md R109). -/

namespace Sys2Proof.Machine

/-- The three outcomes of a step, on this machine. -/
abbrev Result := Host.Outcome State Fault Refusal

/-- Go on from a next state; a fault or a refusal stays. -/
def andThen (r : Result) (k : State → Result) : Result :=
  match r with
  | .next s => k s
  | .fault f => .fault f
  | .refused f => .refused f

/-! ### The byte spaces -/

/-- The byte a list of cells holds at an offset; an unlisted offset reads `Config.unlistedByte` (log entry 4). -/
def cellsRead : List Host.Cell → Nat → Byte
  | [], _ => Config.unlistedByte
  | cell :: rest, a => if cell.1 = a then cell.2 else cellsRead rest a

/-- Put a cell in front of a list, unless its byte is what an unlisted offset reads as. -/
def cellsCons (a : Nat) (v : Byte) (rest : List Host.Cell) : List Host.Cell :=
  if v = Config.unlistedByte then rest else (a, v) :: rest

/-- Write a byte at an offset, keeping the cells in canonical form. -/
def cellsWrite : List Host.Cell → Nat → Byte → List Host.Cell
  | [], a, v => cellsCons a v []
  | cell :: rest, a, v =>
    if a < cell.1 then cellsCons a v (cell :: rest)
    else if a = cell.1 then cellsCons a v rest
    else cell :: cellsWrite rest a v

/-- The byte a space holds at an offset. -/
def Space.read (m : Space) (a : Nat) : Byte := cellsRead m.cells a

/-- A space with a byte written at an offset. -/
def Space.write (m : Space) (a : Nat) (v : Byte) : Space := { m with cells := cellsWrite m.cells a v }

/-- The canonical form: offsets strictly rising and below the size, no cell equal to what an unlisted offset reads as. -/
abbrev Space.wf (m : Space) : Prop :=
  m.cells.Pairwise (fun x y => x.1 < y.1) ∧ ∀ c ∈ m.cells, c.1 < m.size ∧ c.2 ≠ Config.unlistedByte

/-- Both spaces are in canonical form. -/
abbrev Memory.wf (s : State) : Prop := s.inSpace.wf ∧ s.outSpace.wf

/-! ### The block's accesses -/

/-- The input is at end exactly when IN_PTR ≥ IN_END (R21). -/
def State.inAtEnd (s : State) : Bool := s.oper.inEnd.toNat ≤ s.oper.inPtr.toNat

/-- The state a block read leaves: IN_PTR one on, the read recorded in the history (R79, R48). -/
def afterRead (s : State) : State :=
  { s with
    oper := { s.oper with inPtr := s.oper.inPtr + 1#32 }
    history := .inRead s.oper.inPtr.toNat (s.inSpace.read s.oper.inPtr.toNat) :: s.history }

/-- The read of R79: `MemRead(IN_PTR, 1)` and the advance of IN_PTR. The caller has found the input not at end. A read
that is not admitted has no step (R38). -/
def inRead (s : State) (k : Byte → State → Result) : Result :=
  if s.oper.inPtr.toNat < s.inSpace.size then k (s.inSpace.read s.oper.inPtr.toNat) (afterRead s)
  else .fault (.inNotAdmitted s.oper.inPtr.toNat)

/-- `MemWrite(a, 1, v)` (R9). A write that is not admitted has no step (R38). -/
def outWrite (a : Nat) (v : Byte) (s : State) : Result :=
  if a < s.outSpace.size then
    .next { s with outSpace := s.outSpace.write a v, history := .outWrite a v :: s.history }
  else .fault (.outNotAdmitted a)

/-! ### Errors (R115, R116) and the end of a command (R71) -/

/-- STATUS.ERR of an error: the code of its kind (R115). -/
def BlockError.err : BlockError → BitVec 4
  | .noMcsByte | .noLengthInDrain | .noLengthInNextChunk => 2#4
  | .codeAtInputEnd | .codeAtTerminator => 3#4
  | .invalidCode _ => 5#4
  | .badMcs _ | .walkBound _ | .walkRange _ | .walkClear _ | .defineRange _ => 6#4
  | .prematureEnd _ => 7#4

/-- ERR_INFO.SUB of an error (R115). -/
def BlockError.sub : BlockError → BitVec 4
  | .noMcsByte | .codeAtInputEnd | .invalidCode _ | .badMcs _ | .prematureEnd _ => 1#4
  | .noLengthInDrain | .codeAtTerminator | .walkBound _ => 2#4
  | .noLengthInNextChunk | .walkRange _ => 3#4
  | .walkClear _ => 4#4
  | .defineRange _ => 5#4

/-- ERR_INFO.VALUE of an error (R115). -/
def BlockError.value : BlockError → CodeField
  | .noMcsByte | .noLengthInDrain | .noLengthInNextChunk | .codeAtInputEnd | .codeAtTerminator => 0#13
  | .badMcs byte => byte.setWidth 13
  | .invalidCode c | .walkBound c | .walkRange c | .walkClear c | .defineRange c | .prematureEnd c => c

/-- `raise` (R116), the block's one exception: it ends the running command with an error. PHASE becomes FAILED only under
DECODE_IMAGE; DONE stays 0; nothing is rolled back. -/
def raiseError (e : BlockError) (s : State) : State :=
  { s with
    status := { s.status with
      err := e.err, errSub := e.sub, errValue := e.value,
      phase := if s.status.lastCmd = 1#4 then .failed else s.status.phase,
      busy := false, error := true },
    seq := .idle }

/-- `finish_ok` (R71): it ends a command without error. -/
def finishOk (s : State) : State :=
  { s with status := { s.status with busy := false, done := true }, seq := .idle }

/-- The code of a command (R53). -/
def Command.code : Command → BitVec 4
  | .nop => 0#4
  | .decodeImage => 1#4
  | .sbOpen => 2#4
  | .sbNextChunk => 3#4

/-- PHASE at the acceptance of a command (R17): that of a DECODE_IMAGE begins INITIALIZED; the others leave PHASE (log
entry 7). -/
def Command.acceptedPhase (c : Command) (phase : Phase) : Phase :=
  match c with
  | .decodeImage => .initialized
  | .nop | .sbOpen | .sbNextChunk => phase

/-- SB_TERM at the acceptance of a command (R82): that of SB_OPEN leaves the terminal state (log entry 8). -/
def Command.acceptedTerm (c : Command) (sbTerm : Bool) : Bool :=
  match c with
  | .sbOpen => false
  | .nop | .decodeImage | .sbNextChunk => sbTerm

/-- The acceptance of a command: the updates of R70, with PHASE as R17 and SB_TERM as R82 have them at the acceptance. It is
also the only return from an error: it clears ERROR, ERR and ERR_INFO (R119). -/
def acceptCommand (c : Command) (s : State) : State :=
  { s with
    status := { s.status with
      busy := true, done := false, error := false, badCmd := false, err := 0#4, errValue := 0#13, errSub := 0#4,
      phase := c.acceptedPhase s.status.phase, lastCmd := c.code },
    reader := { s.reader with sbTerm := c.acceptedTerm s.reader.sbTerm },
    seq := .start c }

/-- The rejection of a CMD write (R70): BADCMD is set and nothing else changes. -/
def rejectCommand (s : State) : State := { s with status := { s.status with badCmd := true } }

/-- A write of one of the four command codes to CMD (R70): rejected while BUSY, else accepted. -/
def presentCommand (c : Command) (s : State) : State :=
  if s.status.busy then rejectCommand s else acceptCommand c s

/-- Reset (R127 to R129): every register 0, the arrays unspecified, the block idle, the running command abandoned. IN,
OUT and the accesses made stay. -/
def resetBlock (s : State) : State :=
  { s with
    status := StatusRegs.zero, oper := OperandRegs.zero, reader := ReaderRegs.afterReset (s.freeCount + 1),
    extr := ExtractorRegs.zero, lzw := LzwRegs.afterReset (s.freeCount + 1),
    stk := StackRegs.afterReset (s.freeCount + 1), rows := RowRegs.zero, seq := .idle, freeCount := s.freeCount + 1 }

/-! ### The stack (R33) -/

/-- `push(v)` (R33); none on a full stack, which no rule does. -/
def StackRegs.push (k : StackRegs) (v : Byte) : Option StackRegs :=
  if h : k.stackPtr.toNat < 4098 then
    some { stackPtr := k.stackPtr + 1#13, stack := k.stack.set k.stackPtr.toNat v }
  else none

/-- `pop()` (R33); none where the entry below STACK_PTR does not exist, which no rule does. -/
def StackRegs.pop (k : StackRegs) : Option (Byte × StackRegs) :=
  if h : 0 < k.stackPtr.toNat ∧ k.stackPtr.toNat ≤ 4098 then
    some (k.stack[k.stackPtr.toNat - 1], { k with stackPtr := k.stackPtr - 1#13 })
  else none

/-! ### The table and its chain walks -/

/-- `reset_table` (R89): all of PREFIX, and the running registers; SUFFIX is not written. -/
def resetTable (r : LzwRegs) : LzwRegs :=
  { r with
    prefixTab := Vector.replicate 4096 Config.noSuchCode
    runningCode := r.endCode + 1#13
    runningBits := r.depth + 1#4
    maxCode1 := BitVec.ofNat 13 (2 ^ (r.depth.toNat + 1))
    prevCode := Config.noSuchCode }

/-- The end of a chain walk, where the value is no longer above CLEAR_CODE (R98, R99): a literal, or the clear code. -/
def walkTail (clearCode c : CodeField) : Except BlockError CodeField :=
  if c = clearCode then .error (.walkClear c) else .ok c

/-- `trace_root`'s loop with `n` replacements left (R98). -/
def traceFrom (clearCode : CodeField) (tab : Vector CodeField 4096) : Nat → CodeField → Except BlockError CodeField
  | 0, c =>
    if c.toNat ≤ clearCode.toNat then walkTail clearCode c
    else if Config.maxCode < c.toNat then .error (.walkRange c)
    else .error (.walkBound c)
  | n + 1, c =>
    if c.toNat ≤ clearCode.toNat then walkTail clearCode c
    else if h : c.toNat < 4096 then traceFrom clearCode tab n tab[c.toNat]
    else .error (.walkRange c)

/-- `trace_root(c)` (R98): the root literal of code `c`. -/
def traceRoot (r : LzwRegs) (c : CodeField) : Except BlockError CodeField :=
  traceFrom r.clearCode r.prefixTab Config.walkBound c

/-- How `expand` ends: the string is pushed, a walk error, or a push that found the stack full. -/
inductive Expansion where
  | pushed (k : StackRegs)
  | failed (k : StackRegs) (e : BlockError)
  | overflow
  deriving DecidableEq, Repr

/-- The end of `expand` (R99): the root literal is pushed last. -/
def expandTail (clearCode c : CodeField) (k : StackRegs) : Expansion :=
  match walkTail clearCode c with
  | .error e => .failed k e
  | .ok root =>
    match k.push (root.setWidth 8) with
    | some k' => .pushed k'
    | none => .overflow

/-- `expand`'s loop with `n` replacements left (R99). -/
def expandFrom (clearCode : CodeField) (ptab : Vector CodeField 4096) (stab : Vector Byte 4096) :
    Nat → CodeField → StackRegs → Expansion
  | 0, c, k =>
    if c.toNat ≤ clearCode.toNat then expandTail clearCode c k
    else if Config.maxCode < c.toNat then .failed k (.walkRange c)
    else .failed k (.walkBound c)
  | n + 1, c, k =>
    if c.toNat ≤ clearCode.toNat then expandTail clearCode c k
    else if h : c.toNat < 4096 then
      match k.push stab[c.toNat] with
      | some k' => expandFrom clearCode ptab stab n ptab[c.toNat] k'
      | none => .overflow
    else .failed k (.walkRange c)

/-- `expand(c)` (R99): push the string of code `c`, last byte first. -/
def expand (r : LzwRegs) (c : CodeField) (k : StackRegs) : Expansion :=
  expandFrom r.clearCode r.prefixTab r.suffixTab Config.walkBound c k

/-- The PREFIX write of a definition (R100). -/
def writePrefix (r : LzwRegs) (slot : Nat) (c : CodeField) : LzwRegs :=
  { r with prefixTab := r.prefixTab.setIfInBounds slot c }

/-- The SUFFIX write of a definition (R100). -/
def writeSuffix (r : LzwRegs) (slot : Nat) (v : Byte) : LzwRegs :=
  { r with suffixTab := r.suffixTab.setIfInBounds slot v }

/-- `define_and_update(code, kw)` (R100): the range check, the PREFIX write, then the suffix walk over the table so written,
and PREV_CODE. An error leaves what was written before it (R116). Afterwards `decode_row` goes on (R108). -/
def defineAndUpdate (code : CodeField) (kw : Bool) (s : State) : State :=
  let r := s.lzw
  if r.prevCode = Config.noSuchCode then { s with lzw := { r with prevCode := code }, seq := .rowLoop }
  else if r.runningCode.toNat < Config.rcMin ∨ Config.rcMax < r.runningCode.toNat then
    { s with seq := .raising (.defineRange r.runningCode) }
  else
    let slot := r.runningCode.toNat - 2
    let r1 := writePrefix r slot r.prevCode
    match traceRoot r1 (if kw then r.prevCode else code) with
    | .error e => { s with lzw := r1, seq := .raising e }
    | .ok root =>
      { s with lzw := { writeSuffix r1 slot (root.setWidth 8) with prevCode := code }, seq := .rowLoop }

/-! ### Pixels -/

/-- The OUT offset of the next pixel: `ROW * WIDTH + COL` (R109). -/
def pixelOffset (s : State) : Nat := s.rows.row.toNat * s.oper.width.toNat + s.rows.col.toNat

/-- The counters after a pixel (R109). -/
def pixelDone (s : State) : State :=
  { s with rows := { s.rows with col := s.rows.col + 1#16, pixRemain := s.rows.pixRemain - 1#32 } }

/-- `emit(v)` (R109): one pixel. -/
def emitPixel (v : Byte) (s : State) : Result := andThen (outWrite (pixelOffset s) v s) fun s' => .next (pixelDone s')

end Sys2Proof.Machine
end

