-- ==== Sys2Proof/Machine/Operands.lean ====
section
/-! DEFINITION. The operand forms: the code a fetch takes from the accumulator (spec/41_subblock_bitstream.md R83), the
context that classifies it (spec/30_encoding.md R61), the row iterator (spec/43_scanline.md R107) and the operand registers
the host writes (spec/40_host_interface.md R68). -/

namespace Sys2Proof.Machine

/-- The class context of the decoder's registers (R61). -/
def State.codeContext (s : State) : CodeContext :=
  { clearCode := s.lzw.clearCode, endCode := s.lzw.endCode, runningCode := s.lzw.runningCode,
    prefixTab := s.lzw.prefixTab }

/-! ### The code extractor (R83) -/

/-- A byte taken into the accumulator: `SHIFT_ACC | (zext_32(b) << SHIFT_STATE)`, eight more bits held (R83). -/
def takeByte (x : ExtractorRegs) (b : Byte) : ExtractorRegs :=
  { x with shiftAcc := x.shiftAcc ||| (b.setWidth 32 <<< x.shiftState.toNat), shiftState := x.shiftState + 8#6 }

/-- The code of width `w` in the accumulator: `SHIFT_ACC & (2^w − 1)` (R83). -/
def codeBits (x : ExtractorRegs) (w : Nat) : Code := BitVec.ofNat 12 (x.shiftAcc.toNat % 2 ^ w)

/-- The accumulator after a code of width `w` is taken (R83). -/
def dropCode (x : ExtractorRegs) (w : Nat) : ExtractorRegs :=
  { shiftAcc := x.shiftAcc >>> w, shiftState := x.shiftState - BitVec.ofNat 6 w, curCode := (codeBits x w).setWidth 13 }

/-- The running code and the width growth of a fetch (R90), after the extraction and before the code is classified. -/
def advanceRunning (r : LzwRegs) : LzwRegs :=
  let rc := r.runningCode + 1#13
  if r.maxCode1.toNat < rc.toNat ∧ r.runningBits.toNat < Config.maxBits then
    { r with runningCode := rc, maxCode1 := BitVec.ofNat 13 (2 * r.maxCode1.toNat), runningBits := r.runningBits + 1#4 }
  else { r with runningCode := rc }

/-! ### The row iterator (R107) -/

/-- The first row of a pass of the 4-pass order (R107). -/
def passStart : Nat → Nat
  | 0 => 0
  | 1 => 4
  | 2 => 2
  | _ => 1

/-- The step between the rows of a pass (R107). -/
def passStep : Nat → Nat
  | 0 => 8
  | 1 => 8
  | 2 => 4
  | _ => 2

/-- The rows `r, r + step, …` below the height, at most `n` of them (R107 `while r < HEIGHT`). -/
def passRows (p step height : Nat) : Nat → Nat → List (Nat × Nat)
  | 0, _ => []
  | n + 1, r => if r < height then (p, r) :: passRows p step height n (r + step) else []

/-- `row_order()` (R107): the (pass, row) pairs in the order they are decoded. -/
def rowOrder (interlace : Bool) (height : Nat) : List (Nat × Nat) :=
  if interlace then
    passRows 0 8 height height 0 ++ passRows 1 8 height height 4 ++ passRows 2 4 height height 2
      ++ passRows 3 2 height height 1
  else passRows 0 1 height height 0

/-- The first pass from `p` on that has a row, of `n` passes left. -/
def firstOfPasses (height : Nat) : Nat → Nat → Option (Nat × Nat)
  | 0, _ => none
  | n + 1, p => if passStart p < height then some (p, passStart p) else firstOfPasses height n (p + 1)

/-- The first pair of `row_order()`. -/
def firstRowOf (interlace : Bool) (height : Nat) : Option (Nat × Nat) :=
  if interlace then firstOfPasses height 4 0 else if 0 < height then some (0, 0) else none

/-- The pair of `row_order()` after (pass, row). -/
def nextRowOf (interlace : Bool) (height pass row : Nat) : Option (Nat × Nat) :=
  if interlace then
    if row + passStep pass < height then some (pass, row + passStep pass)
    else firstOfPasses height (3 - pass) (pass + 1)
  else if row + 1 < height then some (0, row + 1) else none

/-- A row begins, or the rows are done (R106): ROW, PASS and COL are set and its leading `flush` follows (R108); after
the last row comes the drain (R75). -/
def beginRow (next : Option (Nat × Nat)) (s : State) : State :=
  match next with
  | some (p, r) =>
    { s with
      rows := { s.rows with row := BitVec.ofNat 16 r, pass := BitVec.ofNat 2 p, col := 0#16 }
      seq := .flush .rowStart }
  | none => { s with seq := .startDrain }

/-! ### The host's operand registers (R68) -/

/-- A write to GEOM (R19). -/
def writeGeom (v : Word) (o : OperandRegs) : OperandRegs :=
  { o with width := v.extractLsb' 0 16, height := v.extractLsb' 16 16 }

/-- A write to MODE: only bit 0 is stored (R20, R68). -/
def writeMode (v : Word) (o : OperandRegs) : OperandRegs := { o with interlace := v.getLsbD 0 }

/-- A register write at an offset other than CMD's, while BUSY = 0 (R68): the four operand registers store the value; an
RO register or a reserved offset ignores it (R30). -/
def writeOperand (offset : Nat) (v : Word) (o : OperandRegs) : OperandRegs :=
  if offset = 0x0C then writeGeom v o
  else if offset = 0x10 then writeMode v o
  else if offset = 0x14 then { o with inPtr := v }
  else if offset = 0x18 then { o with inEnd := v }
  else o

/-! ### Host programs (R64, R65) -/

/-- `WR <REG>, <value>`. -/
def wr (offset : Nat) (v : Word) : Turn := .host (.regWrite 32 offset v)

/-- `RD <REG>`. -/
def rd (offset : Nat) : Turn := .host (.regRead 32 offset)

/-- `CMD <MNEMONIC>`: the command word with bits [31:4] zero. -/
def cmd (c : Command) : Turn := wr 0x00 (cmdWord c.code 0#28)

/-- `DECODE w, h, il, p, e` (R65). -/
def decodeProgram (w h : BitVec 16) (il : Bool) (p e : Word) : List Turn :=
  [wr 0x0C (h ++ w), wr 0x10 (if il then 1#32 else 0#32), wr 0x14 p, wr 0x18 e, cmd .decodeImage, .wait]

/-- `OPEN p, e` (R65). -/
def openProgram (p e : Word) : List Turn := [wr 0x14 p, wr 0x18 e, cmd .sbOpen, .wait]

/-- `NEXT` (R65). -/
def nextProgram : List Turn := [cmd .sbNextChunk, .wait]

end Sys2Proof.Machine
end

