-- ==== Sys2Proof/Machine/Codes.lean ====
section
/-! DEFINITION. The six code classes (spec/42_lzw_decoder.md R91 to R97), each run on the state its fetch left (R90). -/

namespace Sys2Proof.Machine

/-- LZW_END (R92): PrematureEnd, always; a fetched end code finds pixels remaining. The raise is a micro-step of its own. -/
def execLzwEnd (code : Code) (s : State) : Result := .next (raiseError (.prematureEnd (code.setWidth 13)) s)

/-- LZW_CLEAR (R93): the table and the running registers are reset, PHASE becomes CLEARED, and `decode_row` goes on. -/
def execLzwClear (_code : Code) (s : State) : Result :=
  .next { s with lzw := resetTable s.lzw, status := { s.status with phase := .cleared }, seq := .rowLoop }

/-- LZW_LITERAL (R94): the code is the pixel; then the definition (R100). -/
def execLzwLiteral (code : Code) (s : State) : Result :=
  andThen (emitPixel (code.setWidth 8) s) fun s' => .next (defineAndUpdate (code.setWidth 13) false s')

/-- What follows an `expand` (R95, R96): `flush`, and then the definition; a walk error is raised (R98), with the bytes
pushed before it kept (R116). -/
def afterExpand (code : CodeField) (kw : Bool) (s : State) (x : Expansion) : Result :=
  match x with
  | .pushed k => .next { s with stk := k, seq := .flush (.define code kw) }
  | .failed k e => .next { s with stk := k, seq := .raising e }
  | .overflow => .fault .stackOutOfRange

/-- LZW_KNOWN (R95): the code's string goes onto the stack; `flush` writes it and the definition follows. -/
def execLzwKnown (code : Code) (s : State) : Result :=
  afterExpand (code.setWidth 13) false s (expand s.lzw (code.setWidth 13) s.stk)

/-- LZW_KWKWK (R96): the root literal of the previous code, then the previous code's string, go onto the stack. -/
def execLzwKwkwk (code : Code) (s : State) : Result :=
  match traceRoot s.lzw s.lzw.prevCode with
  | .error e => .next { s with seq := .raising e }
  | .ok root =>
    match s.stk.push (root.setWidth 8) with
    | none => .fault .stackOutOfRange
    | some k => afterExpand (code.setWidth 13) true s (expand s.lzw s.lzw.prevCode k)

/-- LZW_INVALID (R97): InvalidCode, always. The raise is a micro-step of its own. -/
def execLzwInvalid (code : Code) (s : State) : Result := .next (raiseError (.invalidCode (code.setWidth 13)) s)

end Sys2Proof.Machine
end

