-- ==== Sys2Proof/Machine/Commands.lean ====
section
/-! DEFINITION. The command words (spec/40_host_interface.md). The effect of a command word is what the host's write of it to
CMD does, in the one atomic host access (R70): it is rejected, or the command is accepted and the sequencer stands at the start of its
pseudocode, whose micro-steps follow (R72 to R75; Machine/Sequencer.lean runs them from the register updates below). -/

namespace Sys2Proof.Machine

/-- NOP (R72): accepted as R70 says; its one micro-step is `finish_ok`. -/
def execNop (_ignored : BitVec 28) (s : State) : Result := .next (presentCommand .nop s)

/-- DECODE_IMAGE (R75): accepted as R70 says, PHASE INITIALIZED from then on (R17); `beginDecode` starts its first micro-step. -/
def execDecodeImage (_ignored : BitVec 28) (s : State) : Result := .next (presentCommand .decodeImage s)

/-- SB_OPEN (R73): accepted as R70 says, out of the terminal state from then on (R82); its one micro-step is `openReader` and `finish_ok`. -/
def execSbOpen (_ignored : BitVec 28) (s : State) : Result := .next (presentCommand .sbOpen s)

/-- SB_NEXT_CHUNK (R74): accepted as R70 says; its micro-steps read a sub-block and copy it to OUT. -/
def execSbNextChunk (_ignored : BitVec 28) (s : State) : Result := .next (presentCommand .sbNextChunk s)

/-- Reserved code 4 (R54): rejected, whatever BUSY is (R70). -/
def execReserved4 (_ignored : BitVec 28) (s : State) : Result := .next (rejectCommand s)

/-- Reserved code 5 (R54). -/
def execReserved5 (_ignored : BitVec 28) (s : State) : Result := .next (rejectCommand s)

/-- Reserved code 6 (R54). -/
def execReserved6 (_ignored : BitVec 28) (s : State) : Result := .next (rejectCommand s)

/-- Reserved code 7 (R54). -/
def execReserved7 (_ignored : BitVec 28) (s : State) : Result := .next (rejectCommand s)

/-- Reserved code 8 (R54). -/
def execReserved8 (_ignored : BitVec 28) (s : State) : Result := .next (rejectCommand s)

/-- Reserved code 9 (R54). -/
def execReserved9 (_ignored : BitVec 28) (s : State) : Result := .next (rejectCommand s)

/-- Reserved code A (R54). -/
def execReservedA (_ignored : BitVec 28) (s : State) : Result := .next (rejectCommand s)

/-- Reserved code B (R54). -/
def execReservedB (_ignored : BitVec 28) (s : State) : Result := .next (rejectCommand s)

/-- Reserved code C (R54). -/
def execReservedC (_ignored : BitVec 28) (s : State) : Result := .next (rejectCommand s)

/-- Reserved code D (R54). -/
def execReservedD (_ignored : BitVec 28) (s : State) : Result := .next (rejectCommand s)

/-- Reserved code E (R54). -/
def execReservedE (_ignored : BitVec 28) (s : State) : Result := .next (rejectCommand s)

/-- Reserved code F (R54). -/
def execReservedF (_ignored : BitVec 28) (s : State) : Result := .next (rejectCommand s)

/-- The sub-block reader as SB_OPEN (R73) and the first micro-step of DECODE_IMAGE (R75) leave it. CHUNK_BUF stays. -/
def openReader (s : State) : State :=
  { s with
    reader := { s.reader with sbTerm := false, sbShort := false, chunkLen := 0#8, chunkDecl := 0#8, chunkPos := 0#8 } }

/-- The assignments that open DECODE_IMAGE's first micro-step (R75). PIX_REMAIN is 0 until a minimum code size is accepted, so
it is 0 after an error at that byte (log entry 23). -/
def beginDecode (s : State) : State :=
  let s1 := openReader s
  { s1 with
    stk := { s.stk with stackPtr := 0#13 }
    extr := { shiftAcc := 0#32, shiftState := 0#6, curCode := 0#13 }
    rows := { row := 0#16, pass := 0#2, col := 0#16, pixRemain := 0#32 }
    status := { s.status with phase := .initialized } }

end Sys2Proof.Machine
end

