-- ==== Sys2Proof/Machine/Stream.lean ====
section
/-! DEFINITION. The stream bytes: the minimum code size (spec/42_lzw_decoder.md R88, R89), the length byte and the terminator
(spec/41_subblock_bitstream.md R80). The read of the byte and the advance of IN_PTR are the step's (R79). -/

namespace Sys2Proof.Machine

/-- The minimum code size is legal (R56). -/
def mcsLegal (m : Byte) : Bool := Config.depthMin ≤ m.toNat ∧ m.toNat ≤ Config.depthMax

/-- The decoder registers of an accepted minimum code size (R88). -/
def acceptMcs (m : Byte) (r : LzwRegs) : LzwRegs :=
  resetTable
    { r with
      mcs := m, depth := m.setWidth 4, clearCode := BitVec.ofNat 13 (2 ^ m.toNat),
      endCode := BitVec.ofNat 13 (2 ^ m.toNat + 1) }

/-- MCS: the rest of `read_mcs_and_init` (R88, R89) after its read, and the pixel count of R75; the rows follow (R106). An
illegal byte raises CorruptTable 1, in a micro-step of its own (R134). -/
def execMcs (m : Byte) (s : State) : Result :=
  if mcsLegal m then
    .next
      { s with
        lzw := acceptMcs m s.lzw
        rows := { s.rows with pixRemain := BitVec.ofNat 32 (s.oper.width.toNat * s.oper.height.toNat) }
        seq := .firstRow }
  else .next { s with lzw := { s.lzw with mcs := m }, seq := .raising (.badMcs m) }

/-- The caller that `next_chunk` returns to. At a position outside `next_chunk` no caller waits: SB_NEXT_CHUNK is taken
(DESIGN CHOICE, log entry 16; no step asks). -/
def Seq.chunkCaller : Seq → ChunkCaller
  | .nextChunk k => k
  | .payload k => k
  | _ => .command

/-- Where `next_chunk` returns None (R80): SB_NEXT_CHUNK ends (R74), `next_byte` raises TruncatedStream 2 (R84), and the
drain is over: PHASE becomes DONE before DECODE_IMAGE's end (R111, R75). -/
def returnNone (k : ChunkCaller) (s : State) : State :=
  match k with
  | .command => { s with seq := .finish }
  | .extractor => { s with seq := .raising .codeAtTerminator }
  | .drain => { s with status := { s.status with phase := .done }, seq := .finish }

/-- Where `next_chunk` returns EndOfInput (R80): the caller's error (R74, R84, R111). -/
def returnEndOfInput (k : ChunkCaller) (s : State) : State :=
  match k with
  | .command => { s with seq := .raising .noLengthInNextChunk }
  | .extractor => { s with seq := .raising .codeAtInputEnd }
  | .drain => { s with seq := .raising .noLengthInDrain }

/-- Where `next_chunk` returns a Chunk (R80): SB_NEXT_CHUNK copies it (R74), the extractor goes on (R84), the drain reads
the next one (R111). -/
def returnChunk (k : ChunkCaller) (s : State) : State :=
  match k with
  | .command => { s with seq := .copyOut 0 }
  | .extractor => { s with seq := .fetch }
  | .drain => { s with seq := .nextChunk .drain }

/-- SB_LEN (R57, R80): a sub-block is announced, and its payload loop follows. -/
def execSbLen (len : Byte) (s : State) : Result :=
  .next
    { s with
      reader := { s.reader with chunkDecl := len, chunkLen := 0#8, chunkPos := 0#8, sbShort := false }
      seq := .payload s.seq.chunkCaller }

/-- SB_TERMINATOR (R57, R80): the reader enters its terminal state and `next_chunk` returns None. -/
def execSbTerminator (s : State) : Result :=
  .next
    (returnNone s.seq.chunkCaller
      { s with
        reader :=
          { s.reader with sbTerm := true, sbShort := false, chunkLen := 0#8, chunkDecl := 0#8, chunkPos := 0#8 } })

/-- A payload byte read into CHUNK_BUF (R80). -/
def storePayload (b : Byte) (s : State) : State :=
  { s with
    reader :=
      { s.reader with
        chunkBuf := s.reader.chunkBuf.setIfInBounds s.reader.chunkLen.toNat b
        chunkLen := s.reader.chunkLen + 1#8 } }

end Sys2Proof.Machine
end

