-- ==== Sys2Proof/Machine/Dispatch.lean ====
section
/-! DEFINITION. The meaning of each instruction, one arm for each row of spec/opcode_table.json. -/

namespace Sys2Proof.Machine

def exec (i : Instr) (s : State) : Host.Outcome State Fault Refusal :=
  match i with
  | .nop g => Sys2Proof.Machine.execNop g s
  | .decodeImage g => Sys2Proof.Machine.execDecodeImage g s
  | .sbOpen g => Sys2Proof.Machine.execSbOpen g s
  | .sbNextChunk g => Sys2Proof.Machine.execSbNextChunk g s
  | .reserved4 g => Sys2Proof.Machine.execReserved4 g s
  | .reserved5 g => Sys2Proof.Machine.execReserved5 g s
  | .reserved6 g => Sys2Proof.Machine.execReserved6 g s
  | .reserved7 g => Sys2Proof.Machine.execReserved7 g s
  | .reserved8 g => Sys2Proof.Machine.execReserved8 g s
  | .reserved9 g => Sys2Proof.Machine.execReserved9 g s
  | .reservedA g => Sys2Proof.Machine.execReservedA g s
  | .reservedB g => Sys2Proof.Machine.execReservedB g s
  | .reservedC g => Sys2Proof.Machine.execReservedC g s
  | .reservedD g => Sys2Proof.Machine.execReservedD g s
  | .reservedE g => Sys2Proof.Machine.execReservedE g s
  | .reservedF g => Sys2Proof.Machine.execReservedF g s
  | .lzwEnd c => Sys2Proof.Machine.execLzwEnd c s
  | .lzwClear c => Sys2Proof.Machine.execLzwClear c s
  | .lzwLiteral c => Sys2Proof.Machine.execLzwLiteral c s
  | .lzwKnown c => Sys2Proof.Machine.execLzwKnown c s
  | .lzwKwkwk c => Sys2Proof.Machine.execLzwKwkwk c s
  | .lzwInvalid c => Sys2Proof.Machine.execLzwInvalid c s
  | .mcs m => Sys2Proof.Machine.execMcs m s
  | .sbLen l => Sys2Proof.Machine.execSbLen l s
  | .sbTerminator => Sys2Proof.Machine.execSbTerminator s

end Sys2Proof.Machine
end

