-- ==== Sys2Proof/Machine/Flags.lean ====
section
/-! DEFINITION. The status flags as the host sees them, and with them every register word of the window (spec/10_state.md
R14 to R30). Every bit no field names reads 0 (R30). -/

namespace Sys2Proof.Machine

/-- STATUS.PHASE's encoding (R17). -/
def Phase.code : Phase → BitVec 3
  | .none => 0#3
  | .initialized => 1#3
  | .streaming => 2#3
  | .cleared => 3#3
  | .draining => 4#3
  | .done => 5#3
  | .failed => 6#3

/-- STATUS (R14, R16): BUSY [0], DONE [1], ERROR [2], BADCMD [3], SB_TERM [4], SB_SHORT [5], ERR [11:8], PHASE [14:12],
LAST_CMD [19:16]. -/
def statusWord (s : State) : Word :=
  0#12 ++ s.status.lastCmd ++ 0#1 ++ s.status.phase.code ++ s.status.err ++ 0#2 ++ BitVec.ofBool s.reader.sbShort
    ++ BitVec.ofBool s.reader.sbTerm ++ BitVec.ofBool s.status.badCmd ++ BitVec.ofBool s.status.error
    ++ BitVec.ofBool s.status.done ++ BitVec.ofBool s.status.busy

/-- ERR_INFO (R18): VALUE [12:0], SUB [19:16]. -/
def errInfoWord (s : State) : Word := 0#12 ++ s.status.errSub ++ 0#3 ++ s.status.errValue

/-- GEOM (R19): WIDTH [15:0], HEIGHT [31:16]. -/
def geomWord (s : State) : Word := s.oper.height ++ s.oper.width

/-- MODE (R20): INTERLACE [0]. -/
def modeWord (s : State) : Word := 0#31 ++ BitVec.ofBool s.oper.interlace

/-- CHUNK (R22): CHUNK_LEN [7:0], CHUNK_DECL [15:8], CHUNK_POS [23:16]. -/
def chunkWord (s : State) : Word := 0#8 ++ s.reader.chunkPos ++ s.reader.chunkDecl ++ s.reader.chunkLen

/-- LZW_CFG (R23): MCS [7:0], DEPTH [11:8]. -/
def lzwCfgWord (s : State) : Word := 0#20 ++ s.lzw.depth ++ s.lzw.mcs

/-- LZW_CODES (R24): CLEAR_CODE [12:0], END_CODE [28:16]. -/
def lzwCodesWord (s : State) : Word := 0#3 ++ s.lzw.endCode ++ 0#3 ++ s.lzw.clearCode

/-- LZW_RUN (R25): RUNNING_CODE [12:0], RUNNING_BITS [19:16]. -/
def lzwRunWord (s : State) : Word := 0#12 ++ s.lzw.runningBits ++ 0#3 ++ s.lzw.runningCode

/-- LZW_MAX (R26): MAX_CODE1 [12:0]. -/
def lzwMaxWord (s : State) : Word := 0#19 ++ s.lzw.maxCode1

/-- LZW_PREV (R27): PREV_CODE [12:0], CUR_CODE [28:16]. -/
def lzwPrevWord (s : State) : Word := 0#3 ++ s.extr.curCode ++ 0#3 ++ s.lzw.prevCode

/-- STACK (R28): STACK_PTR [12:0]. -/
def stackWord (s : State) : Word := 0#19 ++ s.stk.stackPtr

/-- SHIFT_STATE (R28): [5:0]. -/
def shiftStateWord (s : State) : Word := 0#26 ++ s.extr.shiftState

/-- ROWPOS (R29): ROW [15:0], PASS [17:16]. -/
def rowPosWord (s : State) : Word := 0#14 ++ s.rows.pass ++ s.rows.row

/-- COL (R29): [15:0]. -/
def colWord (s : State) : Word := 0#16 ++ s.rows.col

/-- What a host read of the window returns at a byte offset (R14, R67); CMD and the reserved offsets read 0 (R15, R30). -/
def regWord (s : State) (offset : Nat) : Word :=
  if offset = 0x04 then statusWord s
  else if offset = 0x08 then errInfoWord s
  else if offset = 0x0C then geomWord s
  else if offset = 0x10 then modeWord s
  else if offset = 0x14 then s.oper.inPtr
  else if offset = 0x18 then s.oper.inEnd
  else if offset = 0x1C then chunkWord s
  else if offset = 0x20 then lzwCfgWord s
  else if offset = 0x24 then lzwCodesWord s
  else if offset = 0x28 then lzwRunWord s
  else if offset = 0x2C then lzwMaxWord s
  else if offset = 0x30 then lzwPrevWord s
  else if offset = 0x34 then stackWord s
  else if offset = 0x38 then s.extr.shiftAcc
  else if offset = 0x3C then shiftStateWord s
  else if offset = 0x40 then rowPosWord s
  else if offset = 0x44 then colWord s
  else if offset = 0x48 then s.rows.pixRemain
  else 0#32

end Sys2Proof.Machine
end

