-- ==== Sys2Proof/Machine/Sequencer.lean ====
section
/-! DEFINITION. What the step calls: the block's sequencer (spec/10_state.md R35), position by position, and the host's turn
(spec/40_host_interface.md R67 to R70). Where an encoded input is due, the sequencer fetches it, decodes it and
runs its meaning. -/

namespace Sys2Proof.Machine

/-- Read a length byte and run it (R80). -/
def lengthStep (s : State) : Result := inRead s fun b s' => exec (decodeLength b) s'

/-- `next_chunk` (R80). -/
def nextChunkStep (k : ChunkCaller) (s : State) : Result :=
  if s.reader.sbTerm then .next (returnNone k s)
  else if s.inAtEnd then .next (returnEndOfInput k s)
  else lengthStep s

/-- The first micro-step of a command (R72 to R75). An end or an error it meets before any memory access is part of it. -/
def startStep (c : Command) (s : State) : Result :=
  match c with
  | .nop => .next (finishOk s)
  | .sbOpen => .next (finishOk (openReader s))
  | .sbNextChunk =>
    if s.reader.sbTerm then .next (finishOk s)
    else if s.inAtEnd then .next (raiseError .noLengthInNextChunk s)
    else lengthStep { s with seq := .nextChunk .command }
  | .decodeImage =>
    if s.inAtEnd then .next (raiseError .noMcsByte (beginDecode s))
    else inRead (beginDecode s) fun m s' => exec (.mcs m) s'

/-- The payload loop of `next_chunk` (R80, R81): the next byte, or the chunk is returned, short when the input ended. -/
def payloadStep (k : ChunkCaller) (s : State) : Result :=
  if s.reader.chunkLen.toNat < s.reader.chunkDecl.toNat then
    if s.inAtEnd then .next (returnChunk k { s with reader := { s.reader with sbShort := true } })
    else inRead s fun b s' => .next (storePayload b s')
  else .next (returnChunk k s)

/-- The copy loop of SB_NEXT_CHUNK (R74). -/
def copyStep (i : Nat) (s : State) : Result :=
  if i < s.reader.chunkLen.toNat then
    if h : i < 255 then
      andThen (outWrite i s.reader.chunkBuf[i] s) fun s' =>
        .next { s' with reader := { s'.reader with chunkPos := BitVec.ofNat 8 (i + 1) }, seq := .copyOut (i + 1) }
    else .fault .chunkBufOutOfRange
  else .next { s with seq := .finish }

/-- What follows a `flush` (R108, R95, R96). -/
def afterFlush (k : FlushCaller) (s : State) : State :=
  match k with
  | .rowStart => { s with seq := .rowLoop }
  | .define code kw => defineAndUpdate code kw s

/-- `flush`'s loop test (R110): the next byte is popped, or the flush is over. -/
def flushStep (k : FlushCaller) (s : State) : Result :=
  if 0 < s.stk.stackPtr.toNat ∧ s.rows.col.toNat < s.oper.width.toNat then
    match s.stk.pop with
    | some (v, t) => .next { s with stk := t, seq := .emit v k }
    | none => .fault .stackOutOfRange
  else .next (afterFlush k s)

/-- The pixel a `flush` emits (R110), back to its loop test. -/
def emitStep (v : Byte) (k : FlushCaller) (s : State) : Result :=
  andThen (emitPixel v s) fun s' => .next { s' with seq := .flush k }

/-- `extract`'s loop and what `fetch_code` does after it (R83, R84, R90): a byte is taken while the accumulator is short of
the width, from the chunk or through `next_chunk`; then the code is taken and the running code advances. -/
def fetchStep (s : State) : Result :=
  if s.extr.shiftState.toNat < s.lzw.runningBits.toNat then
    if s.reader.chunkPos = s.reader.chunkLen then .next { s with seq := .nextChunk .extractor }
    else if h : s.reader.chunkPos.toNat < 255 then
      .next
        { s with
          extr := takeByte s.extr s.reader.chunkBuf[s.reader.chunkPos.toNat]
          reader := { s.reader with chunkPos := s.reader.chunkPos + 1#8 } }
    else .fault .chunkBufOutOfRange
  else
    .next
      { s with
        extr := dropCode s.extr s.lzw.runningBits.toNat
        lzw := advanceRunning s.lzw
        status := { s.status with phase := .streaming }
        seq := .process (codeBits s.extr s.lzw.runningBits.toNat) }

/-- The start of the drain (R111). -/
def drainStart (s : State) : State :=
  { s with
    status := { s.status with phase := .draining }
    stk := { s.stk with stackPtr := 0#13 }
    reader := { s.reader with chunkPos := s.reader.chunkLen }
    seq := .nextChunk .drain }

/-- One move of the block (R35): what its sequencer position says. -/
def blockStep (s : State) : Result :=
  match s.seq with
  | .idle => .next s
  | .start c => startStep c s
  | .nextChunk k => nextChunkStep k s
  | .payload k => payloadStep k s
  | .copyOut i => copyStep i s
  | .firstRow => .next (beginRow (firstRowOf s.oper.interlace s.oper.height.toNat) s)
  | .nextRow =>
    .next (beginRow (nextRowOf s.oper.interlace s.oper.height.toNat s.rows.pass.toNat s.rows.row.toNat) s)
  | .flush k => flushStep k s
  | .emit v k => emitStep v k s
  | .rowLoop => .next { s with seq := if s.rows.col.toNat < s.oper.width.toNat then .fetch else .nextRow }
  | .fetch => fetchStep s
  | .process code => exec (decodeCode s.codeContext code) s
  | .startDrain => .next (drainStart s)
  | .finish => .next (finishOk s)
  | .raising e => .next (raiseError e s)

/-- A class whose meaning opens with a memory access or a raise, and so with a micro-step of its own (R9, R134). -/
def Instr.opensMicroStep : Instr → Bool
  | .lzwEnd _ | .lzwLiteral _ | .lzwInvalid _ => true
  | _ => false

/-- The block stands at a micro-step boundary (R9, R44): its next move opens with a memory access or ends the command, or
no command runs. Anywhere else its next move is internal computation of the micro-step that runs. -/
def State.atBoundary (s : State) : Bool :=
  match s.seq with
  | .idle | .start _ | .emit _ _ | .finish | .raising _ => true
  | .nextChunk _ => !s.reader.sbTerm && !s.inAtEnd
  | .payload _ => s.reader.chunkLen.toNat < s.reader.chunkDecl.toNat && !s.inAtEnd
  | .copyOut i => i < s.reader.chunkLen.toNat
  | .process code => Instr.opensMicroStep (decodeCode s.codeContext code)
  | .firstRow | .nextRow | .flush _ | .rowLoop | .fetch | .startDrain => false

/-- A register write of the host, whole and in the window (R68 to R70). CMD takes the command word; while BUSY = 1 every
other write is ignored. -/
def regWrite (offset : Nat) (v : Word) (s : State) : Result :=
  if offset = 0 then exec (decodeCommand v) s
  else if s.status.busy then .next s
  else .next { s with oper := writeOperand offset v s.oper }

/-- Only whole, aligned register accesses in the window have a meaning (R43). -/
def wholeAccess (width offset : Nat) (r : Result) : Result :=
  if width ≠ 32 ∨ offset % 4 ≠ 0 then .refused (.regAccessNotWhole width offset)
  else if 256 ≤ offset then .refused (.regOutsideWindow offset)
  else r

/-- Record what a read of the host returned. -/
def observe (o : Observation) (s : State) : State := { s with observations := o :: s.observations }

/-- One access of the host (R67 to R70, R76). A write to IN or OUT during a command is a race that the order of the turns
decides (R50). -/
def hostStep (a : HostAccess) (s : State) : Result :=
  match a with
  | .regWrite width offset v => wholeAccess width offset (regWrite offset v s)
  | .regRead width offset => wholeAccess width offset (.next (observe (.reg offset (regWord s offset)) s))
  | .inWrite offset b =>
    if offset < s.inSpace.size then .next { s with inSpace := s.inSpace.write offset b }
    else .fault (.hostInOutOfRange offset)
  | .inRead offset =>
    if offset < s.inSpace.size then .next (observe (.inByte offset (s.inSpace.read offset)) s)
    else .fault (.hostInOutOfRange offset)
  | .outWrite offset b =>
    if offset < s.outSpace.size then .next { s with outSpace := s.outSpace.write offset b }
    else .fault (.hostOutOutOfRange offset)
  | .outRead offset =>
    if offset < s.outSpace.size then .next (observe (.outByte offset (s.outSpace.read offset)) s)
    else .fault (.hostOutOutOfRange offset)

/-- The turn at the head of the agenda (log entry 2); with none left the block moves. -/
def takeTurn (s : State) : Result :=
  match s.agenda with
  | [] => blockStep s
  | .block :: rest => blockStep { s with agenda := rest }
  | .host a :: rest => hostStep a { s with agenda := rest }
  | .wait :: rest => if s.status.busy then blockStep s else .next { s with agenda := rest }
  | .reset :: rest => .next (resetBlock { s with agenda := rest })

/-- The command register's next word, ready to be written (log entry 14). -/
def placeCommand (w : Nat) (s : State) : State :=
  { s with
    agenda := wr 0 (BitVec.ofNat 32 w) :: s.agenda
    seq := if s.atBoundary then s.seq else .idle }

/-- A byte where a length byte is due, the reader about to take it (log entry 14). -/
def placeLengthByte (w : Nat) (s : State) : State :=
  let p : Word := if s.oper.inPtr = 4294967295#32 then 0#32 else s.oper.inPtr
  let sp := { s.inSpace with size := max s.inSpace.size (p.toNat + 1) }
  { s with
    inSpace := sp.write p.toNat (BitVec.ofNat 8 w)
    oper := { s.oper with inPtr := p, inEnd := if p.toNat < s.oper.inEnd.toNat then s.oper.inEnd else p + 1#32 }
    reader := { s.reader with sbTerm := false }
    status := { s.status with busy := true, lastCmd := 3#4 }
    seq := .nextChunk .command
    agenda := .block :: s.agenda }

/-- A fetched code, the decoder about to process it: the decoder stands as just after a minimum code size of 2 and one
fetch (`freshContext`), with one pixel to write (log entry 14). -/
def placeCode (w : Nat) (s : State) : State :=
  { s with
    lzw :=
      { s.lzw with
        mcs := 2#8, depth := 2#4, clearCode := 4#13, endCode := 5#13, runningCode := 7#13, runningBits := 3#4,
        maxCode1 := 8#13, prevCode := Config.noSuchCode, prefixTab := freshContext.prefixTab }
    oper := { s.oper with width := 1#16, height := 1#16 }
    rows := { row := 0#16, pass := 0#2, col := 0#16, pixRemain := 1#32 }
    stk := { s.stk with stackPtr := 0#13 }
    outSpace := { s.outSpace with size := max s.outSpace.size 1 }
    status := { s.status with busy := true, lastCmd := 1#4, phase := .streaming }
    seq := .process (BitVec.ofNat 12 w)
    agenda := .block :: s.agenda }

/-- The table word placed where the next step fetches (log entry 14). -/
def placeWord (nbits w : Nat) (s : State) : State :=
  match tableWordKind nbits w with
  | .command => placeCommand w s
  | .lengthByte => placeLengthByte w s
  | .code => placeCode w s
  | .none => s

end Sys2Proof.Machine
end

