-- ==== Sys2Proof/Machine/Step.lean ====
section
/-! DEFINITION. One step of the machine, and the placing of an instruction where it fetches next. -/

namespace Sys2Proof.Machine

/-- One step. At a micro-step boundary the agenda says which agent moves (R9, R44, R129); between two boundaries the
block goes on with the internal computation of its micro-step, which no other agent can observe. -/
def step (s : State) : Host.Outcome State Fault Refusal :=
  if s.atBoundary then takeTurn s else blockStep s

/-- The state with an instruction where `step` fetches its next one (log entry 14). -/
def State.withFetchWord (s : State) (nbits w : Nat) : State := placeWord nbits w s

end Sys2Proof.Machine
end

