-- ==== Sys2Proof/Safety.lean ====
section
/-! DEFINITION. The terms claims use: the strings of codes (spec/42_lzw_decoder.md R101), sub-block data in IN
(spec/30_encoding.md R55), the invariant every run keeps (spec/10_state.md R36 and the field rules R16 to R30), the host's
duties (spec/40_host_interface.md R76) and what a safe step is. -/

namespace Sys2Proof.Machine

/-! ### Strings of codes (R101) -/

/-- `Spells r c w`: the string of code `c` over the table of `r` is `w` (R101). -/
inductive Spells (r : LzwRegs) : CodeField → List Byte → Prop where
  | literal (c : CodeField) (h : c.toNat < r.clearCode.toNat) : Spells r c [c.setWidth 8]
  | entry (c : CodeField) (w : List Byte) (hc : r.clearCode.toNat < c.toNat) (hb : c.toNat < 4096)
      (h : Spells r r.prefixTab[c.toNat] w) : Spells r c (w ++ [r.suffixTab[c.toNat]])

/-- The value a chain walk from `c` stands at after `n` replacements, while it stays inside PREFIX (R98). -/
def chainAt (r : LzwRegs) : Nat → CodeField → CodeField
  | 0, c => c
  | n + 1, c => if h : c.toNat < 4096 then chainAt r n r.prefixTab[c.toNat] else c

/-! ### Data in IN (R55) -/

/-- `SubBlocksAt m p q`: from offset `p` the bytes of `m` are sub-blocks and their terminator, which ends before `q`
(R55). -/
inductive SubBlocksAt (m : Space) : Nat → Nat → Prop where
  | terminator (p : Nat) (h : m.read p = 0#8) : SubBlocksAt m p (p + 1)
  | subBlock (p q : Nat) (hl : m.read p ≠ 0#8) (h : SubBlocksAt m (p + 1 + (m.read p).toNat) q) : SubBlocksAt m p q

/-- The unread payload bits the extractor holds, as one number whose bit 0 is the first unread bit (R40): the
accumulator, and above it the bytes of the current chunk not yet taken. -/
def bytesValue : List Byte → Nat
  | [] => 0
  | b :: rest => b.toNat + 256 * bytesValue rest

/-- The bytes of the current chunk the extractor has not taken (R22, R34). -/
def untakenBytes (s : State) : List Byte :=
  (s.reader.chunkBuf.toList.take s.reader.chunkLen.toNat).drop s.reader.chunkPos.toNat

/-- The unread bits at hand (R40, R83). -/
def pendingBits (s : State) : Nat := s.extr.shiftAcc.toNat + 2 ^ s.extr.shiftState.toNat * bytesValue (untakenBytes s)

/-! ### Whose move it is -/

/-- `BlockMoves s s'`: the block moves next in `s`, and moves from `s'`, which is `s` less the turn it takes (R9, R44). -/
inductive BlockMoves (s : State) : State → Prop where
  | inside (h : s.atBoundary = false) : BlockMoves s s
  | noTurns (h : s.agenda = []) : BlockMoves s s
  | itsTurn (rest : List Turn) (hb : s.atBoundary = true) (h : s.agenda = .block :: rest) :
      BlockMoves s { s with agenda := rest }
  | waited (rest : List Turn) (h : s.agenda = .wait :: rest) (hb : s.status.busy = true) : BlockMoves s s

/-- Some number of steps leads from `s` to `t`. -/
def Reaches (s t : State) : Prop := ∃ n, Sys2Proof.core.run n s = .next t

/-! ### The invariant -/

/-- The positions of a DECODE_IMAGE between the acceptance of its minimum code size and its end (R36). -/
def State.decoding (s : State) : Bool :=
  match s.seq with
  | .firstRow | .nextRow | .flush _ | .emit _ _ | .rowLoop | .fetch | .process _ | .startDrain => true
  | .nextChunk k | .payload k => k != .command
  | .finish => s.status.lastCmd == 1#4
  | .idle | .start _ | .copyOut _ | .raising _ => false

/-- A code is fetched and its definition is not yet made (R36(d) "between the processing of two codes" is elsewhere). -/
def Seq.midCode : Seq → Bool
  | .process _ | .flush (.define _ _) | .emit _ (.define _ _) => true
  | _ => false

/-- 1 while a code is processed: its fetch has advanced RUNNING_CODE, its definition is not yet made. -/
def State.codeDebt (s : State) : Nat := if s.seq.midCode then 1 else 0

/-- A row is being decoded (R108). -/
def Seq.inRow : Seq → Bool
  | .nextRow | .flush _ | .emit _ _ | .rowLoop | .fetch | .process _ | .nextChunk .extractor | .payload .extractor => true
  | _ => false

/-- The row being decoded needs a pixel (R108, R109). -/
def Seq.needsPixel : Seq → Bool
  | .emit _ _ | .fetch | .process _ | .nextChunk .extractor | .payload .extractor => true
  | _ => false

/-- The stack is empty (R36(f)): a code fetch runs, a code is about to be processed, or no row has begun. -/
def Seq.needsEmptyStack : Seq → Bool
  | .fetch | .process _ | .nextChunk .extractor | .payload .extractor | .firstRow => true
  | _ => false

/-- How many rows of `row_order` come after (pass, row). -/
def rowsAfter (interlace : Bool) (height pass row : Nat) : Nat :=
  ((rowOrder interlace height).dropWhile (fun x => x != (pass, row))).length - 1

/-- A code the table defines or a literal (R101), while `debt` codes are fetched but not defined. -/
def hasString (r : LzwRegs) (debt : Nat) (c : Nat) : Prop :=
  c < r.clearCode.toNat ∨ r.endCode.toNat < c ∧ c + 2 + debt ≤ r.runningCode.toNat

/-- The errors a DECODE_IMAGE may have pending (R117): the walk errors end none (R102), and the missing
minimum-code-size byte is raised at once. -/
def BlockError.mayPend : BlockError → Bool
  | .noMcsByte | .noLengthInNextChunk | .walkBound _ | .walkRange _ | .walkClear _ => false
  | .defineRange rc => rc.toNat == 4098
  | .noLengthInDrain | .codeAtInputEnd | .codeAtTerminator | .invalidCode _ | .badMcs _ | .prematureEnd _ => true

/-- STATUS and ERR_INFO are consistent with each other and with the sequencer (R16, R18, R35). -/
structure StatusInv (s : State) : Prop where
  busy_iff : s.status.busy = true ↔ s.seq ≠ .idle
  busy_clear : s.status.busy = true → s.status.done = false ∧ s.status.error = false
  not_both : ¬(s.status.done = true ∧ s.status.error = true)
  no_error : s.status.error = false → s.status.err = 0#4 ∧ s.status.errSub = 0#4 ∧ s.status.errValue = 0#13
  error_kind : s.status.error = true → s.status.err ∈ [2#4, 3#4, 5#4, 6#4, 7#4]

/-- LAST_CMD and PHASE are those of the position (R16, R17). -/
structure CommandInv (s : State) : Prop where
  started : ∀ c, s.seq = .start c → s.status.lastCmd = c.code
  decode : s.decoding = true → s.status.lastCmd = 1#4
  next_chunk : (s.seq = .nextChunk .command ∨ s.seq = .payload .command ∨ ∃ i, s.seq = .copyOut i) →
    s.status.lastCmd = 3#4
  finishing : s.seq = .finish → s.status.lastCmd = 1#4 ∨ s.status.lastCmd = 3#4
  raising : ∀ e, s.seq = .raising e →
    (s.status.lastCmd = 1#4 ∧ e.mayPend = true) ∨ (s.status.lastCmd = 3#4 ∧ e = .noLengthInNextChunk)
  row_phase : s.seq = .firstRow ∨ s.seq.inRow = true ∨ s.seq = .startDrain →
    s.status.phase ∈ [.initialized, .streaming, .cleared]
  process_phase : ∀ c, s.seq = .process c → s.status.phase = .streaming
  drain_phase : s.seq = .nextChunk .drain ∨ s.seq = .payload .drain → s.status.phase = .draining
  done_phase : s.seq = .finish → s.status.lastCmd = 1#4 → s.status.phase = .done

/-- The sub-block reader's registers (R22). -/
structure ReaderInv (s : State) : Prop where
  pos_le : s.reader.chunkPos.toNat ≤ s.reader.chunkLen.toNat
  len_le : s.reader.chunkLen.toNat ≤ s.reader.chunkDecl.toNat

/-- R36(a) to (e) and the ranges of R109: the LZW registers and table while a DECODE_IMAGE runs. -/
structure LzwInv (s : State) : Prop where
  depth_range : 1 ≤ s.lzw.depth.toNat ∧ s.lzw.depth.toNat ≤ 8
  clear_eq : s.lzw.clearCode.toNat = 2 ^ s.lzw.depth.toNat
  end_eq : s.lzw.endCode.toNat = s.lzw.clearCode.toNat + 1
  max_eq : s.lzw.maxCode1.toNat = 2 ^ s.lzw.runningBits.toNat
  bits_range : s.lzw.depth.toNat + 1 ≤ s.lzw.runningBits.toNat ∧ s.lzw.runningBits.toNat ≤ 12
  running_low : s.lzw.endCode.toNat + 1 + s.codeDebt ≤ s.lzw.runningCode.toNat
  running_high : s.lzw.runningCode.toNat ≤ 4097 + s.codeDebt
  running_max : s.lzw.runningBits.toNat < 12 → s.lzw.runningCode.toNat ≤ s.lzw.maxCode1.toNat
  defined_iff : ∀ c (h : c < 4096), s.lzw.prefixTab[c] ≠ Config.noSuchCode ↔
    s.lzw.endCode.toNat < c ∧ c + 2 + s.codeDebt ≤ s.lzw.runningCode.toNat
  prefix_lt : ∀ c (h : c < 4096), s.lzw.prefixTab[c] ≠ Config.noSuchCode →
    s.lzw.prefixTab[c].toNat < c ∧ hasString s.lzw s.codeDebt s.lzw.prefixTab[c].toNat
  suffix_lt : ∀ c (h : c < 4096), s.lzw.prefixTab[c] ≠ Config.noSuchCode →
    s.lzw.suffixTab[c].toNat < s.lzw.clearCode.toNat
  prev_none : s.lzw.prevCode = Config.noSuchCode ↔ s.lzw.runningCode.toNat = s.lzw.endCode.toNat + 1 + s.codeDebt
  prev_string : s.lzw.prevCode ≠ Config.noSuchCode → hasString s.lzw s.codeDebt s.lzw.prevCode.toNat
  define_code : ∀ code kw, (s.seq = .flush (.define code kw) ∨ ∃ v, s.seq = .emit v (.define code kw)) →
    s.lzw.prevCode ≠ Config.noSuchCode ∧
      if kw then code.toNat + 2 = s.lzw.runningCode.toNat else hasString s.lzw 1 code.toNat

/-- R36(f), (g) and R109: the stack and the accumulator while a DECODE_IMAGE runs. -/
structure StackInv (s : State) : Prop where
  empty : s.seq.needsEmptyStack = true → s.stk.stackPtr.toNat = 0
  row_end : s.seq = .rowLoop ∨ s.seq = .nextRow → s.stk.stackPtr.toNat = 0 ∨ s.oper.width.toNat ≤ s.rows.col.toNat
  bound : s.stk.stackPtr.toNat ≤ 4098
  pixels : ∀ i (h : i < 4098), i < s.stk.stackPtr.toNat → s.stk.stack[i].toNat < s.lzw.clearCode.toNat
  in_flight : ∀ v k, s.seq = .emit v k → v.toNat < s.lzw.clearCode.toNat
  acc_lt : s.extr.shiftAcc.toNat < 2 ^ s.extr.shiftState.toNat
  held_le : s.extr.shiftState.toNat ≤ 19

/-- The row registers while a DECODE_IMAGE runs (R29, R106 to R109, R36(h)): the row is one of `row_order`, and PIX_REMAIN
counts the pixels of this row and of the rows after it. -/
structure RowInv (s : State) : Prop where
  member : s.seq.inRow = true →
    (s.rows.pass.toNat, s.rows.row.toNat) ∈ rowOrder s.oper.interlace s.oper.height.toNat
  col_le : s.seq.inRow = true → s.rows.col.toNat ≤ s.oper.width.toNat
  col_lt : s.seq.needsPixel = true → s.rows.col.toNat < s.oper.width.toNat
  col_end : s.seq = .nextRow → s.rows.col.toNat = s.oper.width.toNat
  before : s.seq = .firstRow → s.rows.pixRemain.toNat = s.oper.width.toNat * s.oper.height.toNat
  remain : s.seq.inRow = true → s.rows.pixRemain.toNat + s.rows.col.toNat =
    s.oper.width.toNat *
      (1 + rowsAfter s.oper.interlace s.oper.height.toNat s.rows.pass.toNat s.rows.row.toNat)
  drained : s.seq = .startDrain ∨ s.seq = .nextChunk .drain ∨ s.seq = .payload .drain ∨
    (s.seq = .finish ∧ s.status.lastCmd = 1#4) → s.rows.pixRemain.toNat = 0

/-- What every step keeps. -/
structure Inv (s : State) : Prop where
  memory : Memory.wf s
  status : StatusInv s
  command : CommandInv s
  reader : ReaderInv s
  lzw : s.decoding = true → LzwInv s
  stack : s.decoding = true → StackInv s
  rows : s.decoding = true → RowInv s

/-! ### Safety -/

/-- The host keeps the sizes of R38: IN_END within IN, and OUT large enough for the image and for a chunk. -/
def HostSizes (s : State) : Prop :=
  s.oper.inEnd.toNat ≤ s.inSpace.size ∧
    max (s.oper.width.toNat * s.oper.height.toNat) 255 ≤ s.outSpace.size

/-- The host's access of this turn, if it is one, is within the spaces (R37). -/
def HostAccess.inRange (s : State) : HostAccess → Prop
  | .inWrite offset _ | .inRead offset => offset < s.inSpace.size
  | .outWrite offset _ | .outRead offset => offset < s.outSpace.size
  | .regWrite _ _ _ | .regRead _ _ => True

/-- The next turn is not a host access to a byte its space does not have. -/
def TurnInRange (s : State) : Prop := ∀ a rest, s.agenda = .host a :: rest → a.inRange s

/-- A safe step: it is no fault. -/
def SafeStep (s : State) : Prop := ∀ f, step s ≠ .fault f

end Sys2Proof.Machine
end

