-- ==== Sys2Proof/Certificates/Slice0/Obligations.lean ====
section
/-! DEFINITION. The statements for the provers. Each docstring names the rules of spec/ it formalises. -/

open Sys2Proof Sys2Proof.Machine

/-! ### Encoding -/

/-- R53, R54, R56, R57, R61: decoding an encoded well-formed instruction at a slot that can hold it gives it back. -/
def Obligations.DecodeOfEncodeGivesTheInstruction : Prop :=
  ∀ (i : Instr) (slot : Slot), WellFormed i = true → i.readableAt slot = true →
    (∀ cc, slot = .code cc → cc.wf = true) → decode slot (encode i) = .ok i

/-- R53, R57, R58: what the decoder accepts encodes back to the same word, byte or code, ignored bits included. -/
def Obligations.EncodeOfDecodeGivesTheInput : Prop :=
  ∀ (slot : Slot) (input : Encoded) (i : Instr), decode slot input = .ok i → encode i = input

/-- R63: the eight 3-bit codes of DEPTH 2 just after initialisation; and command words of R53 with bits [31:4] zero and
set. -/
def Obligations.DecodesTheWordsOfTheSpec : Prop :=
  (∀ c : Code, c.toNat < 4 → decodeCode freshContext c = .lzwLiteral c) ∧
    decodeCode freshContext 4#12 = .lzwClear 4#12 ∧ decodeCode freshContext 5#12 = .lzwEnd 5#12 ∧
    decodeCode freshContext 6#12 = .lzwInvalid 6#12 ∧ decodeCode freshContext 7#12 = .lzwInvalid 7#12 ∧
    decodeCommand 0x00000001#32 = .decodeImage 0#28 ∧ decodeCommand 0xABCDEF00#32 = .nop 0xABCDEF0#28 ∧
    decodeCommand 0x00000013#32 = .sbNextChunk 1#28 ∧ decodeLength 0#8 = .sbTerminator ∧
    decodeLength 3#8 = .sbLen 3#8

/-- R61: the six classes, each exactly under its condition; with END_CODE = CLEAR_CODE + 1 they cover every code and never
overlap. -/
def Obligations.CodeClassesPartitionTheCodes : Prop :=
  ∀ (cc : CodeContext) (c : Code), cc.wf = true →
    (decodeCode cc c = .lzwEnd c ↔ c.toNat = cc.endCode.toNat) ∧
    (decodeCode cc c = .lzwClear c ↔ c.toNat = cc.clearCode.toNat) ∧
    (decodeCode cc c = .lzwLiteral c ↔ c.toNat < cc.clearCode.toNat) ∧
    (decodeCode cc c = .lzwKnown c ↔ cc.endCode.toNat < c.toNat ∧ cc.prefixTab[c.toNat] ≠ 4098#13) ∧
    (decodeCode cc c = .lzwKwkwk c ↔
      cc.endCode.toNat < c.toNat ∧ cc.prefixTab[c.toNat] = 4098#13 ∧ c.toNat + 2 = cc.runningCode.toNat) ∧
    (decodeCode cc c = .lzwInvalid c ↔
      cc.endCode.toNat < c.toNat ∧ cc.prefixTab[c.toNat] = 4098#13 ∧ c.toNat + 2 ≠ cc.runningCode.toNat) ∧
    decodeCode cc c ∈ [.lzwEnd c, .lzwClear c, .lzwLiteral c, .lzwKnown c, .lzwKwkwk c, .lzwInvalid c]

/-! ### The step -/

/-- A step runs the decoded instruction: a word the host writes to CMD, a fetched code, a length byte (as `next_chunk` or
SB_NEXT_CHUNK's first micro-step reads it) and the minimum-code-size byte. Around `exec` the step removes the turn taken,
advances IN_PTR past a byte read and records the read (R48, R79). DECODE_IMAGE's first micro-step also makes the assignments
that R75 lists before `read_mcs_and_init`. -/
def Obligations.StepRunsTheDecodedInstruction : Prop :=
  (∀ (s : State) (w : Word) (rest : List Turn), s.atBoundary = true → s.agenda = .host (.regWrite 32 0 w) :: rest →
    step s = exec (decodeCommand w) { s with agenda := rest }) ∧
  (∀ (s s' : State) (c : Code), BlockMoves s s' → s'.seq = .process c →
    step s = exec (decodeCode s'.codeContext c) s') ∧
  (∀ (s s' : State) (k : ChunkCaller), BlockMoves s s' → s'.seq = .nextChunk k → s'.reader.sbTerm = false →
    s'.oper.inPtr.toNat < s'.oper.inEnd.toNat → s'.oper.inPtr.toNat < s'.inSpace.size →
    step s = exec (decodeLength (s'.inSpace.read s'.oper.inPtr.toNat)) (afterRead s')) ∧
  (∀ (s s' : State), BlockMoves s s' → s'.seq = .start .sbNextChunk → s'.reader.sbTerm = false →
    s'.oper.inPtr.toNat < s'.oper.inEnd.toNat → s'.oper.inPtr.toNat < s'.inSpace.size →
    step s = exec (decodeLength (s'.inSpace.read s'.oper.inPtr.toNat))
      (afterRead { s' with seq := .nextChunk .command })) ∧
  (∀ (s s' : State), BlockMoves s s' → s'.seq = .start .decodeImage →
    s'.oper.inPtr.toNat < s'.oper.inEnd.toNat → s'.oper.inPtr.toNat < s'.inSpace.size →
    step s = exec (.mcs (s'.inSpace.read s'.oper.inPtr.toNat)) (afterRead
      { s' with
        reader :=
          { sbTerm := false, sbShort := false, chunkLen := 0#8, chunkDecl := 0#8, chunkPos := 0#8,
            chunkBuf := s'.reader.chunkBuf }
        stk := { s'.stk with stackPtr := 0#13 }
        extr := { shiftAcc := 0#32, shiftState := 0#6, curCode := 0#13 }
        rows := { row := 0#16, pass := 0#2, col := 0#16, pixRemain := 0#32 }
        status := { s'.status with phase := .initialized } }))

/-- R126: an idle block does nothing and all its state persists; that the machine then steps to the same state is the model's
choice (log entry 19). -/
def Obligations.IdleBlockDoesNothing : Prop :=
  ∀ s : State, s.seq = .idle → s.agenda = [] → step s = .next s

/-! ### Commands -/

/-- R70, R53, R17, R82: while BUSY = 0, each of the four command words is accepted, whatever its ignored bits: the status
fields as R70 lists them, PHASE INITIALIZED for DECODE_IMAGE (R17), SB_TERM 0 for SB_OPEN (R82), the sequencer at the
command's start, and nothing else changed. R70's list names neither PHASE nor SB_TERM: that both are written at the
acceptance is the reading of log entries 7 and 8. -/
def Obligations.CommandsAreAcceptedWhenIdle : Prop :=
  ∀ (s : State) (g : BitVec 28), s.status.busy = false →
    ∀ (i : Instr) (c : Command) (n : BitVec 4),
      (i, c, n) ∈ [(Instr.nop g, Command.nop, 0#4), (Instr.decodeImage g, Command.decodeImage, 1#4),
        (Instr.sbOpen g, Command.sbOpen, 2#4), (Instr.sbNextChunk g, Command.sbNextChunk, 3#4)] →
      exec i s = .next
        { s with
          status :=
            { busy := true, done := false, error := false, badCmd := false, err := 0#4,
              phase := if c = .decodeImage then .initialized else s.status.phase,
              lastCmd := n, errValue := 0#13, errSub := 0#4 }
          reader := { s.reader with sbTerm := if c = .sbOpen then false else s.reader.sbTerm }
          seq := .start c }

/-- R70: a write of v to CMD is rejected while BUSY = 1 or when v[3:0] ≥ 4: BADCMD is set and nothing else changes. Otherwise
it is accepted: BUSY is set, DONE, ERROR, BADCMD, ERR and ERR_INFO are cleared, LAST_CMD is v[3:0] and the sequencer stands
at the start of that command. -/
def Obligations.CmdWritesAreAcceptedOrRejected : Prop :=
  ∀ (s : State) (w : Word),
    ((s.status.busy = true ∨ 4 ≤ w.toNat % 16) →
      exec (decodeCommand w) s = .next { s with status := { s.status with badCmd := true } }) ∧
    (s.status.busy = false → ∀ c : Command, w.toNat % 16 = c.code.toNat →
      ∃ t, exec (decodeCommand w) s = .next t ∧ t.status.busy = true ∧ t.status.done = false ∧ t.status.error = false ∧
        t.status.badCmd = false ∧ t.status.err = 0#4 ∧ t.status.errValue = 0#13 ∧ t.status.errSub = 0#4 ∧
        t.status.lastCmd.toNat = w.toNat % 16 ∧ t.seq = .start c)

/-- R54, R70: each reserved code is rejected whatever BUSY is: BADCMD is set, no command starts and nothing else
changes. -/
def Obligations.ReservedCodesAreRejected : Prop :=
  ∀ (s : State) (g : BitVec 28),
    ∀ i ∈ [Instr.reserved4 g, .reserved5 g, .reserved6 g, .reserved7 g, .reserved8 g, .reserved9 g, .reservedA g,
      .reservedB g, .reservedC g, .reservedD g, .reservedE g, .reservedF g],
      exec i s = .next { s with status := { s.status with badCmd := true } }

/-- R72: NOP's pseudocode is `finish_ok`, one micro-step after its acceptance; it clears a sticky error and touches no
register but the status fields. -/
def Obligations.NopEndsAndClearsTheError : Prop :=
  ∀ (s : State) (g : BitVec 28), s.status.busy = false → s.agenda = [] →
    ∃ t, exec (.nop g) s = .next t ∧ step t = .next
      { s with
        status :=
          { busy := false, done := true, error := false, badCmd := false, err := 0#4, phase := s.status.phase,
            lastCmd := 0#4, errValue := 0#13, errSub := 0#4 }
        seq := .idle }

/-- R73: SB_OPEN, through the one micro-step after its acceptance, clears SB_TERM, SB_SHORT and CHUNK and ends with DONE; it
reads no byte and changes nothing else. -/
def Obligations.SbOpenResetsTheReader : Prop :=
  ∀ (s : State) (g : BitVec 28), s.status.busy = false → s.agenda = [] →
    ∃ t, exec (.sbOpen g) s = .next t ∧ step t = .next
      { s with
        status :=
          { busy := false, done := true, error := false, badCmd := false, err := 0#4, phase := s.status.phase,
            lastCmd := 2#4, errValue := 0#13, errSub := 0#4 }
        reader :=
          { sbTerm := false, sbShort := false, chunkLen := 0#8, chunkDecl := 0#8, chunkPos := 0#8,
            chunkBuf := s.reader.chunkBuf }
        seq := .idle }

/-- R74, R80, R82: in the terminal state SB_NEXT_CHUNK ends at once with DONE and reads nothing; and when the input is at
end where a length byte should be, it ends at once with UnexpectedEnd 3 (R115, R116). -/
def Obligations.SbNextChunkEndsAtOnceWithoutAByte : Prop :=
  ∀ (s : State) (g : BitVec 28), s.status.busy = false → s.agenda = [] →
    (s.reader.sbTerm = true → ∃ t, exec (.sbNextChunk g) s = .next t ∧ step t = .next
      { s with
        status :=
          { busy := false, done := true, error := false, badCmd := false, err := 0#4, phase := s.status.phase,
            lastCmd := 3#4, errValue := 0#13, errSub := 0#4 }
        seq := .idle }) ∧
    (s.reader.sbTerm = false → s.oper.inEnd.toNat ≤ s.oper.inPtr.toNat →
      ∃ t, exec (.sbNextChunk g) s = .next t ∧ step t = .next
        { s with
          status :=
            { busy := false, done := false, error := true, badCmd := false, err := 2#4, phase := s.status.phase,
              lastCmd := 3#4, errValue := 0#13, errSub := 3#4 }
          seq := .idle })

/-- R74, R80, R81: SB_NEXT_CHUNK at a length byte L reads k payload bytes, L of them or as many as the input has, copies
them to OUT at offsets 0 to k−1, and ends with DONE, SB_SHORT telling whether k < L. Nothing else changes. The history gains
the length byte's read, then the k reads and then the k writes, each offset once and in rising order (R39); that the
history's list is newest first is the model's choice (log entry 15). -/
def Obligations.SbNextChunkCopiesTheChunk : Prop :=
  ∀ (s : State) (g : BitVec 28) (L k : Nat), s.status.busy = false → s.agenda = [] → Memory.wf s →
    s.reader.sbTerm = false → s.oper.inPtr.toNat < s.oper.inEnd.toNat → s.oper.inEnd.toNat ≤ s.inSpace.size →
    L = (s.inSpace.read s.oper.inPtr.toNat).toNat → 0 < L →
    k = min L (s.oper.inEnd.toNat - (s.oper.inPtr.toNat + 1)) → k ≤ s.outSpace.size →
    ∃ u t, exec (.sbNextChunk g) s = .next u ∧ Reaches u t ∧
      t.seq = .idle ∧
      t.status =
        { busy := false, done := true, error := false, badCmd := false, err := 0#4, phase := s.status.phase,
          lastCmd := 3#4, errValue := 0#13, errSub := 0#4 } ∧
      (∀ i, i < k → t.outSpace.read i = s.inSpace.read (s.oper.inPtr.toNat + 1 + i)) ∧
      (∀ a, k ≤ a → t.outSpace.read a = s.outSpace.read a) ∧
      t.oper = { s.oper with inPtr := s.oper.inPtr + 1#32 + BitVec.ofNat 32 k } ∧
      t.reader.sbTerm = false ∧ (t.reader.sbShort = true ↔ k < L) ∧
      t.reader.chunkLen.toNat = k ∧ t.reader.chunkDecl.toNat = L ∧ t.reader.chunkPos.toNat = k ∧
      t.history =
        ((List.range k).map fun i => Access.outWrite i (s.inSpace.read (s.oper.inPtr.toNat + 1 + i))).reverse ++
          ((List.range k).map fun i =>
            Access.inRead (s.oper.inPtr.toNat + 1 + i) (s.inSpace.read (s.oper.inPtr.toNat + 1 + i))).reverse ++
          Access.inRead s.oper.inPtr.toNat (s.inSpace.read s.oper.inPtr.toNat) :: s.history ∧
      t.extr = s.extr ∧ t.lzw = s.lzw ∧ t.stk = s.stk ∧ t.rows = s.rows ∧ t.inSpace = s.inSpace ∧
      t.outSpace.size = s.outSpace.size ∧ t.agenda = [] ∧ t.observations = s.observations

/-- R74, R80, R82: SB_NEXT_CHUNK at the terminator enters the terminal state and ends with DONE, one byte read, OUT not
written. -/
def Obligations.SbNextChunkReadsTheTerminator : Prop :=
  ∀ (s : State) (g : BitVec 28), s.status.busy = false → s.agenda = [] → s.reader.sbTerm = false →
    s.oper.inPtr.toNat < s.oper.inEnd.toNat → s.oper.inPtr.toNat < s.inSpace.size →
    s.inSpace.read s.oper.inPtr.toNat = 0#8 →
    ∃ u t, exec (.sbNextChunk g) s = .next u ∧ Reaches u t ∧ t =
      { s with
        status :=
          { busy := false, done := true, error := false, badCmd := false, err := 0#4, phase := s.status.phase,
            lastCmd := 3#4, errValue := 0#13, errSub := 0#4 }
        reader :=
          { sbTerm := true, sbShort := false, chunkLen := 0#8, chunkDecl := 0#8, chunkPos := 0#8,
            chunkBuf := s.reader.chunkBuf }
        oper := { s.oper with inPtr := s.oper.inPtr + 1#32 }
        history := .inRead s.oper.inPtr.toNat 0#8 :: s.history
        seq := .idle }

/-- R75, R88, R115, R116: a DECODE_IMAGE whose input is at end ends in its first micro-step with UnexpectedEnd 1; one whose
minimum code size is outside 1..8 reads it and ends with CorruptTable 1, DEPTH, CLEAR_CODE and END_CODE keeping their
values. In both, the first micro-step has cleared SB_TERM, SB_SHORT, CHUNK, STACK_PTR, SHIFT_ACC, SHIFT_STATE, CUR_CODE,
ROW, PASS, COL and PIX_REMAIN: no pixel is counted, as R75's pseudocode has it and R113's words do not (log entry 23).
Nothing else changes; OUT is not written. -/
def Obligations.DecodeImageRejectsABadStart : Prop :=
  ∀ (s : State) (g : BitVec 28), s.status.busy = false → s.agenda = [] →
    (s.oper.inEnd.toNat ≤ s.oper.inPtr.toNat → ∃ u, exec (.decodeImage g) s = .next u ∧ step u = .next
      { s with
        status :=
          { busy := false, done := false, error := true, badCmd := false, err := 2#4, phase := .failed, lastCmd := 1#4,
            errValue := 0#13, errSub := 1#4 }
        reader :=
          { sbTerm := false, sbShort := false, chunkLen := 0#8, chunkDecl := 0#8, chunkPos := 0#8,
            chunkBuf := s.reader.chunkBuf }
        stk := { s.stk with stackPtr := 0#13 }
        extr := { shiftAcc := 0#32, shiftState := 0#6, curCode := 0#13 }
        rows := { row := 0#16, pass := 0#2, col := 0#16, pixRemain := 0#32 }
        seq := .idle }) ∧
    (∀ m : Byte, s.oper.inPtr.toNat < s.oper.inEnd.toNat → s.oper.inPtr.toNat < s.inSpace.size →
      s.inSpace.read s.oper.inPtr.toNat = m → (m.toNat < 1 ∨ 8 < m.toNat) →
      ∃ u t, exec (.decodeImage g) s = .next u ∧ Reaches u t ∧ t =
        { s with
          status :=
            { busy := false, done := false, error := true, badCmd := false, err := 6#4, phase := .failed,
              lastCmd := 1#4, errValue := m.setWidth 13, errSub := 1#4 }
          reader :=
            { sbTerm := false, sbShort := false, chunkLen := 0#8, chunkDecl := 0#8, chunkPos := 0#8,
              chunkBuf := s.reader.chunkBuf }
          stk := { s.stk with stackPtr := 0#13 }
          extr := { shiftAcc := 0#32, shiftState := 0#6, curCode := 0#13 }
          rows := { row := 0#16, pass := 0#2, col := 0#16, pixRemain := 0#32 }
          lzw := { s.lzw with mcs := m }
          oper := { s.oper with inPtr := s.oper.inPtr + 1#32 }
          history := .inRead s.oper.inPtr.toNat m :: s.history
          seq := .idle })

/-- The frame of the command words (R53, R70): when `exec` gives a next state, only STATUS, ERR_INFO and the sequencer
position may differ; every byte of IN and OUT reads as before. PHASE becomes INITIALIZED when a DECODE_IMAGE is accepted
(R17) and SB_TERM 0 when an SB_OPEN is (R82), and neither changes otherwise; R70's list names neither (log entries 7 and
8). -/
def Obligations.CommandWordsKeepTheRest : Prop :=
  ∀ (w : Word) (s t : State), exec (decodeCommand w) s = .next t →
    t.oper = s.oper ∧ t.reader = { s.reader with sbTerm := t.reader.sbTerm } ∧ t.extr = s.extr ∧ t.lzw = s.lzw ∧
    t.stk = s.stk ∧ t.rows = s.rows ∧
    t.status.phase = (if s.status.busy = false ∧ w.toNat % 16 = 1 then .initialized else s.status.phase) ∧
    t.reader.sbTerm = (if s.status.busy = false ∧ w.toNat % 16 = 2 then false else s.reader.sbTerm) ∧
    (∀ a, t.inSpace.read a = s.inSpace.read a) ∧
    (∀ a, t.outSpace.read a = s.outSpace.read a) ∧ t.inSpace.size = s.inSpace.size ∧
    t.outSpace.size = s.outSpace.size ∧ t.history = s.history ∧ t.agenda = s.agenda ∧
    t.observations = s.observations ∧ t.freeCount = s.freeCount

/-! ### Register accesses of the host -/

/-- R19, R20, R21, R68: while BUSY = 0, a host write to an operand register reads back (MODE only in bit 0); a write to any
other offset but CMD's is ignored; every other register word reads as before, and so does memory. -/
def Obligations.OperandWritesReadBackWhenIdle : Prop :=
  ∀ (s : State) (off : Nat) (v : Word) (rest : List Turn), s.atBoundary = true → s.status.busy = false →
    off % 4 = 0 → off < 256 → off ≠ 0 → s.agenda = .host (.regWrite 32 off v) :: rest →
    ∃ t, step s = .next t ∧ t.agenda = rest ∧
      regWord t off =
        (if off = 0x0C ∨ off = 0x14 ∨ off = 0x18 then v else if off = 0x10 then v &&& 1#32 else regWord s off) ∧
      (∀ other, other ≠ off → regWord t other = regWord s other) ∧
      t = { s with oper := t.oper, agenda := rest }

/-- R69, R70: while BUSY = 1, a host write to any offset but CMD's changes no state at all, and one to CMD only sets
BADCMD. -/
def Obligations.HostWritesAreIgnoredWhileBusy : Prop :=
  ∀ (s : State) (off : Nat) (v : Word) (rest : List Turn), s.atBoundary = true → s.status.busy = true →
    off % 4 = 0 → off < 256 → s.agenda = .host (.regWrite 32 off v) :: rest →
    step s = .next
      { s with
        status := if off = 0 then { s.status with badCmd := true } else s.status
        agenda := rest }

/-- R45, R67: a host read of a register returns its word and has no other effect; CMD and the reserved offsets read 0. What
a read returned is kept in the model's own list (log entry 15). -/
def Obligations.HostReadsHaveNoSideEffect : Prop :=
  ∀ (s : State) (off : Nat) (rest : List Turn), s.atBoundary = true → off % 4 = 0 → off < 256 →
    s.agenda = .host (.regRead 32 off) :: rest →
    step s = .next { s with agenda := rest, observations := .reg off (regWord s off) :: s.observations } ∧
      ((off = 0 ∨ 0x4C ≤ off) → regWord s off = 0#32)

/-- R43: a host register access that is not 32 bits wide at a multiple of 4 is refused. -/
def Obligations.PartialRegisterAccessesAreRefused : Prop :=
  ∀ (s : State) (width off : Nat) (v : Word) (rest : List Turn), s.atBoundary = true →
    (width ≠ 32 ∨ off % 4 ≠ 0) →
    (s.agenda = .host (.regWrite width off v) :: rest ∨ s.agenda = .host (.regRead width off) :: rest) →
    step s = .refused (.regAccessNotWhole width off)

/-- R14, R17: every field of the register map stands at its bits; PHASE holds 0 NONE, 1 INITIALIZED, 2 STREAMING, 3 CLEARED,
4 DRAINING, 5 DONE, 6 FAILED. -/
def Obligations.RegisterMapPlacesTheFields : Prop :=
  ∀ s : State,
    (regWord s 0x04).getLsbD 0 = s.status.busy ∧ (regWord s 0x04).getLsbD 1 = s.status.done ∧
    (regWord s 0x04).getLsbD 2 = s.status.error ∧ (regWord s 0x04).getLsbD 3 = s.status.badCmd ∧
    (regWord s 0x04).getLsbD 4 = s.reader.sbTerm ∧ (regWord s 0x04).getLsbD 5 = s.reader.sbShort ∧
    (regWord s 0x04).extractLsb' 6 2 = 0#2 ∧ (regWord s 0x04).extractLsb' 8 4 = s.status.err ∧
    ((regWord s 0x04).extractLsb' 12 3 = match s.status.phase with
      | .none => 0#3
      | .initialized => 1#3
      | .streaming => 2#3
      | .cleared => 3#3
      | .draining => 4#3
      | .done => 5#3
      | .failed => 6#3) ∧
    (regWord s 0x04).getLsbD 15 = false ∧
    (regWord s 0x04).extractLsb' 16 4 = s.status.lastCmd ∧ (regWord s 0x04).extractLsb' 20 12 = 0#12 ∧
    (regWord s 0x08).extractLsb' 0 13 = s.status.errValue ∧ (regWord s 0x08).extractLsb' 16 4 = s.status.errSub ∧
    (regWord s 0x08).extractLsb' 13 3 = 0#3 ∧ (regWord s 0x08).extractLsb' 20 12 = 0#12 ∧
    (regWord s 0x0C).extractLsb' 0 16 = s.oper.width ∧ (regWord s 0x0C).extractLsb' 16 16 = s.oper.height ∧
    (regWord s 0x10).getLsbD 0 = s.oper.interlace ∧ (regWord s 0x10).extractLsb' 1 31 = 0#31 ∧
    regWord s 0x14 = s.oper.inPtr ∧ regWord s 0x18 = s.oper.inEnd ∧
    (regWord s 0x1C).extractLsb' 0 8 = s.reader.chunkLen ∧ (regWord s 0x1C).extractLsb' 8 8 = s.reader.chunkDecl ∧
    (regWord s 0x1C).extractLsb' 16 8 = s.reader.chunkPos ∧ (regWord s 0x1C).extractLsb' 24 8 = 0#8 ∧
    (regWord s 0x20).extractLsb' 0 8 = s.lzw.mcs ∧ (regWord s 0x20).extractLsb' 8 4 = s.lzw.depth ∧
    (regWord s 0x20).extractLsb' 12 20 = 0#20 ∧ (regWord s 0x24).extractLsb' 0 13 = s.lzw.clearCode ∧
    (regWord s 0x24).extractLsb' 16 13 = s.lzw.endCode ∧ (regWord s 0x28).extractLsb' 0 13 = s.lzw.runningCode ∧
    (regWord s 0x28).extractLsb' 16 4 = s.lzw.runningBits ∧ (regWord s 0x2C).extractLsb' 0 13 = s.lzw.maxCode1 ∧
    (regWord s 0x30).extractLsb' 0 13 = s.lzw.prevCode ∧ (regWord s 0x30).extractLsb' 16 13 = s.extr.curCode ∧
    (regWord s 0x34).extractLsb' 0 13 = s.stk.stackPtr ∧ regWord s 0x38 = s.extr.shiftAcc ∧
    (regWord s 0x3C).extractLsb' 0 6 = s.extr.shiftState ∧ (regWord s 0x40).extractLsb' 0 16 = s.rows.row ∧
    (regWord s 0x40).extractLsb' 16 2 = s.rows.pass ∧ (regWord s 0x44).extractLsb' 0 16 = s.rows.col ∧
    regWord s 0x48 = s.rows.pixRemain ∧
    (regWord s 0x24).extractLsb' 13 3 = 0#3 ∧ (regWord s 0x24).extractLsb' 29 3 = 0#3 ∧
    (regWord s 0x28).extractLsb' 13 3 = 0#3 ∧ (regWord s 0x28).extractLsb' 20 12 = 0#12 ∧
    (regWord s 0x2C).extractLsb' 13 19 = 0#19 ∧ (regWord s 0x30).extractLsb' 13 3 = 0#3 ∧
    (regWord s 0x30).extractLsb' 29 3 = 0#3 ∧ (regWord s 0x34).extractLsb' 13 19 = 0#19 ∧
    (regWord s 0x3C).extractLsb' 6 26 = 0#26 ∧ (regWord s 0x40).extractLsb' 18 14 = 0#14 ∧
    (regWord s 0x44).extractLsb' 16 16 = 0#16 ∧
    (∀ off, off = 0 ∨ 0x4C ≤ off → regWord s off = 0#32)

/-! ### Reset -/

/-- R127: after reset every register reads 0, and the block is idle (R130). -/
def Obligations.EveryRegisterReadsZeroAfterReset : Prop :=
  (∀ off : Nat, regWord State.reset off = 0#32) ∧ State.reset.seq = .idle

/-- R127, R128, R129: a reset at any micro-step boundary abandons the running command, makes every register read 0 and
leaves IN, OUT and the accesses already made; the arrays then hold any values, of which nothing is said. That the agenda's
later turns stay is the model's choice (log entry 21). -/
def Obligations.ResetAbandonsTheCommand : Prop :=
  ∀ (s : State) (rest : List Turn), s.atBoundary = true → s.agenda = .reset :: rest →
    ∃ t, step s = .next t ∧ (∀ off : Nat, regWord t off = 0#32) ∧ t.seq = .idle ∧ t.inSpace = s.inSpace ∧
      t.outSpace = s.outSpace ∧ t.history = s.history ∧ t.agenda = rest

/-! ### Stream bytes -/

/-- R88, R89, R75: a legal minimum code size m sets DEPTH, CLEAR_CODE = 2^m, END_CODE = 2^m + 1, RUNNING_CODE = END_CODE + 1,
RUNNING_BITS = m + 1, MAX_CODE1 = 2^(m+1), PREV_CODE and all of PREFIX to NO_SUCH_CODE, PIX_REMAIN to WIDTH * HEIGHT; SUFFIX
and everything else is kept. -/
def Obligations.LegalMcsInitialisesTheDecoder : Prop :=
  ∀ (s : State) (m : Byte), 1 ≤ m.toNat → m.toNat ≤ 8 → ∃ t, exec (.mcs m) s = .next t ∧
    t.lzw.mcs = m ∧ t.lzw.depth.toNat = m.toNat ∧ t.lzw.clearCode.toNat = 2 ^ m.toNat ∧
    t.lzw.endCode.toNat = 2 ^ m.toNat + 1 ∧ t.lzw.runningCode.toNat = 2 ^ m.toNat + 2 ∧
    t.lzw.runningBits.toNat = m.toNat + 1 ∧ t.lzw.maxCode1.toNat = 2 ^ (m.toNat + 1) ∧ t.lzw.prevCode = 4098#13 ∧
    (∀ c (h : c < 4096), t.lzw.prefixTab[c] = 4098#13) ∧ t.lzw.suffixTab = s.lzw.suffixTab ∧
    t.rows.pixRemain.toNat = s.oper.width.toNat * s.oper.height.toNat ∧
    t = { s with lzw := t.lzw, rows := { s.rows with pixRemain := t.rows.pixRemain }, seq := .firstRow }

/-- R56, R88: a minimum code size outside 1..8 is recorded in MCS and leaves CorruptTable 1 to be raised, in a step of its
own (log entry 9); every other register is kept. -/
def Obligations.IllegalMcsLeavesTheRegisters : Prop :=
  ∀ (s : State) (m : Byte), m.toNat < 1 ∨ 8 < m.toNat →
    exec (.mcs m) s = .next { s with lzw := { s.lzw with mcs := m }, seq := .raising (.badMcs m) }

/-- R57, R80: a length byte announces its payload: CHUNK_DECL is the byte, CHUNK_LEN, CHUNK_POS and SB_SHORT are 0, and the
payload loop of the same caller follows; everything else is kept. -/
def Obligations.LengthByteAnnouncesThePayload : Prop :=
  ∀ (s : State) (k : ChunkCaller) (len : Byte), len ≠ 0#8 → s.seq = .nextChunk k →
    exec (.sbLen len) s = .next
      { s with
        reader :=
          { sbTerm := s.reader.sbTerm, sbShort := false, chunkLen := 0#8, chunkDecl := len, chunkPos := 0#8,
            chunkBuf := s.reader.chunkBuf }
        seq := .payload k }

/-- R57, R80, R82 with R74, R84 and R111: the terminator puts the reader in its terminal state with CHUNK 0; then
SB_NEXT_CHUNK ends, the extractor has TruncatedStream 2 to raise, in a step of its own (log entry 9), and a decode that
drained is DONE; everything else is kept. -/
def Obligations.TerminatorEntersTheTerminalState : Prop :=
  ∀ (s : State) (k : ChunkCaller), s.seq = .nextChunk k →
    exec .sbTerminator s = .next
      { s with
        reader :=
          { sbTerm := true, sbShort := false, chunkLen := 0#8, chunkDecl := 0#8, chunkPos := 0#8,
            chunkBuf := s.reader.chunkBuf }
        status := if k = .drain then { s.status with phase := .done } else s.status
        seq := if k = .extractor then .raising .codeAtTerminator else .finish }

/-- R80, R81: in the payload loop the block reads the next byte into CHUNK_BUF[CHUNK_LEN]; when the input is at end first,
the chunk is returned short: SB_SHORT = 1; and when CHUNK_LEN has reached CHUNK_DECL, the whole chunk is returned. A return
makes no access: SB_NEXT_CHUNK copies the chunk (R74), the extractor goes on (R84), the drain calls `next_chunk` again
(R111). -/
def Obligations.PayloadLoopReadsOrReturnsShort : Prop :=
  ∀ (s s' : State) (k : ChunkCaller), BlockMoves s s' → s'.seq = .payload k →
    (s'.reader.chunkLen.toNat < s'.reader.chunkDecl.toNat → s'.oper.inPtr.toNat < s'.oper.inEnd.toNat →
      s'.oper.inPtr.toNat < s'.inSpace.size → ∃ t, step s = .next t ∧
      t.reader.chunkLen.toNat = s'.reader.chunkLen.toNat + 1 ∧
      (∀ i (h : i < 255), t.reader.chunkBuf[i] =
        if i = s'.reader.chunkLen.toNat then s'.inSpace.read s'.oper.inPtr.toNat else s'.reader.chunkBuf[i]) ∧
      t = { s' with
        reader := { s'.reader with chunkLen := t.reader.chunkLen, chunkBuf := t.reader.chunkBuf }
        oper := { s'.oper with inPtr := s'.oper.inPtr + 1#32 }
        history := .inRead s'.oper.inPtr.toNat (s'.inSpace.read s'.oper.inPtr.toNat) :: s'.history }) ∧
    (s'.reader.chunkLen.toNat < s'.reader.chunkDecl.toNat → s'.oper.inEnd.toNat ≤ s'.oper.inPtr.toNat →
      step s = .next
        { s' with
          reader := { s'.reader with sbShort := true }
          seq := match k with | .command => .copyOut 0 | .extractor => .fetch | .drain => .nextChunk .drain }) ∧
    (s'.reader.chunkDecl.toNat ≤ s'.reader.chunkLen.toNat → step s = .next
      { s' with
        seq := match k with | .command => .copyOut 0 | .extractor => .fetch | .drain => .nextChunk .drain })

/-- R79, R84, R111, R115: where a length byte should be and the input is at end, or the reader is terminal, nothing is
read: the extractor has TruncatedStream 1 or 2 to raise; the drain has UnexpectedEnd 2, or is over. A raise is a step of its
own (log entry 9). -/
def Obligations.NextChunkWithoutAByte : Prop :=
  ∀ (s s' : State) (k : ChunkCaller), BlockMoves s s' → s'.seq = .nextChunk k →
    (s'.reader.sbTerm = true → step s = .next
      { s' with
        status := if k = .drain then { s'.status with phase := .done } else s'.status
        seq := if k = .extractor then .raising .codeAtTerminator else .finish }) ∧
    (s'.reader.sbTerm = false → s'.oper.inEnd.toNat ≤ s'.oper.inPtr.toNat → step s = .next
      { s' with
        seq := match k with
          | .command => .raising .noLengthInNextChunk
          | .extractor => .raising .codeAtInputEnd
          | .drain => .raising .noLengthInDrain })

/-- The frame of the stream bytes (R80, R88): when `exec` gives a next state, MCS changes only the LZW registers and
PIX_REMAIN, SB_LEN and SB_TERMINATOR only the sub-block reader and PHASE; the sequencer moves; every byte of IN and
OUT reads as before. -/
def Obligations.StreamBytesKeepTheRest : Prop :=
  ∀ (s t : State) (b : Byte),
    (exec (.mcs b) s = .next t → t.reader = s.reader ∧ t.status = s.status ∧ t.rows.row = s.rows.row ∧
      t.rows.pass = s.rows.pass ∧ t.rows.col = s.rows.col ∧ t.lzw.suffixTab = s.lzw.suffixTab) ∧
    (exec (.sbLen b) s = .next t ∨ exec .sbTerminator s = .next t → t.lzw = s.lzw ∧ t.rows = s.rows ∧
      t.status = { s.status with phase := t.status.phase } ∧ t.reader.chunkBuf = s.reader.chunkBuf) ∧
    (exec (.mcs b) s = .next t ∨ exec (.sbLen b) s = .next t ∨ exec .sbTerminator s = .next t →
      t.oper = s.oper ∧ t.extr = s.extr ∧ t.stk = s.stk ∧ (∀ a, t.inSpace.read a = s.inSpace.read a) ∧
      (∀ a, t.outSpace.read a = s.outSpace.read a) ∧ t.inSpace.size = s.inSpace.size ∧
      t.outSpace.size = s.outSpace.size ∧ t.history = s.history ∧ t.agenda = s.agenda ∧
      t.observations = s.observations)

/-! ### The extractor -/

/-- R83, R90: when the accumulator holds a whole code, the fetch takes its low RUNNING_BITS bits, shifts them out, records
the code in CUR_CODE, adds 1 to RUNNING_CODE and grows the width when RUNNING_CODE passes MAX_CODE1 below 12 bits;
PHASE becomes STREAMING and nothing else changes. -/
def Obligations.FetchTakesTheCodeAndGrowsTheWidth : Prop :=
  ∀ (s s' : State), BlockMoves s s' → s'.seq = .fetch → 2 ≤ s'.lzw.runningBits.toNat →
    s'.lzw.runningBits.toNat ≤ 12 → s'.lzw.maxCode1.toNat = 2 ^ s'.lzw.runningBits.toNat →
    s'.lzw.runningCode.toNat ≤ 4097 → s'.lzw.runningBits.toNat ≤ s'.extr.shiftState.toNat →
    ∃ (t : State) (c : Code), step s = .next t ∧ t.seq = .process c ∧
      c.toNat = s'.extr.shiftAcc.toNat % 2 ^ s'.lzw.runningBits.toNat ∧
      t.extr.curCode.toNat = c.toNat ∧
      t.extr.shiftAcc.toNat = s'.extr.shiftAcc.toNat / 2 ^ s'.lzw.runningBits.toNat ∧
      t.extr.shiftState.toNat = s'.extr.shiftState.toNat - s'.lzw.runningBits.toNat ∧
      t.lzw.runningCode.toNat = s'.lzw.runningCode.toNat + 1 ∧
      (if s'.lzw.maxCode1.toNat < s'.lzw.runningCode.toNat + 1 ∧ s'.lzw.runningBits.toNat < 12 then
        t.lzw.maxCode1.toNat = 2 * s'.lzw.maxCode1.toNat ∧ t.lzw.runningBits.toNat = s'.lzw.runningBits.toNat + 1
      else t.lzw.maxCode1 = s'.lzw.maxCode1 ∧ t.lzw.runningBits = s'.lzw.runningBits) ∧
      t = { s' with
        extr := t.extr
        lzw := { s'.lzw with
          runningCode := t.lzw.runningCode, maxCode1 := t.lzw.maxCode1, runningBits := t.lzw.runningBits }
        status := { s'.status with phase := .streaming }
        seq := .process c }

/-- R40, R83, R84: codes are packed least significant bit first. Taking a byte of the chunk leaves the unread bits as they
were; taking a code of width w takes exactly the w lowest of them. -/
def Obligations.CodesAreTakenLowestBitFirst : Prop :=
  ∀ (s s' t : State), BlockMoves s s' → s'.seq = .fetch → s'.lzw.runningBits.toNat ≤ 12 →
    s'.extr.shiftState.toNat ≤ 19 → s'.extr.shiftAcc.toNat < 2 ^ s'.extr.shiftState.toNat →
    s'.reader.chunkPos.toNat ≤ s'.reader.chunkLen.toNat → step s = .next t →
    (s'.extr.shiftState.toNat < s'.lzw.runningBits.toNat → pendingBits t = pendingBits s') ∧
    (s'.lzw.runningBits.toNat ≤ s'.extr.shiftState.toNat → ∃ c : Code, t.seq = .process c ∧
      pendingBits s' = c.toNat + 2 ^ s'.lzw.runningBits.toNat * pendingBits t)

/-- R60: the width schedule. After a table reset and k fetches RUNNING_BITS is the width of code k. -/
def Obligations.WidthScheduleFollowsTheFormula : Prop :=
  ∀ (r : LzwRegs) (k : Nat), 1 ≤ r.depth.toNat → r.depth.toNat ≤ 8 →
    r.endCode.toNat = 2 ^ r.depth.toNat + 1 → 2 ^ r.depth.toNat + 2 + k ≤ 4097 →
    (advanceRunning^[k] (resetTable r)).runningBits.toNat =
      min 12 (max (r.depth.toNat + 1) (Nat.clog 2 (2 ^ r.depth.toNat + 2 + k)))

/-! ### Code classes -/

/-- R92, R97: END raises PrematureEnd 1 with the code, INVALID raises InvalidCode 1 with the code; nothing but the status
fields of R116 and the sequencer changes. -/
def Obligations.EndAndInvalidCodesRaise : Prop :=
  ∀ (s : State) (c : Code), s.status.lastCmd = 1#4 →
    exec (.lzwEnd c) s = .next
      { s with
        status := { s.status with
          err := 7#4, errSub := 1#4, errValue := c.setWidth 13, phase := .failed, busy := false, error := true }
        seq := .idle } ∧
    exec (.lzwInvalid c) s = .next
      { s with
        status := { s.status with
          err := 5#4, errSub := 1#4, errValue := c.setWidth 13, phase := .failed, busy := false, error := true }
        seq := .idle }

/-- R93, R89: CLEAR sets all of PREFIX and PREV_CODE to NO_SUCH_CODE, RUNNING_CODE to END_CODE + 1, RUNNING_BITS to DEPTH + 1
and MAX_CODE1 to 2^(DEPTH+1), and PHASE to CLEARED; no pixel is written, and everything else, SUFFIX too, is kept. -/
def Obligations.ClearResetsTheTable : Prop :=
  ∀ (s : State) (c : Code), s.lzw.depth.toNat ≤ 8 → s.lzw.endCode.toNat ≤ 257 →
    ∃ t, exec (.lzwClear c) s = .next t ∧
      (∀ i (h : i < 4096), t.lzw.prefixTab[i] = 4098#13) ∧ t.lzw.prevCode = 4098#13 ∧
      t.lzw.runningCode.toNat = s.lzw.endCode.toNat + 1 ∧ t.lzw.runningBits.toNat = s.lzw.depth.toNat + 1 ∧
      t.lzw.maxCode1.toNat = 2 ^ (s.lzw.depth.toNat + 1) ∧
      t = { s with
        lzw := { s.lzw with
          prefixTab := t.lzw.prefixTab, prevCode := t.lzw.prevCode, runningCode := t.lzw.runningCode,
          runningBits := t.lzw.runningBits, maxCode1 := t.lzw.maxCode1 }
        status := { s.status with phase := .cleared }
        seq := .rowLoop }

/-- R94, R100, R109: a LITERAL writes one pixel, the code, at ROW * WIDTH + COL, advances COL and PIX_REMAIN, and makes the
definition: none while PREV_CODE is NO_SUCH_CODE; CorruptTable 5 pending while RUNNING_CODE is out of range; else slot
RUNNING_CODE − 2 becomes (PREV_CODE, code). Every other byte and register is kept. A write that is not admitted has no step
(R38). The pending raise is a step of its own (log entry 9). -/
def Obligations.LiteralWritesAPixelAndDefines : Prop :=
  ∀ (s : State) (c : Code), Memory.wf s → c.toNat < s.lzw.clearCode.toNat → s.lzw.clearCode.toNat ≤ 256 →
    (s.rows.row.toNat * s.oper.width.toNat + s.rows.col.toNat < s.outSpace.size → ∃ t,
      exec (.lzwLiteral c) s = .next t ∧
      (∀ a, t.outSpace.read a =
        if a = s.rows.row.toNat * s.oper.width.toNat + s.rows.col.toNat then c.setWidth 8 else s.outSpace.read a) ∧
      t.history = .outWrite (s.rows.row.toNat * s.oper.width.toNat + s.rows.col.toNat) (c.setWidth 8) :: s.history ∧
      t.rows = { s.rows with col := s.rows.col + 1#16, pixRemain := s.rows.pixRemain - 1#32 } ∧
      (s.lzw.prevCode = 4098#13 → t.lzw = { s.lzw with prevCode := c.setWidth 13 } ∧ t.seq = .rowLoop) ∧
      (s.lzw.prevCode ≠ 4098#13 → (s.lzw.runningCode.toNat < 2 ∨ 4097 < s.lzw.runningCode.toNat) →
        t.lzw = s.lzw ∧ t.seq = .raising (.defineRange s.lzw.runningCode)) ∧
      (s.lzw.prevCode ≠ 4098#13 → 2 ≤ s.lzw.runningCode.toNat → s.lzw.runningCode.toNat ≤ 4097 →
        t.lzw = { s.lzw with prefixTab := t.lzw.prefixTab, suffixTab := t.lzw.suffixTab, prevCode := c.setWidth 13 } ∧
        (∀ i (h : i < 4096), t.lzw.prefixTab[i] =
          if i + 2 = s.lzw.runningCode.toNat then s.lzw.prevCode else s.lzw.prefixTab[i]) ∧
        (∀ i (h : i < 4096), t.lzw.suffixTab[i] =
          if i + 2 = s.lzw.runningCode.toNat then c.setWidth 8 else s.lzw.suffixTab[i]) ∧
        t.seq = .rowLoop) ∧
      t = { s with
        outSpace := t.outSpace, history := t.history, rows := t.rows, lzw := t.lzw, seq := t.seq } ∧
      t.outSpace.size = s.outSpace.size) ∧
    (s.outSpace.size ≤ s.rows.row.toNat * s.oper.width.toNat + s.rows.col.toNat →
      exec (.lzwLiteral c) s =
        .fault (.outNotAdmitted (s.rows.row.toNat * s.oper.width.toNat + s.rows.col.toNat)))

/-- R95, R99, R101: a KNOWN code whose string is w puts w on the empty stack, to be popped in order, and `flush` follows;
nothing else changes before the first pixel's write. -/
def Obligations.KnownCodePushesItsString : Prop :=
  ∀ (s : State) (c : Code) (w : List Byte), s.stk.stackPtr = 0#13 → Spells s.lzw (c.setWidth 13) w →
    w.length ≤ 4097 → ∃ t, exec (.lzwKnown c) s = .next t ∧ t.stk.stackPtr.toNat = w.length ∧
      (t.stk.stack.toList.take w.length).reverse = w ∧
      t = { s with stk := t.stk, seq := .flush (.define (c.setWidth 13) false) }

/-- R96, R98, R99, R101: a KWKWK code puts the previous code's string followed by its first byte on the empty stack, to be
popped in order, and `flush` follows; nothing else changes before the first pixel's write. -/
def Obligations.KwkwkCodePushesThePreviousString : Prop :=
  ∀ (s : State) (c : Code) (b : Byte) (w : List Byte), s.stk.stackPtr = 0#13 →
    Spells s.lzw s.lzw.prevCode (b :: w) → (b :: w).length ≤ 4097 →
    ∃ t, exec (.lzwKwkwk c) s = .next t ∧ t.stk.stackPtr.toNat = (b :: w).length + 1 ∧
      (t.stk.stack.toList.take ((b :: w).length + 1)).reverse = (b :: w) ++ [b] ∧
      t = { s with stk := t.stk, seq := .flush (.define (c.setWidth 13) true) }

/-- The frame of the six code classes (R92 to R97): when `exec` gives a next state, the operand registers, the sub-block
reader, the extractor, IN and the agenda are kept; OUT is kept but for the byte a LITERAL stores at ROW * WIDTH + COL; the
row registers are kept but for a LITERAL's COL and PIX_REMAIN; MCS, DEPTH, CLEAR_CODE and END_CODE are kept. -/
def Obligations.CodeClassesKeepTheRest : Prop :=
  ∀ (s t : State) (c : Code) (i : Instr), Memory.wf s →
    i ∈ [Instr.lzwEnd c, .lzwClear c, .lzwLiteral c, .lzwKnown c, .lzwKwkwk c, .lzwInvalid c] → exec i s = .next t →
    t.oper = s.oper ∧ t.reader = s.reader ∧ t.extr = s.extr ∧ t.inSpace = s.inSpace ∧ t.agenda = s.agenda ∧
    t.observations = s.observations ∧ t.outSpace.size = s.outSpace.size ∧
    t.lzw.mcs = s.lzw.mcs ∧ t.lzw.depth = s.lzw.depth ∧ t.lzw.clearCode = s.lzw.clearCode ∧
    t.lzw.endCode = s.lzw.endCode ∧ t.rows.row = s.rows.row ∧ t.rows.pass = s.rows.pass ∧
    t.status.lastCmd = s.status.lastCmd ∧ t.status.done = s.status.done ∧ t.status.badCmd = s.status.badCmd ∧
    (∀ a, ¬(i = .lzwLiteral c ∧ a = pixelOffset s) → t.outSpace.read a = s.outSpace.read a) ∧
    (i ≠ .lzwLiteral c → t.rows = s.rows ∧ t.history = s.history) ∧
    (i ∈ [Instr.lzwEnd c, .lzwInvalid c] → t.lzw = s.lzw ∧ t.stk = s.stk) ∧
    (i ∈ [Instr.lzwKnown c, .lzwKwkwk c] → t.lzw = s.lzw ∧ t.status = s.status) ∧
    (i ∈ [Instr.lzwClear c, .lzwLiteral c] → t.stk = s.stk)

/-- R95, R96, R100, R101, R110: in a reachable decode, a KNOWN or KWKWK code runs to the end of its definition. With w the
string of a KNOWN code, or the string of PREV_CODE and its first byte again for KWKWK: of w the row takes as many bytes as it
needs, in order, the rest stays on the stack; then slot RUNNING_CODE − 2 is defined as (PREV_CODE, first byte of w) and
PREV_CODE is the code. Where the table is full (RUNNING_CODE = 4098, no KWKWK code exists) nothing is defined and
CorruptTable 5 is pending, to be raised in a step of its own (log entry 9). -/
def Obligations.KnownCodeWritesItsStringAndDefines : Prop :=
  ∀ (s : State) (c : Code) (b : Byte) (v w : List Byte) (m : Nat), Inv s → HostSizes s → s.agenda = [] →
    s.seq = .process c →
    (decodeCode s.codeContext c = .lzwKnown c ∧ Spells s.lzw (c.setWidth 13) (b :: v) ∧ w = b :: v ∨
      decodeCode s.codeContext c = .lzwKwkwk c ∧ Spells s.lzw s.lzw.prevCode (b :: v) ∧ w = b :: v ++ [b]) →
    m = min w.length (s.oper.width.toNat - s.rows.col.toNat) →
    ∃ t, Reaches s t ∧
      (∀ i (h : i < w.length), i < m → t.outSpace.read (pixelOffset s + i) = w[i]) ∧
      (∀ a, a < pixelOffset s ∨ pixelOffset s + m ≤ a → t.outSpace.read a = s.outSpace.read a) ∧
      t.rows.col.toNat = s.rows.col.toNat + m ∧ t.rows.pixRemain.toNat = s.rows.pixRemain.toNat - m ∧
      t.stk.stackPtr.toNat = w.length - m ∧
      (t.stk.stack.toList.take t.stk.stackPtr.toNat).reverse = w.drop m ∧
      (decodeCode s.codeContext c = .lzwKwkwk c → s.lzw.runningCode.toNat ≤ 4097) ∧
      (s.lzw.runningCode.toNat ≤ 4097 → t.seq = .rowLoop ∧ t.lzw =
        { s.lzw with
          prevCode := c.setWidth 13
          prefixTab := s.lzw.prefixTab.setIfInBounds (s.lzw.runningCode.toNat - 2) s.lzw.prevCode
          suffixTab := s.lzw.suffixTab.setIfInBounds (s.lzw.runningCode.toNat - 2) b }) ∧
      (4097 < s.lzw.runningCode.toNat → t.seq = .raising (.defineRange s.lzw.runningCode) ∧ t.lzw = s.lzw) ∧
      t.oper = s.oper ∧ t.reader = s.reader ∧ t.extr = s.extr ∧ t.status = s.status

/-! ### Chain walks (R98, R102) -/

/-- R98, R102: a walk that answers, answers a literal. A chain that falls at each value above CLEAR_CODE, stays in the table
there and does not meet CLEAR_CODE, is answered by its first value below CLEAR_CODE. And in a reachable decode every literal
and every defined code c is answered so, after at most c − END_CODE replacements. -/
def Obligations.AcyclicChainsResolveToALiteral : Prop :=
  (∀ (r : LzwRegs) (c v : CodeField), traceRoot r c = .ok v → v.toNat < r.clearCode.toNat) ∧
  (∀ (r : LzwRegs) (c : CodeField), c ≠ r.clearCode →
    (∀ n, (∀ j, j ≤ n → r.clearCode.toNat < (chainAt r j c).toNat) →
      (chainAt r n c).toNat ≤ 4095 ∧ (chainAt r (n + 1) c).toNat < (chainAt r n c).toNat ∧
        chainAt r (n + 1) c ≠ r.clearCode) →
    ∃ n, (∀ j, j < n → r.clearCode.toNat < (chainAt r j c).toNat) ∧
      (chainAt r n c).toNat < r.clearCode.toNat ∧ traceRoot r c = .ok (chainAt r n c)) ∧
  (∀ (s : State) (c : CodeField), Inv s → s.decoding = true → hasString s.lzw s.codeDebt c.toNat →
    ∃ n, n ≤ c.toNat - s.lzw.endCode.toNat ∧ (∀ j, j < n → s.lzw.clearCode.toNat < (chainAt s.lzw j c).toNat) ∧
      (chainAt s.lzw n c).toNat < s.lzw.clearCode.toNat ∧ traceRoot s.lzw c = .ok (chainAt s.lzw n c))

/-- R98, R99: how a walk ends. The 4096th replacement is allowed and a 4097th raises: a chain that stays above CLEAR_CODE and
inside the table for 4096 replacements raises CorruptTable 2 with the value the walk stands at. Else its first value that
does not stay so ends it: above 4095 it raises CorruptTable 3 with it, at CLEAR_CODE CorruptTable 4 with it, below
CLEAR_CODE it is the answer. `expand` on an empty stack, or over KWKWK's one byte, raises the same errors. -/
def Obligations.WalkBoundAndRangeAreChecked : Prop :=
  ∀ (r : LzwRegs) (c : CodeField),
    ((∀ n, n ≤ 4096 → r.clearCode.toNat < (chainAt r n c).toNat ∧ (chainAt r n c).toNat ≤ 4095) →
      traceRoot r c = .error (.walkBound (chainAt r 4096 c))) ∧
    (∀ k, k ≤ 4096 →
      (∀ n, n < k → r.clearCode.toNat < (chainAt r n c).toNat ∧ (chainAt r n c).toNat ≤ 4095) →
      (r.clearCode.toNat < (chainAt r k c).toNat → 4095 < (chainAt r k c).toNat →
        traceRoot r c = .error (.walkRange (chainAt r k c))) ∧
      (chainAt r k c = r.clearCode → traceRoot r c = .error (.walkClear (chainAt r k c))) ∧
      ((chainAt r k c).toNat < r.clearCode.toNat → traceRoot r c = .ok (chainAt r k c))) ∧
    (∀ (k : StackRegs) (e : BlockError), k.stackPtr.toNat ≤ 1 → traceRoot r c = .error e →
      ∃ k', expand r c k = .failed k' e)

/-! ### Rows and pixels -/

/-- R107: `row_order` takes every row 0..HEIGHT−1 exactly once, interlaced or not. -/
def Obligations.RowOrderTakesEveryRowOnce : Prop :=
  ∀ (il : Bool) (h : Nat), ((rowOrder il h).map Prod.snd).Perm (List.range h)

/-- R106, R107: the block's row iterator, which knows only INTERLACE, HEIGHT, PASS and ROW, walks `row_order` from its
first pair to its last. -/
def Obligations.RowIteratorWalksTheRowOrder : Prop :=
  ∀ (il : Bool) (h : Nat), firstRowOf il h = (rowOrder il h)[0]? ∧
    ∀ (i : Nat) (x : Nat × Nat), (rowOrder il h)[i]? = some x → nextRowOf il h x.1 x.2 = (rowOrder il h)[i + 1]?

/-- R107: the orders the rule lists, for HEIGHT 8, 5 and 1. -/
def Obligations.RowOrdersOfTheRule : Prop :=
  (rowOrder true 8).map Prod.snd = [0, 4, 2, 6, 1, 3, 5, 7] ∧ (rowOrder true 5).map Prod.snd = [0, 4, 2, 1, 3] ∧
    (rowOrder true 1).map Prod.snd = [0] ∧ (rowOrder false 3).map Prod.snd = [0, 1, 2]

/-- R109, R110: while the stack has a byte and the row needs one, `flush` pops the top byte and writes it at ROW * WIDTH + COL.
That the pop is a step of its own, before the write's micro-step, is the model's choice (log entry 6). -/
def Obligations.FlushMovesTheTopByteToTheRow : Prop :=
  ∀ (s : State) (k : FlushCaller), s.agenda = [] → Memory.wf s → s.seq = .flush k →
    0 < s.stk.stackPtr.toNat → s.rows.col.toNat < s.oper.width.toNat → pixelOffset s < s.outSpace.size →
    ∀ h : s.stk.stackPtr.toNat ≤ 4098,
    ∃ u t, step s = .next u ∧ step u = .next t ∧ t.seq = .flush k ∧
      t.stk.stackPtr.toNat = s.stk.stackPtr.toNat - 1 ∧ t.stk.stack = s.stk.stack ∧
      (∀ a, t.outSpace.read a =
        if a = pixelOffset s then s.stk.stack[s.stk.stackPtr.toNat - 1] else s.outSpace.read a) ∧
      t.rows = { s.rows with col := s.rows.col + 1#16, pixRemain := s.rows.pixRemain - 1#32 } ∧
      t = { s with
        stk := t.stk, rows := t.rows, outSpace := t.outSpace
        history := .outWrite (pixelOffset s) (s.stk.stack[s.stk.stackPtr.toNat - 1]'(by omega)) :: s.history }

/-- R108: a code is fetched exactly when the row still needs a pixel; a full row goes on to the next row. -/
def Obligations.CodesAreFetchedOnlyForAPixel : Prop :=
  ∀ (s s' : State), BlockMoves s s' → s'.seq = .rowLoop →
    step s = .next { s' with seq := if s'.rows.col.toNat < s'.oper.width.toNat then .fetch else .nextRow }

/-- R114: where the pixels go. In a reachable decode that needs a pixel, with n = WIDTH * HEIGHT − PIX_REMAIN pixels
written, ROW and PASS are the n / WIDTH-th of `row_order` and COL is n mod WIDTH. And a step that writes OUT under
DECODE_IMAGE writes the n-th pixel there: at ROW * WIDTH + n mod WIDTH of that row, and PIX_REMAIN falls by one. -/
def Obligations.PixelsFollowTheRowOrder : Prop :=
  ∀ (s : State) (n : Nat), Inv s → n = s.oper.width.toNat * s.oper.height.toNat - s.rows.pixRemain.toNat →
    (s.decoding = true → s.seq.needsPixel = true →
      (rowOrder s.oper.interlace s.oper.height.toNat)[n / s.oper.width.toNat]? =
        some (s.rows.pass.toNat, s.rows.row.toNat) ∧
      n % s.oper.width.toNat = s.rows.col.toNat) ∧
    (∀ (t : State) (a : Nat) (v : Byte), step s = .next t → t.history = .outWrite a v :: s.history →
      s.status.lastCmd = 1#4 →
      (∃ pass row, (rowOrder s.oper.interlace s.oper.height.toNat)[n / s.oper.width.toNat]? = some (pass, row) ∧
        a = row * s.oper.width.toNat + n % s.oper.width.toNat) ∧
      t.outSpace.read a = v ∧ t.rows.pixRemain.toNat + 1 = s.rows.pixRemain.toNat)

/-- R111: the drain. Over well-formed rest data it reads every sub-block and the terminator, without decoding, and
ends with DONE: IN_PTR after the terminator, SB_TERM 1, CHUNK 0, STACK_PTR 0, PHASE DONE; OUT, the LZW registers and the
accumulator are kept. -/
def Obligations.DrainEndsAfterTheTerminator : Prop :=
  ∀ (s : State) (q : Nat), s.agenda = [] → s.seq = .startDrain → s.reader.sbTerm = false →
    SubBlocksAt s.inSpace s.oper.inPtr.toNat q → q ≤ s.oper.inEnd.toNat → s.oper.inEnd.toNat ≤ s.inSpace.size →
    ∃ t, Reaches s t ∧ t.seq = .idle ∧ t.status = { s.status with phase := .done, busy := false, done := true } ∧
      t.oper.inPtr.toNat = q ∧ t.oper = { s.oper with inPtr := t.oper.inPtr } ∧ t.reader.sbTerm = true ∧
      t.reader.sbShort = false ∧ t.reader.chunkLen = 0#8 ∧ t.reader.chunkDecl = 0#8 ∧ t.reader.chunkPos = 0#8 ∧
      t.stk.stackPtr = 0#13 ∧ t.lzw = s.lzw ∧ t.extr = s.extr ∧ t.rows = s.rows ∧ t.outSpace = s.outSpace ∧
      t.inSpace = s.inSpace

/-- R112: an image without pixels. The minimum code size m is read and checked, no code is fetched, OUT is not written, and
the drain ends the command with DONE after the terminator; RUNNING_CODE is 2^m + 2 and PREV_CODE NO_SUCH_CODE. -/
def Obligations.EmptyImageReadsOnlyItsFraming : Prop :=
  ∀ (s : State) (g : BitVec 28) (m q : Nat), s.status.busy = false → s.agenda = [] →
    s.oper.width.toNat = 0 ∨ s.oper.height.toNat = 0 → s.oper.inPtr.toNat < s.oper.inEnd.toNat →
    (s.inSpace.read s.oper.inPtr.toNat).toNat = m → 1 ≤ m → m ≤ 8 →
    SubBlocksAt s.inSpace (s.oper.inPtr.toNat + 1) q → q ≤ s.oper.inEnd.toNat →
    s.oper.inEnd.toNat ≤ s.inSpace.size →
    ∃ u t, exec (.decodeImage g) s = .next u ∧ Reaches u t ∧ t.seq = .idle ∧
      t.status =
        { busy := false, done := true, error := false, badCmd := false, err := 0#4, phase := .done, lastCmd := 1#4,
          errValue := 0#13, errSub := 0#4 } ∧
      t.oper.inPtr.toNat = q ∧ t.rows.pixRemain = 0#32 ∧ t.lzw.runningCode.toNat = 2 ^ m + 2 ∧
      t.lzw.prevCode = 4098#13 ∧ t.extr.curCode = 0#13 ∧ t.reader.sbTerm = true ∧ t.outSpace = s.outSpace

/-! ### Errors -/

/-- R115, R116: `raise`. Every cause records its code, sub-cause and value; PHASE becomes FAILED only under DECODE_IMAGE;
BUSY falls and ERROR is set; DONE and everything else stay as they were. -/
def Obligations.RaiseRecordsTheErrorOfTheTable : Prop :=
  ∀ (s s' : State) (e : BlockError) (kind sub : BitVec 4) (value : CodeField), BlockMoves s s' →
    s'.seq = .raising e →
    (e = .noMcsByte ∧ kind = 2#4 ∧ sub = 1#4 ∧ value = 0#13 ∨
      e = .noLengthInDrain ∧ kind = 2#4 ∧ sub = 2#4 ∧ value = 0#13 ∨
      e = .noLengthInNextChunk ∧ kind = 2#4 ∧ sub = 3#4 ∧ value = 0#13 ∨
      e = .codeAtInputEnd ∧ kind = 3#4 ∧ sub = 1#4 ∧ value = 0#13 ∨
      e = .codeAtTerminator ∧ kind = 3#4 ∧ sub = 2#4 ∧ value = 0#13 ∨
      e = .invalidCode value ∧ kind = 5#4 ∧ sub = 1#4 ∨
      (∃ b : Byte, e = .badMcs b ∧ value = b.setWidth 13) ∧ kind = 6#4 ∧ sub = 1#4 ∨
      e = .walkBound value ∧ kind = 6#4 ∧ sub = 2#4 ∨ e = .walkRange value ∧ kind = 6#4 ∧ sub = 3#4 ∨
      e = .walkClear value ∧ kind = 6#4 ∧ sub = 4#4 ∨ e = .defineRange value ∧ kind = 6#4 ∧ sub = 5#4 ∨
      e = .prematureEnd value ∧ kind = 7#4 ∧ sub = 1#4) →
    step s = .next
      { s' with
        status :=
          { busy := false, done := s'.status.done, error := true, badCmd := s'.status.badCmd, err := kind,
            phase := if s'.status.lastCmd = 1#4 then .failed else s'.status.phase, lastCmd := s'.status.lastCmd,
            errValue := value, errSub := sub }
        seq := .idle }

/-! ### Invariants and whole-machine rules -/

/-- The invariant holds after reset (R127, R36). -/
def Obligations.InvariantHoldsAfterReset : Prop := Inv State.reset

/-- R36 and the field rules R16 to R29: every step of the machine keeps the invariant, from every state that meets it. -/
def Obligations.EveryStepKeepsTheInvariant : Prop :=
  ∀ s t : State, Inv s → step s = .next t → Inv t

/-- Every step keeps both byte spaces in canonical form, and their sizes (R7). -/
def Obligations.EveryStepKeepsMemoryCanonical : Prop :=
  ∀ s t : State, Memory.wf s → step s = .next t →
    Memory.wf t ∧ t.inSpace.size = s.inSpace.size ∧ t.outSpace.size = s.outSpace.size

/-- R16, R35: every step keeps STATUS consistent: BUSY exactly while a command runs, DONE and ERROR never both, ERR and
ERR_INFO 0 without an error. -/
def Obligations.EveryStepKeepsTheStatusConsistent : Prop :=
  ∀ s t : State, StatusInv s → step s = .next t → StatusInv t

/-- R38, R102, R103: with the sizes of R38 no step of a reachable state faults: no access is stuck and no push finds the
stack full. -/
def Obligations.NoStepFaultsWithinTheHostSizes : Prop :=
  ∀ s : State, Inv s → HostSizes s → TurnInRange s → SafeStep s

/-- R104, R135: every command ends. From a reachable state with the sizes of R38 and no turn of the host pending, finitely
many steps make BUSY fall. -/
def Obligations.EveryCommandEnds : Prop :=
  ∀ s : State, Inv s → HostSizes s → s.agenda = [] → ∃ t, Reaches s t ∧ t.status.busy = false

/-- R69, R78, R21: while a command runs, no step but a reset changes GEOM, MODE or IN_END, and IN_PTR changes only by a
recorded read, by 1. -/
def Obligations.OperandsAreFixedWhileBusy : Prop :=
  ∀ s t : State, s.status.busy = true → step s = .next t → (∀ rest, s.agenda ≠ .reset :: rest) →
    t.oper.width = s.oper.width ∧ t.oper.height = s.oper.height ∧ t.oper.interlace = s.oper.interlace ∧
    t.oper.inEnd = s.oper.inEnd ∧
    (t.oper.inPtr = s.oper.inPtr ∨
      t.oper.inPtr = s.oper.inPtr + 1#32 ∧
        t.history = .inRead s.oper.inPtr.toNat (s.inSpace.read s.oper.inPtr.toNat) :: s.history)

/-- R37, R48: a byte of OUT changes only by a block write the history records or by a host write, and a byte of IN only by
a host write. -/
def Obligations.MemoryChangesAreAccountedFor : Prop :=
  ∀ (s t : State) (a : Nat), Memory.wf s → step s = .next t →
    (t.outSpace.read a ≠ s.outSpace.read a →
      (t.history = .outWrite a (t.outSpace.read a) :: s.history ∨
        ∃ rest, s.agenda = .host (.outWrite a (t.outSpace.read a)) :: rest)) ∧
    (t.inSpace.read a ≠ s.inSpace.read a →
      ∃ rest, s.agenda = .host (.inWrite a (t.inSpace.read a)) :: rest)

/-- R39, R109: the block's writes stay in place. In a reachable state a write of DECODE_IMAGE goes to ROW * WIDTH + COL of a
row below HEIGHT and a column below WIDTH, with a value below CLEAR_CODE; a write of SB_NEXT_CHUNK goes to an offset
below CHUNK_LEN with that byte of the chunk. No other command writes. -/
def Obligations.BlockWritesStayInPlace : Prop :=
  ∀ (s t : State) (a : Nat) (v : Byte), Inv s → step s = .next t → t.history = .outWrite a v :: s.history →
    s.status.lastCmd = 1#4 ∧ a = s.rows.row.toNat * s.oper.width.toNat + s.rows.col.toNat ∧
      s.rows.row.toNat < s.oper.height.toNat ∧ s.rows.col.toNat < s.oper.width.toNat ∧
      v.toNat < s.lzw.clearCode.toNat ∨
    s.status.lastCmd = 3#4 ∧ a < s.reader.chunkLen.toNat ∧ ∃ h : a < 255, v = s.reader.chunkBuf[a]
end

