-- ==== Sys2Proof/Laws/State.lean ====
section
/-! SUPPORT. What each named update of the state does to each field: one lemma per field, true by rfl, so that no proof
unfolds a record update. -/

namespace Sys2Proof.Machine

/-! ### finishOk -/

@[simp] theorem finishOk_status (s : State) : (finishOk s).status = { s.status with busy := false, done := true } := rfl
@[simp] theorem finishOk_oper (s : State) : (finishOk s).oper = s.oper := rfl
@[simp] theorem finishOk_reader (s : State) : (finishOk s).reader = s.reader := rfl
@[simp] theorem finishOk_extr (s : State) : (finishOk s).extr = s.extr := rfl
@[simp] theorem finishOk_lzw (s : State) : (finishOk s).lzw = s.lzw := rfl
@[simp] theorem finishOk_stk (s : State) : (finishOk s).stk = s.stk := rfl
@[simp] theorem finishOk_rows (s : State) : (finishOk s).rows = s.rows := rfl
@[simp] theorem finishOk_seq (s : State) : (finishOk s).seq = .idle := rfl
@[simp] theorem finishOk_inSpace (s : State) : (finishOk s).inSpace = s.inSpace := rfl
@[simp] theorem finishOk_outSpace (s : State) : (finishOk s).outSpace = s.outSpace := rfl
@[simp] theorem finishOk_history (s : State) : (finishOk s).history = s.history := rfl
@[simp] theorem finishOk_agenda (s : State) : (finishOk s).agenda = s.agenda := rfl
@[simp] theorem finishOk_observations (s : State) : (finishOk s).observations = s.observations := rfl
@[simp] theorem finishOk_freeCount (s : State) : (finishOk s).freeCount = s.freeCount := rfl

/-! ### raiseError -/

@[simp] theorem raiseError_status (e : BlockError) (s : State) : (raiseError e s).status = { s.status with
      err := e.err, errSub := e.sub, errValue := e.value,
      phase := if s.status.lastCmd = 1#4 then .failed else s.status.phase,
      busy := false, error := true } := rfl
@[simp] theorem raiseError_oper (e : BlockError) (s : State) : (raiseError e s).oper = s.oper := rfl
@[simp] theorem raiseError_reader (e : BlockError) (s : State) : (raiseError e s).reader = s.reader := rfl
@[simp] theorem raiseError_extr (e : BlockError) (s : State) : (raiseError e s).extr = s.extr := rfl
@[simp] theorem raiseError_lzw (e : BlockError) (s : State) : (raiseError e s).lzw = s.lzw := rfl
@[simp] theorem raiseError_stk (e : BlockError) (s : State) : (raiseError e s).stk = s.stk := rfl
@[simp] theorem raiseError_rows (e : BlockError) (s : State) : (raiseError e s).rows = s.rows := rfl
@[simp] theorem raiseError_seq (e : BlockError) (s : State) : (raiseError e s).seq = .idle := rfl
@[simp] theorem raiseError_inSpace (e : BlockError) (s : State) : (raiseError e s).inSpace = s.inSpace := rfl
@[simp] theorem raiseError_outSpace (e : BlockError) (s : State) : (raiseError e s).outSpace = s.outSpace := rfl
@[simp] theorem raiseError_history (e : BlockError) (s : State) : (raiseError e s).history = s.history := rfl
@[simp] theorem raiseError_agenda (e : BlockError) (s : State) : (raiseError e s).agenda = s.agenda := rfl
@[simp] theorem raiseError_observations (e : BlockError) (s : State) : (raiseError e s).observations = s.observations := rfl
@[simp] theorem raiseError_freeCount (e : BlockError) (s : State) : (raiseError e s).freeCount = s.freeCount := rfl

/-! ### acceptCommand -/

@[simp] theorem acceptedPhase_decodeImage (p : Phase) : Command.decodeImage.acceptedPhase p = .initialized := rfl
@[simp] theorem acceptedPhase_nop (p : Phase) : Command.nop.acceptedPhase p = p := rfl
@[simp] theorem acceptedPhase_sbOpen (p : Phase) : Command.sbOpen.acceptedPhase p = p := rfl
@[simp] theorem acceptedPhase_sbNextChunk (p : Phase) : Command.sbNextChunk.acceptedPhase p = p := rfl
@[simp] theorem acceptedTerm_sbOpen (b : Bool) : Command.sbOpen.acceptedTerm b = false := rfl
@[simp] theorem acceptedTerm_nop (b : Bool) : Command.nop.acceptedTerm b = b := rfl
@[simp] theorem acceptedTerm_decodeImage (b : Bool) : Command.decodeImage.acceptedTerm b = b := rfl
@[simp] theorem acceptedTerm_sbNextChunk (b : Bool) : Command.sbNextChunk.acceptedTerm b = b := rfl

@[simp] theorem acceptCommand_status (c : Command) (s : State) : (acceptCommand c s).status = { s.status with
      busy := true, done := false, error := false, badCmd := false, err := 0#4, errValue := 0#13, errSub := 0#4,
      phase := c.acceptedPhase s.status.phase, lastCmd := c.code } := rfl
@[simp] theorem acceptCommand_oper (c : Command) (s : State) : (acceptCommand c s).oper = s.oper := rfl
@[simp] theorem acceptCommand_reader (c : Command) (s : State) : (acceptCommand c s).reader =
      { s.reader with sbTerm := c.acceptedTerm s.reader.sbTerm } := rfl
@[simp] theorem acceptCommand_extr (c : Command) (s : State) : (acceptCommand c s).extr = s.extr := rfl
@[simp] theorem acceptCommand_lzw (c : Command) (s : State) : (acceptCommand c s).lzw = s.lzw := rfl
@[simp] theorem acceptCommand_stk (c : Command) (s : State) : (acceptCommand c s).stk = s.stk := rfl
@[simp] theorem acceptCommand_rows (c : Command) (s : State) : (acceptCommand c s).rows = s.rows := rfl
@[simp] theorem acceptCommand_seq (c : Command) (s : State) : (acceptCommand c s).seq = .start c := rfl
@[simp] theorem acceptCommand_inSpace (c : Command) (s : State) : (acceptCommand c s).inSpace = s.inSpace := rfl
@[simp] theorem acceptCommand_outSpace (c : Command) (s : State) : (acceptCommand c s).outSpace = s.outSpace := rfl
@[simp] theorem acceptCommand_history (c : Command) (s : State) : (acceptCommand c s).history = s.history := rfl
@[simp] theorem acceptCommand_agenda (c : Command) (s : State) : (acceptCommand c s).agenda = s.agenda := rfl
@[simp] theorem acceptCommand_observations (c : Command) (s : State) : (acceptCommand c s).observations = s.observations := rfl
@[simp] theorem acceptCommand_freeCount (c : Command) (s : State) : (acceptCommand c s).freeCount = s.freeCount := rfl

/-! ### rejectCommand -/

@[simp] theorem rejectCommand_status (s : State) : (rejectCommand s).status = { s.status with badCmd := true } := rfl
@[simp] theorem rejectCommand_oper (s : State) : (rejectCommand s).oper = s.oper := rfl
@[simp] theorem rejectCommand_reader (s : State) : (rejectCommand s).reader = s.reader := rfl
@[simp] theorem rejectCommand_extr (s : State) : (rejectCommand s).extr = s.extr := rfl
@[simp] theorem rejectCommand_lzw (s : State) : (rejectCommand s).lzw = s.lzw := rfl
@[simp] theorem rejectCommand_stk (s : State) : (rejectCommand s).stk = s.stk := rfl
@[simp] theorem rejectCommand_rows (s : State) : (rejectCommand s).rows = s.rows := rfl
@[simp] theorem rejectCommand_seq (s : State) : (rejectCommand s).seq = s.seq := rfl
@[simp] theorem rejectCommand_inSpace (s : State) : (rejectCommand s).inSpace = s.inSpace := rfl
@[simp] theorem rejectCommand_outSpace (s : State) : (rejectCommand s).outSpace = s.outSpace := rfl
@[simp] theorem rejectCommand_history (s : State) : (rejectCommand s).history = s.history := rfl
@[simp] theorem rejectCommand_agenda (s : State) : (rejectCommand s).agenda = s.agenda := rfl
@[simp] theorem rejectCommand_observations (s : State) : (rejectCommand s).observations = s.observations := rfl
@[simp] theorem rejectCommand_freeCount (s : State) : (rejectCommand s).freeCount = s.freeCount := rfl

/-! ### resetBlock -/

@[simp] theorem resetBlock_status (s : State) : (resetBlock s).status = StatusRegs.zero := rfl
@[simp] theorem resetBlock_oper (s : State) : (resetBlock s).oper = OperandRegs.zero := rfl
@[simp] theorem resetBlock_reader (s : State) : (resetBlock s).reader = ReaderRegs.afterReset (s.freeCount + 1) := rfl
@[simp] theorem resetBlock_extr (s : State) : (resetBlock s).extr = ExtractorRegs.zero := rfl
@[simp] theorem resetBlock_lzw (s : State) : (resetBlock s).lzw = LzwRegs.afterReset (s.freeCount + 1) := rfl
@[simp] theorem resetBlock_stk (s : State) : (resetBlock s).stk = StackRegs.afterReset (s.freeCount + 1) := rfl
@[simp] theorem resetBlock_rows (s : State) : (resetBlock s).rows = RowRegs.zero := rfl
@[simp] theorem resetBlock_seq (s : State) : (resetBlock s).seq = .idle := rfl
@[simp] theorem resetBlock_inSpace (s : State) : (resetBlock s).inSpace = s.inSpace := rfl
@[simp] theorem resetBlock_outSpace (s : State) : (resetBlock s).outSpace = s.outSpace := rfl
@[simp] theorem resetBlock_history (s : State) : (resetBlock s).history = s.history := rfl
@[simp] theorem resetBlock_agenda (s : State) : (resetBlock s).agenda = s.agenda := rfl
@[simp] theorem resetBlock_observations (s : State) : (resetBlock s).observations = s.observations := rfl
@[simp] theorem resetBlock_freeCount (s : State) : (resetBlock s).freeCount = s.freeCount + 1 := rfl

/-! ### pixelDone -/

@[simp] theorem pixelDone_status (s : State) : (pixelDone s).status = s.status := rfl
@[simp] theorem pixelDone_oper (s : State) : (pixelDone s).oper = s.oper := rfl
@[simp] theorem pixelDone_reader (s : State) : (pixelDone s).reader = s.reader := rfl
@[simp] theorem pixelDone_extr (s : State) : (pixelDone s).extr = s.extr := rfl
@[simp] theorem pixelDone_lzw (s : State) : (pixelDone s).lzw = s.lzw := rfl
@[simp] theorem pixelDone_stk (s : State) : (pixelDone s).stk = s.stk := rfl
@[simp] theorem pixelDone_rows (s : State) : (pixelDone s).rows = { s.rows with col := s.rows.col + 1#16, pixRemain := s.rows.pixRemain - 1#32 } := rfl
@[simp] theorem pixelDone_seq (s : State) : (pixelDone s).seq = s.seq := rfl
@[simp] theorem pixelDone_inSpace (s : State) : (pixelDone s).inSpace = s.inSpace := rfl
@[simp] theorem pixelDone_outSpace (s : State) : (pixelDone s).outSpace = s.outSpace := rfl
@[simp] theorem pixelDone_history (s : State) : (pixelDone s).history = s.history := rfl
@[simp] theorem pixelDone_agenda (s : State) : (pixelDone s).agenda = s.agenda := rfl
@[simp] theorem pixelDone_observations (s : State) : (pixelDone s).observations = s.observations := rfl
@[simp] theorem pixelDone_freeCount (s : State) : (pixelDone s).freeCount = s.freeCount := rfl

/-! ### openReader -/

@[simp] theorem openReader_status (s : State) : (openReader s).status = s.status := rfl
@[simp] theorem openReader_oper (s : State) : (openReader s).oper = s.oper := rfl
@[simp] theorem openReader_reader (s : State) : (openReader s).reader = { s.reader with sbTerm := false, sbShort := false, chunkLen := 0#8, chunkDecl := 0#8, chunkPos := 0#8 } := rfl
@[simp] theorem openReader_extr (s : State) : (openReader s).extr = s.extr := rfl
@[simp] theorem openReader_lzw (s : State) : (openReader s).lzw = s.lzw := rfl
@[simp] theorem openReader_stk (s : State) : (openReader s).stk = s.stk := rfl
@[simp] theorem openReader_rows (s : State) : (openReader s).rows = s.rows := rfl
@[simp] theorem openReader_seq (s : State) : (openReader s).seq = s.seq := rfl
@[simp] theorem openReader_inSpace (s : State) : (openReader s).inSpace = s.inSpace := rfl
@[simp] theorem openReader_outSpace (s : State) : (openReader s).outSpace = s.outSpace := rfl
@[simp] theorem openReader_history (s : State) : (openReader s).history = s.history := rfl
@[simp] theorem openReader_agenda (s : State) : (openReader s).agenda = s.agenda := rfl
@[simp] theorem openReader_observations (s : State) : (openReader s).observations = s.observations := rfl
@[simp] theorem openReader_freeCount (s : State) : (openReader s).freeCount = s.freeCount := rfl

/-! ### beginDecode -/

@[simp] theorem beginDecode_status (s : State) : (beginDecode s).status = { s.status with phase := .initialized } := rfl
@[simp] theorem beginDecode_oper (s : State) : (beginDecode s).oper = s.oper := rfl
@[simp] theorem beginDecode_reader (s : State) : (beginDecode s).reader = { s.reader with sbTerm := false, sbShort := false, chunkLen := 0#8, chunkDecl := 0#8, chunkPos := 0#8 } := rfl
@[simp] theorem beginDecode_extr (s : State) : (beginDecode s).extr = { shiftAcc := 0#32, shiftState := 0#6, curCode := 0#13 } := rfl
@[simp] theorem beginDecode_lzw (s : State) : (beginDecode s).lzw = s.lzw := rfl
@[simp] theorem beginDecode_stk (s : State) : (beginDecode s).stk = { s.stk with stackPtr := 0#13 } := rfl
@[simp] theorem beginDecode_rows (s : State) : (beginDecode s).rows = { row := 0#16, pass := 0#2, col := 0#16, pixRemain := 0#32 } := rfl
@[simp] theorem beginDecode_seq (s : State) : (beginDecode s).seq = s.seq := rfl
@[simp] theorem beginDecode_inSpace (s : State) : (beginDecode s).inSpace = s.inSpace := rfl
@[simp] theorem beginDecode_outSpace (s : State) : (beginDecode s).outSpace = s.outSpace := rfl
@[simp] theorem beginDecode_history (s : State) : (beginDecode s).history = s.history := rfl
@[simp] theorem beginDecode_agenda (s : State) : (beginDecode s).agenda = s.agenda := rfl
@[simp] theorem beginDecode_observations (s : State) : (beginDecode s).observations = s.observations := rfl
@[simp] theorem beginDecode_freeCount (s : State) : (beginDecode s).freeCount = s.freeCount := rfl

/-! ### storePayload -/

@[simp] theorem storePayload_status (b : Byte) (s : State) : (storePayload b s).status = s.status := rfl
@[simp] theorem storePayload_oper (b : Byte) (s : State) : (storePayload b s).oper = s.oper := rfl
@[simp] theorem storePayload_reader (b : Byte) (s : State) : (storePayload b s).reader = { s.reader with
      chunkBuf := s.reader.chunkBuf.setIfInBounds s.reader.chunkLen.toNat b
      chunkLen := s.reader.chunkLen + 1#8 } := rfl
@[simp] theorem storePayload_extr (b : Byte) (s : State) : (storePayload b s).extr = s.extr := rfl
@[simp] theorem storePayload_lzw (b : Byte) (s : State) : (storePayload b s).lzw = s.lzw := rfl
@[simp] theorem storePayload_stk (b : Byte) (s : State) : (storePayload b s).stk = s.stk := rfl
@[simp] theorem storePayload_rows (b : Byte) (s : State) : (storePayload b s).rows = s.rows := rfl
@[simp] theorem storePayload_seq (b : Byte) (s : State) : (storePayload b s).seq = s.seq := rfl
@[simp] theorem storePayload_inSpace (b : Byte) (s : State) : (storePayload b s).inSpace = s.inSpace := rfl
@[simp] theorem storePayload_outSpace (b : Byte) (s : State) : (storePayload b s).outSpace = s.outSpace := rfl
@[simp] theorem storePayload_history (b : Byte) (s : State) : (storePayload b s).history = s.history := rfl
@[simp] theorem storePayload_agenda (b : Byte) (s : State) : (storePayload b s).agenda = s.agenda := rfl
@[simp] theorem storePayload_observations (b : Byte) (s : State) : (storePayload b s).observations = s.observations := rfl
@[simp] theorem storePayload_freeCount (b : Byte) (s : State) : (storePayload b s).freeCount = s.freeCount := rfl

/-! ### drainStart -/

@[simp] theorem drainStart_status (s : State) : (drainStart s).status = { s.status with phase := .draining } := rfl
@[simp] theorem drainStart_oper (s : State) : (drainStart s).oper = s.oper := rfl
@[simp] theorem drainStart_reader (s : State) : (drainStart s).reader = { s.reader with chunkPos := s.reader.chunkLen } := rfl
@[simp] theorem drainStart_extr (s : State) : (drainStart s).extr = s.extr := rfl
@[simp] theorem drainStart_lzw (s : State) : (drainStart s).lzw = s.lzw := rfl
@[simp] theorem drainStart_stk (s : State) : (drainStart s).stk = { s.stk with stackPtr := 0#13 } := rfl
@[simp] theorem drainStart_rows (s : State) : (drainStart s).rows = s.rows := rfl
@[simp] theorem drainStart_seq (s : State) : (drainStart s).seq = .nextChunk .drain := rfl
@[simp] theorem drainStart_inSpace (s : State) : (drainStart s).inSpace = s.inSpace := rfl
@[simp] theorem drainStart_outSpace (s : State) : (drainStart s).outSpace = s.outSpace := rfl
@[simp] theorem drainStart_history (s : State) : (drainStart s).history = s.history := rfl
@[simp] theorem drainStart_agenda (s : State) : (drainStart s).agenda = s.agenda := rfl
@[simp] theorem drainStart_observations (s : State) : (drainStart s).observations = s.observations := rfl
@[simp] theorem drainStart_freeCount (s : State) : (drainStart s).freeCount = s.freeCount := rfl

/-! ### observe -/

@[simp] theorem observe_status (o : Observation) (s : State) : (observe o s).status = s.status := rfl
@[simp] theorem observe_oper (o : Observation) (s : State) : (observe o s).oper = s.oper := rfl
@[simp] theorem observe_reader (o : Observation) (s : State) : (observe o s).reader = s.reader := rfl
@[simp] theorem observe_extr (o : Observation) (s : State) : (observe o s).extr = s.extr := rfl
@[simp] theorem observe_lzw (o : Observation) (s : State) : (observe o s).lzw = s.lzw := rfl
@[simp] theorem observe_stk (o : Observation) (s : State) : (observe o s).stk = s.stk := rfl
@[simp] theorem observe_rows (o : Observation) (s : State) : (observe o s).rows = s.rows := rfl
@[simp] theorem observe_seq (o : Observation) (s : State) : (observe o s).seq = s.seq := rfl
@[simp] theorem observe_inSpace (o : Observation) (s : State) : (observe o s).inSpace = s.inSpace := rfl
@[simp] theorem observe_outSpace (o : Observation) (s : State) : (observe o s).outSpace = s.outSpace := rfl
@[simp] theorem observe_history (o : Observation) (s : State) : (observe o s).history = s.history := rfl
@[simp] theorem observe_agenda (o : Observation) (s : State) : (observe o s).agenda = s.agenda := rfl
@[simp] theorem observe_observations (o : Observation) (s : State) : (observe o s).observations = o :: s.observations := rfl
@[simp] theorem observe_freeCount (o : Observation) (s : State) : (observe o s).freeCount = s.freeCount := rfl

/-! ### resetTable -/

@[simp] theorem resetTable_mcs (r : LzwRegs) : (resetTable r).mcs = r.mcs := rfl
@[simp] theorem resetTable_depth (r : LzwRegs) : (resetTable r).depth = r.depth := rfl
@[simp] theorem resetTable_clearCode (r : LzwRegs) : (resetTable r).clearCode = r.clearCode := rfl
@[simp] theorem resetTable_endCode (r : LzwRegs) : (resetTable r).endCode = r.endCode := rfl
@[simp] theorem resetTable_runningCode (r : LzwRegs) : (resetTable r).runningCode = r.endCode + 1#13 := rfl
@[simp] theorem resetTable_runningBits (r : LzwRegs) : (resetTable r).runningBits = r.depth + 1#4 := rfl
@[simp] theorem resetTable_maxCode1 (r : LzwRegs) : (resetTable r).maxCode1 = BitVec.ofNat 13 (2 ^ (r.depth.toNat + 1)) := rfl
@[simp] theorem resetTable_prevCode (r : LzwRegs) : (resetTable r).prevCode = Config.noSuchCode := rfl
@[simp] theorem resetTable_prefixTab (r : LzwRegs) : (resetTable r).prefixTab = Vector.replicate 4096 Config.noSuchCode := rfl
@[simp] theorem resetTable_suffixTab (r : LzwRegs) : (resetTable r).suffixTab = r.suffixTab := rfl

/-! ### writePrefix -/

@[simp] theorem writePrefix_mcs (r : LzwRegs) (i : Nat) (c : CodeField) : (writePrefix r i c).mcs = r.mcs := rfl
@[simp] theorem writePrefix_depth (r : LzwRegs) (i : Nat) (c : CodeField) : (writePrefix r i c).depth = r.depth := rfl
@[simp] theorem writePrefix_clearCode (r : LzwRegs) (i : Nat) (c : CodeField) : (writePrefix r i c).clearCode = r.clearCode := rfl
@[simp] theorem writePrefix_endCode (r : LzwRegs) (i : Nat) (c : CodeField) : (writePrefix r i c).endCode = r.endCode := rfl
@[simp] theorem writePrefix_runningCode (r : LzwRegs) (i : Nat) (c : CodeField) : (writePrefix r i c).runningCode = r.runningCode := rfl
@[simp] theorem writePrefix_runningBits (r : LzwRegs) (i : Nat) (c : CodeField) : (writePrefix r i c).runningBits = r.runningBits := rfl
@[simp] theorem writePrefix_maxCode1 (r : LzwRegs) (i : Nat) (c : CodeField) : (writePrefix r i c).maxCode1 = r.maxCode1 := rfl
@[simp] theorem writePrefix_prevCode (r : LzwRegs) (i : Nat) (c : CodeField) : (writePrefix r i c).prevCode = r.prevCode := rfl
@[simp] theorem writePrefix_prefixTab (r : LzwRegs) (i : Nat) (c : CodeField) : (writePrefix r i c).prefixTab = r.prefixTab.setIfInBounds i c := rfl
@[simp] theorem writePrefix_suffixTab (r : LzwRegs) (i : Nat) (c : CodeField) : (writePrefix r i c).suffixTab = r.suffixTab := rfl

/-! ### writeSuffix -/

@[simp] theorem writeSuffix_mcs (r : LzwRegs) (i : Nat) (v : Byte) : (writeSuffix r i v).mcs = r.mcs := rfl
@[simp] theorem writeSuffix_depth (r : LzwRegs) (i : Nat) (v : Byte) : (writeSuffix r i v).depth = r.depth := rfl
@[simp] theorem writeSuffix_clearCode (r : LzwRegs) (i : Nat) (v : Byte) : (writeSuffix r i v).clearCode = r.clearCode := rfl
@[simp] theorem writeSuffix_endCode (r : LzwRegs) (i : Nat) (v : Byte) : (writeSuffix r i v).endCode = r.endCode := rfl
@[simp] theorem writeSuffix_runningCode (r : LzwRegs) (i : Nat) (v : Byte) : (writeSuffix r i v).runningCode = r.runningCode := rfl
@[simp] theorem writeSuffix_runningBits (r : LzwRegs) (i : Nat) (v : Byte) : (writeSuffix r i v).runningBits = r.runningBits := rfl
@[simp] theorem writeSuffix_maxCode1 (r : LzwRegs) (i : Nat) (v : Byte) : (writeSuffix r i v).maxCode1 = r.maxCode1 := rfl
@[simp] theorem writeSuffix_prevCode (r : LzwRegs) (i : Nat) (v : Byte) : (writeSuffix r i v).prevCode = r.prevCode := rfl
@[simp] theorem writeSuffix_prefixTab (r : LzwRegs) (i : Nat) (v : Byte) : (writeSuffix r i v).prefixTab = r.prefixTab := rfl
@[simp] theorem writeSuffix_suffixTab (r : LzwRegs) (i : Nat) (v : Byte) : (writeSuffix r i v).suffixTab = r.suffixTab.setIfInBounds i v := rfl

/-! ### acceptMcs -/

@[simp] theorem acceptMcs_mcs (m : Byte) (r : LzwRegs) : (acceptMcs m r).mcs = m := rfl
@[simp] theorem acceptMcs_depth (m : Byte) (r : LzwRegs) : (acceptMcs m r).depth = m.setWidth 4 := rfl
@[simp] theorem acceptMcs_clearCode (m : Byte) (r : LzwRegs) : (acceptMcs m r).clearCode = BitVec.ofNat 13 (2 ^ m.toNat) := rfl
@[simp] theorem acceptMcs_endCode (m : Byte) (r : LzwRegs) : (acceptMcs m r).endCode = BitVec.ofNat 13 (2 ^ m.toNat + 1) := rfl
@[simp] theorem acceptMcs_runningCode (m : Byte) (r : LzwRegs) : (acceptMcs m r).runningCode = BitVec.ofNat 13 (2 ^ m.toNat + 1) + 1#13 := rfl
@[simp] theorem acceptMcs_runningBits (m : Byte) (r : LzwRegs) : (acceptMcs m r).runningBits = m.setWidth 4 + 1#4 := rfl
@[simp] theorem acceptMcs_maxCode1 (m : Byte) (r : LzwRegs) : (acceptMcs m r).maxCode1 = BitVec.ofNat 13 (2 ^ ((m.setWidth 4).toNat + 1)) := rfl
@[simp] theorem acceptMcs_prevCode (m : Byte) (r : LzwRegs) : (acceptMcs m r).prevCode = Config.noSuchCode := rfl
@[simp] theorem acceptMcs_prefixTab (m : Byte) (r : LzwRegs) : (acceptMcs m r).prefixTab = Vector.replicate 4096 Config.noSuchCode := rfl
@[simp] theorem acceptMcs_suffixTab (m : Byte) (r : LzwRegs) : (acceptMcs m r).suffixTab = r.suffixTab := rfl

/-! ### advanceRunning -/

@[simp] theorem advanceRunning_mcs (r : LzwRegs) : (advanceRunning r).mcs = r.mcs := by
  unfold advanceRunning; dsimp only; split <;> rfl
@[simp] theorem advanceRunning_depth (r : LzwRegs) : (advanceRunning r).depth = r.depth := by
  unfold advanceRunning; dsimp only; split <;> rfl
@[simp] theorem advanceRunning_clearCode (r : LzwRegs) : (advanceRunning r).clearCode = r.clearCode := by
  unfold advanceRunning; dsimp only; split <;> rfl
@[simp] theorem advanceRunning_endCode (r : LzwRegs) : (advanceRunning r).endCode = r.endCode := by
  unfold advanceRunning; dsimp only; split <;> rfl
@[simp] theorem advanceRunning_prevCode (r : LzwRegs) : (advanceRunning r).prevCode = r.prevCode := by
  unfold advanceRunning; dsimp only; split <;> rfl
@[simp] theorem advanceRunning_prefixTab (r : LzwRegs) : (advanceRunning r).prefixTab = r.prefixTab := by
  unfold advanceRunning; dsimp only; split <;> rfl
@[simp] theorem advanceRunning_suffixTab (r : LzwRegs) : (advanceRunning r).suffixTab = r.suffixTab := by
  unfold advanceRunning; dsimp only; split <;> rfl
@[simp] theorem advanceRunning_runningCode (r : LzwRegs) : (advanceRunning r).runningCode = r.runningCode + 1#13 := by
  unfold advanceRunning; dsimp only; split <;> rfl

/-! ### afterRead -/

@[simp] theorem afterRead_status (s : State) : (afterRead s).status = s.status := rfl
@[simp] theorem afterRead_oper (s : State) : (afterRead s).oper = { s.oper with inPtr := s.oper.inPtr + 1#32 } := rfl
@[simp] theorem afterRead_reader (s : State) : (afterRead s).reader = s.reader := rfl
@[simp] theorem afterRead_extr (s : State) : (afterRead s).extr = s.extr := rfl
@[simp] theorem afterRead_lzw (s : State) : (afterRead s).lzw = s.lzw := rfl
@[simp] theorem afterRead_stk (s : State) : (afterRead s).stk = s.stk := rfl
@[simp] theorem afterRead_rows (s : State) : (afterRead s).rows = s.rows := rfl
@[simp] theorem afterRead_seq (s : State) : (afterRead s).seq = s.seq := rfl
@[simp] theorem afterRead_inSpace (s : State) : (afterRead s).inSpace = s.inSpace := rfl
@[simp] theorem afterRead_outSpace (s : State) : (afterRead s).outSpace = s.outSpace := rfl
@[simp] theorem afterRead_history (s : State) : (afterRead s).history = .inRead s.oper.inPtr.toNat (s.inSpace.read s.oper.inPtr.toNat) :: s.history := rfl
@[simp] theorem afterRead_agenda (s : State) : (afterRead s).agenda = s.agenda := rfl
@[simp] theorem afterRead_observations (s : State) : (afterRead s).observations = s.observations := rfl
@[simp] theorem afterRead_freeCount (s : State) : (afterRead s).freeCount = s.freeCount := rfl

/-! ### beginRow, the returns of next_chunk and afterFlush -/

@[simp] theorem beginRow_status (n : Option (Nat × Nat)) (s : State) : (beginRow n s).status = s.status := by
  cases n <;> rfl
@[simp] theorem beginRow_oper (n : Option (Nat × Nat)) (s : State) : (beginRow n s).oper = s.oper := by
  cases n <;> rfl
@[simp] theorem beginRow_reader (n : Option (Nat × Nat)) (s : State) : (beginRow n s).reader = s.reader := by
  cases n <;> rfl
@[simp] theorem beginRow_extr (n : Option (Nat × Nat)) (s : State) : (beginRow n s).extr = s.extr := by
  cases n <;> rfl
@[simp] theorem beginRow_lzw (n : Option (Nat × Nat)) (s : State) : (beginRow n s).lzw = s.lzw := by
  cases n <;> rfl
@[simp] theorem beginRow_stk (n : Option (Nat × Nat)) (s : State) : (beginRow n s).stk = s.stk := by
  cases n <;> rfl
@[simp] theorem beginRow_inSpace (n : Option (Nat × Nat)) (s : State) : (beginRow n s).inSpace = s.inSpace := by
  cases n <;> rfl
@[simp] theorem beginRow_outSpace (n : Option (Nat × Nat)) (s : State) : (beginRow n s).outSpace = s.outSpace := by
  cases n <;> rfl
@[simp] theorem beginRow_history (n : Option (Nat × Nat)) (s : State) : (beginRow n s).history = s.history := by
  cases n <;> rfl
@[simp] theorem beginRow_agenda (n : Option (Nat × Nat)) (s : State) : (beginRow n s).agenda = s.agenda := by
  cases n <;> rfl
@[simp] theorem beginRow_observations (n : Option (Nat × Nat)) (s : State) : (beginRow n s).observations = s.observations := by
  cases n <;> rfl
@[simp] theorem beginRow_freeCount (n : Option (Nat × Nat)) (s : State) : (beginRow n s).freeCount = s.freeCount := by
  cases n <;> rfl
@[simp] theorem returnNone_oper (k : ChunkCaller) (s : State) : (returnNone k s).oper = s.oper := by
  cases k <;> rfl
@[simp] theorem returnNone_reader (k : ChunkCaller) (s : State) : (returnNone k s).reader = s.reader := by
  cases k <;> rfl
@[simp] theorem returnNone_extr (k : ChunkCaller) (s : State) : (returnNone k s).extr = s.extr := by
  cases k <;> rfl
@[simp] theorem returnNone_lzw (k : ChunkCaller) (s : State) : (returnNone k s).lzw = s.lzw := by
  cases k <;> rfl
@[simp] theorem returnNone_stk (k : ChunkCaller) (s : State) : (returnNone k s).stk = s.stk := by
  cases k <;> rfl
@[simp] theorem returnNone_rows (k : ChunkCaller) (s : State) : (returnNone k s).rows = s.rows := by
  cases k <;> rfl
@[simp] theorem returnNone_inSpace (k : ChunkCaller) (s : State) : (returnNone k s).inSpace = s.inSpace := by
  cases k <;> rfl
@[simp] theorem returnNone_outSpace (k : ChunkCaller) (s : State) : (returnNone k s).outSpace = s.outSpace := by
  cases k <;> rfl
@[simp] theorem returnNone_history (k : ChunkCaller) (s : State) : (returnNone k s).history = s.history := by
  cases k <;> rfl
@[simp] theorem returnNone_agenda (k : ChunkCaller) (s : State) : (returnNone k s).agenda = s.agenda := by
  cases k <;> rfl
@[simp] theorem returnNone_observations (k : ChunkCaller) (s : State) : (returnNone k s).observations = s.observations := by
  cases k <;> rfl
@[simp] theorem returnNone_freeCount (k : ChunkCaller) (s : State) : (returnNone k s).freeCount = s.freeCount := by
  cases k <;> rfl
@[simp] theorem returnEndOfInput_status (k : ChunkCaller) (s : State) : (returnEndOfInput k s).status = s.status := by
  cases k <;> rfl
@[simp] theorem returnEndOfInput_oper (k : ChunkCaller) (s : State) : (returnEndOfInput k s).oper = s.oper := by
  cases k <;> rfl
@[simp] theorem returnEndOfInput_reader (k : ChunkCaller) (s : State) : (returnEndOfInput k s).reader = s.reader := by
  cases k <;> rfl
@[simp] theorem returnEndOfInput_extr (k : ChunkCaller) (s : State) : (returnEndOfInput k s).extr = s.extr := by
  cases k <;> rfl
@[simp] theorem returnEndOfInput_lzw (k : ChunkCaller) (s : State) : (returnEndOfInput k s).lzw = s.lzw := by
  cases k <;> rfl
@[simp] theorem returnEndOfInput_stk (k : ChunkCaller) (s : State) : (returnEndOfInput k s).stk = s.stk := by
  cases k <;> rfl
@[simp] theorem returnEndOfInput_rows (k : ChunkCaller) (s : State) : (returnEndOfInput k s).rows = s.rows := by
  cases k <;> rfl
@[simp] theorem returnEndOfInput_inSpace (k : ChunkCaller) (s : State) : (returnEndOfInput k s).inSpace = s.inSpace := by
  cases k <;> rfl
@[simp] theorem returnEndOfInput_outSpace (k : ChunkCaller) (s : State) : (returnEndOfInput k s).outSpace = s.outSpace := by
  cases k <;> rfl
@[simp] theorem returnEndOfInput_history (k : ChunkCaller) (s : State) : (returnEndOfInput k s).history = s.history := by
  cases k <;> rfl
@[simp] theorem returnEndOfInput_agenda (k : ChunkCaller) (s : State) : (returnEndOfInput k s).agenda = s.agenda := by
  cases k <;> rfl
@[simp] theorem returnEndOfInput_observations (k : ChunkCaller) (s : State) : (returnEndOfInput k s).observations = s.observations := by
  cases k <;> rfl
@[simp] theorem returnEndOfInput_freeCount (k : ChunkCaller) (s : State) : (returnEndOfInput k s).freeCount = s.freeCount := by
  cases k <;> rfl
@[simp] theorem returnChunk_status (k : ChunkCaller) (s : State) : (returnChunk k s).status = s.status := by
  cases k <;> rfl
@[simp] theorem returnChunk_oper (k : ChunkCaller) (s : State) : (returnChunk k s).oper = s.oper := by
  cases k <;> rfl
@[simp] theorem returnChunk_reader (k : ChunkCaller) (s : State) : (returnChunk k s).reader = s.reader := by
  cases k <;> rfl
@[simp] theorem returnChunk_extr (k : ChunkCaller) (s : State) : (returnChunk k s).extr = s.extr := by
  cases k <;> rfl
@[simp] theorem returnChunk_lzw (k : ChunkCaller) (s : State) : (returnChunk k s).lzw = s.lzw := by
  cases k <;> rfl
@[simp] theorem returnChunk_stk (k : ChunkCaller) (s : State) : (returnChunk k s).stk = s.stk := by
  cases k <;> rfl
@[simp] theorem returnChunk_rows (k : ChunkCaller) (s : State) : (returnChunk k s).rows = s.rows := by
  cases k <;> rfl
@[simp] theorem returnChunk_inSpace (k : ChunkCaller) (s : State) : (returnChunk k s).inSpace = s.inSpace := by
  cases k <;> rfl
@[simp] theorem returnChunk_outSpace (k : ChunkCaller) (s : State) : (returnChunk k s).outSpace = s.outSpace := by
  cases k <;> rfl
@[simp] theorem returnChunk_history (k : ChunkCaller) (s : State) : (returnChunk k s).history = s.history := by
  cases k <;> rfl
@[simp] theorem returnChunk_agenda (k : ChunkCaller) (s : State) : (returnChunk k s).agenda = s.agenda := by
  cases k <;> rfl
@[simp] theorem returnChunk_observations (k : ChunkCaller) (s : State) : (returnChunk k s).observations = s.observations := by
  cases k <;> rfl
@[simp] theorem returnChunk_freeCount (k : ChunkCaller) (s : State) : (returnChunk k s).freeCount = s.freeCount := by
  cases k <;> rfl

@[simp] theorem defineAndUpdate_status (c : CodeField) (kw : Bool) (s : State) :
    (defineAndUpdate c kw s).status = s.status := by
  unfold defineAndUpdate; dsimp only; split
  · rfl
  · split
    · rfl
    · split <;> rfl
@[simp] theorem afterFlush_status (k : FlushCaller) (s : State) : (afterFlush k s).status = s.status := by
  cases k <;> simp [afterFlush]
@[simp] theorem defineAndUpdate_oper (c : CodeField) (kw : Bool) (s : State) :
    (defineAndUpdate c kw s).oper = s.oper := by
  unfold defineAndUpdate; dsimp only; split
  · rfl
  · split
    · rfl
    · split <;> rfl
@[simp] theorem afterFlush_oper (k : FlushCaller) (s : State) : (afterFlush k s).oper = s.oper := by
  cases k <;> simp [afterFlush]
@[simp] theorem defineAndUpdate_reader (c : CodeField) (kw : Bool) (s : State) :
    (defineAndUpdate c kw s).reader = s.reader := by
  unfold defineAndUpdate; dsimp only; split
  · rfl
  · split
    · rfl
    · split <;> rfl
@[simp] theorem afterFlush_reader (k : FlushCaller) (s : State) : (afterFlush k s).reader = s.reader := by
  cases k <;> simp [afterFlush]
@[simp] theorem defineAndUpdate_extr (c : CodeField) (kw : Bool) (s : State) :
    (defineAndUpdate c kw s).extr = s.extr := by
  unfold defineAndUpdate; dsimp only; split
  · rfl
  · split
    · rfl
    · split <;> rfl
@[simp] theorem afterFlush_extr (k : FlushCaller) (s : State) : (afterFlush k s).extr = s.extr := by
  cases k <;> simp [afterFlush]
@[simp] theorem defineAndUpdate_stk (c : CodeField) (kw : Bool) (s : State) :
    (defineAndUpdate c kw s).stk = s.stk := by
  unfold defineAndUpdate; dsimp only; split
  · rfl
  · split
    · rfl
    · split <;> rfl
@[simp] theorem afterFlush_stk (k : FlushCaller) (s : State) : (afterFlush k s).stk = s.stk := by
  cases k <;> simp [afterFlush]
@[simp] theorem defineAndUpdate_rows (c : CodeField) (kw : Bool) (s : State) :
    (defineAndUpdate c kw s).rows = s.rows := by
  unfold defineAndUpdate; dsimp only; split
  · rfl
  · split
    · rfl
    · split <;> rfl
@[simp] theorem afterFlush_rows (k : FlushCaller) (s : State) : (afterFlush k s).rows = s.rows := by
  cases k <;> simp [afterFlush]
@[simp] theorem defineAndUpdate_inSpace (c : CodeField) (kw : Bool) (s : State) :
    (defineAndUpdate c kw s).inSpace = s.inSpace := by
  unfold defineAndUpdate; dsimp only; split
  · rfl
  · split
    · rfl
    · split <;> rfl
@[simp] theorem afterFlush_inSpace (k : FlushCaller) (s : State) : (afterFlush k s).inSpace = s.inSpace := by
  cases k <;> simp [afterFlush]
@[simp] theorem defineAndUpdate_outSpace (c : CodeField) (kw : Bool) (s : State) :
    (defineAndUpdate c kw s).outSpace = s.outSpace := by
  unfold defineAndUpdate; dsimp only; split
  · rfl
  · split
    · rfl
    · split <;> rfl
@[simp] theorem afterFlush_outSpace (k : FlushCaller) (s : State) : (afterFlush k s).outSpace = s.outSpace := by
  cases k <;> simp [afterFlush]
@[simp] theorem defineAndUpdate_history (c : CodeField) (kw : Bool) (s : State) :
    (defineAndUpdate c kw s).history = s.history := by
  unfold defineAndUpdate; dsimp only; split
  · rfl
  · split
    · rfl
    · split <;> rfl
@[simp] theorem afterFlush_history (k : FlushCaller) (s : State) : (afterFlush k s).history = s.history := by
  cases k <;> simp [afterFlush]
@[simp] theorem defineAndUpdate_agenda (c : CodeField) (kw : Bool) (s : State) :
    (defineAndUpdate c kw s).agenda = s.agenda := by
  unfold defineAndUpdate; dsimp only; split
  · rfl
  · split
    · rfl
    · split <;> rfl
@[simp] theorem afterFlush_agenda (k : FlushCaller) (s : State) : (afterFlush k s).agenda = s.agenda := by
  cases k <;> simp [afterFlush]
@[simp] theorem defineAndUpdate_observations (c : CodeField) (kw : Bool) (s : State) :
    (defineAndUpdate c kw s).observations = s.observations := by
  unfold defineAndUpdate; dsimp only; split
  · rfl
  · split
    · rfl
    · split <;> rfl
@[simp] theorem afterFlush_observations (k : FlushCaller) (s : State) : (afterFlush k s).observations = s.observations := by
  cases k <;> simp [afterFlush]
@[simp] theorem defineAndUpdate_freeCount (c : CodeField) (kw : Bool) (s : State) :
    (defineAndUpdate c kw s).freeCount = s.freeCount := by
  unfold defineAndUpdate; dsimp only; split
  · rfl
  · split
    · rfl
    · split <;> rfl
@[simp] theorem afterFlush_freeCount (k : FlushCaller) (s : State) : (afterFlush k s).freeCount = s.freeCount := by
  cases k <;> simp [afterFlush]

end Sys2Proof.Machine
end

