-- ==== Sys2Proof/Laws/Memory.lean ====
section
/-! SUPPORT. The laws of the byte spaces: read after write, and the canonical form every operation keeps. -/

namespace Sys2Proof.Machine

theorem cellsRead_cons (a : Nat) (v : Byte) (rest : List Host.Cell) (b : Nat)
    (hrest : a = b → cellsRead rest b = Config.unlistedByte) :
    cellsRead (cellsCons a v rest) b = if a = b then v else cellsRead rest b := by
  unfold cellsCons
  split
  · next h =>
    split
    · next hab => rw [hrest hab, h]
    · rfl
  · rfl

/-- An offset below every listed one reads as unlisted. -/
theorem cellsRead_below (cells : List Host.Cell) (b : Nat) (h : ∀ c ∈ cells, b < c.1) :
    cellsRead cells b = Config.unlistedByte := by
  induction cells with
  | nil => rfl
  | cons c rest ih =>
    have hc := h c (by simp)
    simp only [cellsRead]
    rw [if_neg (by omega)]
    exact ih fun c' hc' => h c' (by simp [hc'])

/-- Read after write, in rising cells. -/
theorem cellsRead_write (cells : List Host.Cell) (a : Nat) (v : Byte) (b : Nat)
    (hs : cells.Pairwise (fun x y => x.1 < y.1)) :
    cellsRead (cellsWrite cells a v) b = if a = b then v else cellsRead cells b := by
  induction cells with
  | nil => exact cellsRead_cons a v [] b fun _ => rfl
  | cons c rest ih =>
    rw [List.pairwise_cons] at hs
    simp only [cellsWrite]
    split
    · next hlt =>
      apply cellsRead_cons
      rintro rfl
      apply cellsRead_below
      intro c' hc'
      rcases List.mem_cons.1 hc' with rfl | hm
      · exact hlt
      · exact Nat.lt_trans hlt (hs.1 c' hm)
    · split
      · next heq =>
        rw [cellsRead_cons]
        · simp only [cellsRead, ← heq]
          split <;> simp_all
        · rintro rfl
          apply cellsRead_below
          intro c' hc'
          rw [heq]
          exact hs.1 c' hc'
      · next hne =>
        simp only [cellsRead]
        rw [ih hs.2]
        split
        · next hcb => rw [if_neg (by omega)]
        · rfl

theorem mem_cellsCons {a : Nat} {v : Byte} {rest : List Host.Cell} {c : Host.Cell} (h : c ∈ cellsCons a v rest) :
    (c = (a, v) ∧ v ≠ Config.unlistedByte) ∨ c ∈ rest := by
  unfold cellsCons at h
  split at h
  · exact .inr h
  · next hv =>
    rcases List.mem_cons.1 h with h | h
    · exact .inl ⟨h, hv⟩
    · exact .inr h

/-- Every cell of a write is the written one or an old one at another offset. -/
theorem mem_cellsWrite {cells : List Host.Cell} {a : Nat} {v : Byte} {c : Host.Cell} (h : c ∈ cellsWrite cells a v) :
    (c = (a, v) ∧ v ≠ Config.unlistedByte) ∨ c ∈ cells := by
  induction cells with
  | nil => exact mem_cellsCons h
  | cons d rest ih =>
    simp only [cellsWrite] at h
    split at h
    · exact mem_cellsCons h
    · split at h
      · exact (mem_cellsCons h).imp id fun h => by simp [h]
      · rcases List.mem_cons.1 h with rfl | h
        · exact .inr (by simp)
        · exact (ih h).imp id fun h => by simp [h]

theorem pairwise_cellsCons {a : Nat} {v : Byte} {rest : List Host.Cell} (hs : rest.Pairwise (fun x y => x.1 < y.1))
    (hb : ∀ c ∈ rest, a < c.1) : (cellsCons a v rest).Pairwise (fun x y => x.1 < y.1) := by
  unfold cellsCons
  split
  · exact hs
  · exact List.pairwise_cons.2 ⟨hb, hs⟩

/-- A write keeps the offsets rising. -/
theorem pairwise_cellsWrite {cells : List Host.Cell} {a : Nat} {v : Byte}
    (hs : cells.Pairwise (fun x y => x.1 < y.1)) : (cellsWrite cells a v).Pairwise (fun x y => x.1 < y.1) := by
  induction cells with
  | nil => exact pairwise_cellsCons hs (by simp)
  | cons d rest ih =>
    rw [List.pairwise_cons] at hs
    simp only [cellsWrite]
    split
    · next hlt =>
      apply pairwise_cellsCons (List.pairwise_cons.2 hs)
      intro c hc
      rcases List.mem_cons.1 hc with rfl | hm
      · exact hlt
      · exact Nat.lt_trans hlt (hs.1 c hm)
    · split
      · next heq =>
        apply pairwise_cellsCons hs.2
        intro c hc
        rw [heq]
        exact hs.1 c hc
      · refine List.pairwise_cons.2 ⟨fun c hc => ?_, ih hs.2⟩
        rcases mem_cellsWrite hc with ⟨rfl, -⟩ | hm
        · show d.1 < a
          omega
        · exact hs.1 c hm

@[simp] theorem Space.write_size (m : Space) (a : Nat) (v : Byte) : (m.write a v).size = m.size := rfl

/-- A byte written reads back; every other byte reads as before. -/
theorem Space.read_write {m : Space} (h : m.wf) (a : Nat) (v : Byte) (b : Nat) :
    (m.write a v).read b = if a = b then v else m.read b := cellsRead_write m.cells a v b h.1

/-- A write below the size keeps the canonical form. -/
theorem Space.write_wf {m : Space} (h : m.wf) {a : Nat} (v : Byte) (ha : a < m.size) : (m.write a v).wf := by
  refine ⟨pairwise_cellsWrite h.1, fun c hc => ?_⟩
  rcases mem_cellsWrite hc with ⟨rfl, hv⟩ | hm
  · exact ⟨ha, hv⟩
  · exact h.2 c hm

theorem cellsRead_mem {cells : List Host.Cell} (hs : cells.Pairwise (fun x y => x.1 < y.1)) {c : Host.Cell}
    (hc : c ∈ cells) : cellsRead cells c.1 = c.2 := by
  induction cells with
  | nil => cases hc
  | cons d rest ih =>
    rw [List.pairwise_cons] at hs
    simp only [cellsRead]
    rcases List.mem_cons.1 hc with rfl | hm
    · simp
    · rw [if_neg (by have := hs.1 c hm; omega), ih hs.2 hm]

theorem cellsRead_ne {cells : List Host.Cell} {a : Nat} (h : cellsRead cells a ≠ Config.unlistedByte) :
    (a, cellsRead cells a) ∈ cells := by
  induction cells with
  | nil => simp [cellsRead] at h
  | cons d rest ih =>
    simp only [cellsRead] at h ⊢
    split at h
    · next hd => simp [← hd]
    · next hd => simp only [hd, if_false]; exact List.mem_cons_of_mem _ (ih h)

/-- Canonical spaces of one size that read alike at every offset are equal data. -/
theorem Space.ext_read {m n : Space} (hm : m.wf) (hn : n.wf) (hs : m.size = n.size)
    (h : ∀ a, m.read a = n.read a) : m = n := by
  have sub : ∀ {p q : Space}, p.wf → (∀ a, p.read a = q.read a) → ∀ c ∈ p.cells, c ∈ q.cells := by
    intro p q hp hpq c hc
    have h1 : cellsRead p.cells c.1 = c.2 := cellsRead_mem hp.1 hc
    have h2 : cellsRead q.cells c.1 = c.2 := by rw [← h1]; exact (hpq c.1).symm
    have h3 := cellsRead_ne (cells := q.cells) (a := c.1) (by rw [h2]; exact (hp.2 c hc).2)
    rw [h2] at h3
    exact h3
  have hcells : m.cells = n.cells := by
    apply List.Perm.eq_of_pairwise (le := fun x y => x.1 < y.1) _ hm.1 hn.1
    · apply (List.perm_ext_iff_of_nodup _ _).2
      · exact fun c => ⟨sub hm h c, sub hn (fun a => (h a).symm) c⟩
      · exact hm.1.imp fun hlt heq => by simp [heq] at hlt
      · exact hn.1.imp fun hlt heq => by simp [heq] at hlt
    · intro x y _ _ h1 h2
      omega
  cases m; cases n; simp_all

/-- What a block write does: admitted, it changes one byte of OUT and records itself; else there is no step (R38). -/
theorem outWrite_next {a : Nat} {v : Byte} {s t : State} (h : outWrite a v s = .next t) :
    a < s.outSpace.size ∧
      t = { s with outSpace := s.outSpace.write a v, history := .outWrite a v :: s.history } := by
  unfold outWrite at h
  split at h
  · next ha => exact ⟨ha, by cases h; rfl⟩
  · cases h

theorem outWrite_eq {a : Nat} {v : Byte} {s : State} (h : a < s.outSpace.size) :
    outWrite a v s = .next { s with outSpace := s.outSpace.write a v, history := .outWrite a v :: s.history } := by
  simp [outWrite, h]

theorem inRead_eq {s : State} {k : Byte → State → Result} (h : s.oper.inPtr.toNat < s.inSpace.size) :
    inRead s k = k (s.inSpace.read s.oper.inPtr.toNat) (afterRead s) := by
  simp [inRead, h]

/-- What a block read does: admitted, it goes on with the byte at IN_PTR; else there is no step (R38). -/
theorem inRead_next {s t : State} {k : Byte → State → Result} (h : inRead s k = .next t) :
    s.oper.inPtr.toNat < s.inSpace.size ∧ k (s.inSpace.read s.oper.inPtr.toNat) (afterRead s) = .next t := by
  unfold inRead at h
  split at h
  · next ha => exact ⟨ha, h⟩
  · cases h

theorem andThen_next {r : Result} {k : State → Result} {t : State} (h : andThen r k = .next t) :
    ∃ s, r = .next s ∧ k s = .next t := by
  cases r with
  | next s => exact ⟨s, rfl, h⟩
  | fault f => cases h
  | refused f => cases h

@[simp] theorem andThen_of_next (s : State) (k : State → Result) : andThen (.next s) k = k s := rfl

/-- What `emit` does (R109). -/
theorem emitPixel_next {v : Byte} {s t : State} (h : emitPixel v s = .next t) :
    pixelOffset s < s.outSpace.size ∧
      t = pixelDone
        { s with
          outSpace := s.outSpace.write (pixelOffset s) v, history := .outWrite (pixelOffset s) v :: s.history } := by
  obtain ⟨u, hu, hk⟩ := andThen_next h
  obtain ⟨ha, rfl⟩ := outWrite_next hu
  exact ⟨ha, by cases hk; rfl⟩

theorem emitPixel_eq {v : Byte} {s : State} (h : pixelOffset s < s.outSpace.size) :
    emitPixel v s = .next (pixelDone
      { s with
        outSpace := s.outSpace.write (pixelOffset s) v, history := .outWrite (pixelOffset s) v :: s.history }) := by
  simp [emitPixel, outWrite_eq h]

end Sys2Proof.Machine
end

