-- ==== Sys2Proof/Laws/Step.lean ====
section
/-! SUPPORT. What one step can do, said once: whose move it is, and what the block's move is at each position. -/

namespace Sys2Proof.Machine

/-- The block moves from `s` itself, but for the agenda. -/
theorem BlockMoves.eq {s s' : State} (h : BlockMoves s s') : s' = { s with agenda := s'.agenda } := by
  cases h <;> rfl

/-- Where the block moves next, a step is the block's move. -/
theorem BlockMoves.step {s s' : State} (h : BlockMoves s s') : step s = blockStep s' := by
  cases h with
  | inside h => simp [Machine.step, h]
  | noTurns h => simp [Machine.step, takeTurn, h]
  | itsTurn rest hb h => simp [Machine.step, takeTurn, h, hb]
  | waited rest h hb => simp [Machine.step, takeTurn, h, hb]

/-- No step at all. -/
theorem Reaches.refl (s : State) : Reaches s s := ⟨0, rfl⟩

/-- One step, and then some. -/
theorem Reaches.head {s u t : State} (h : Machine.step s = .next u) (ht : Reaches u t) : Reaches s t := by
  obtain ⟨n, hn⟩ := ht
  exact ⟨n + 1, by simp only [Host.Core.run, show Sys2Proof.core.step s = _ from h]; exact hn⟩

/-- One step. -/
theorem Reaches.single {s t : State} (h : Machine.step s = .next t) : Reaches s t := .head h (.refl t)

theorem Reaches.trans {s u t : State} (hu : Reaches s u) (ht : Reaches u t) : Reaches s t := by
  obtain ⟨n, hn⟩ := hu
  induction n generalizing s with
  | zero => cases hn; exact ht
  | succ n ih =>
    simp only [Host.Core.run] at hn
    split at hn
    · next v hv => exact .head hv (ih hn)
    · cases hn
    · cases hn

/-- With no turn pending, a step is the block's move. -/
theorem step_noTurns {s : State} (h : s.agenda = []) : Machine.step s = blockStep s := (BlockMoves.noTurns h).step

/-- With an access of the host pending at a boundary, a step is that access. -/
theorem step_host {s : State} {a : HostAccess} {rest : List Turn} (hb : s.atBoundary = true)
    (h : s.agenda = .host a :: rest) : Machine.step s = hostStep a { s with agenda := rest } := by
  unfold Machine.step takeTurn
  rw [if_pos hb, h]

/-- With a reset pending at a boundary, a step is the reset. -/
theorem step_reset {s : State} {rest : List Turn} (hb : s.atBoundary = true) (h : s.agenda = .reset :: rest) :
    Machine.step s = .next (resetBlock { s with agenda := rest }) := by
  unfold Machine.step takeTurn
  rw [if_pos hb, h]

/-- A whole, aligned register access in the window goes through. -/
theorem wholeAccess_eq {off : Nat} (h4 : off % 4 = 0) (h : off < 256) (r : Result) : wholeAccess 32 off r = r := by
  unfold wholeAccess
  rw [if_neg (by omega), if_neg (by omega)]

/-- Everything a step that answers a next state can be: a move of the block, an access of the host, a wait that is over, or
a reset. -/
theorem step_cases {s t : State} (h : step s = .next t) :
    (∃ s', BlockMoves s s' ∧ blockStep s' = .next t) ∨
    (∃ a rest, s.atBoundary = true ∧ s.agenda = .host a :: rest ∧ hostStep a { s with agenda := rest } = .next t) ∨
    (∃ rest, s.agenda = .wait :: rest ∧ s.status.busy = false ∧ t = { s with agenda := rest }) ∨
    (∃ rest, s.atBoundary = true ∧ s.agenda = .reset :: rest ∧ t = resetBlock { s with agenda := rest }) := by
  unfold step at h
  split at h
  · next hb =>
    unfold takeTurn at h
    split at h
    · next ha => exact .inl ⟨s, .noTurns ha, h⟩
    · next rest ha => exact .inl ⟨_, .itsTurn rest hb ha, h⟩
    · next a rest ha => exact .inr (.inl ⟨a, rest, hb, ha, h⟩)
    · next rest ha =>
      split at h
      · next hbusy => exact .inl ⟨s, .waited rest ha hbusy, h⟩
      · next hbusy => exact .inr (.inr (.inl ⟨rest, ha, by simpa using hbusy, by cases h; rfl⟩))
    · next rest ha => exact .inr (.inr (.inr ⟨rest, hb, ha, by cases h; rfl⟩))
  · next hb => exact .inl ⟨s, .inside (by simpa using hb), h⟩

/-- An access of the host that answers a next state: what it changes. -/
theorem hostStep_cases {a : HostAccess} {s t : State} (h : hostStep a s = .next t) :
    (∃ v, a = .regWrite 32 0 v ∧ exec (decodeCommand v) s = .next t) ∨
    (∃ off v, a = .regWrite 32 off v ∧ off % 4 = 0 ∧ off < 256 ∧ off ≠ 0 ∧ s.status.busy = true ∧ t = s) ∨
    (∃ off v, a = .regWrite 32 off v ∧ off % 4 = 0 ∧ off < 256 ∧ off ≠ 0 ∧ s.status.busy = false ∧
      t = { s with oper := writeOperand off v s.oper }) ∨
    (∃ o, t = observe o s) ∨
    (∃ off b, a = .inWrite off b ∧ off < s.inSpace.size ∧ t = { s with inSpace := s.inSpace.write off b }) ∨
    (∃ off b, a = .outWrite off b ∧ off < s.outSpace.size ∧ t = { s with outSpace := s.outSpace.write off b }) := by
  cases a with
  | regWrite width off v =>
    simp only [hostStep, wholeAccess] at h
    split at h
    · cases h
    · next hw =>
      split at h
      · cases h
      · next ho =>
        have hw32 : width = 32 := by omega
        subst hw32
        unfold regWrite at h
        split at h
        · next h0 => subst h0; exact .inl ⟨v, rfl, h⟩
        · next h0 =>
          split at h
          · next hb => exact .inr (.inl ⟨off, v, rfl, by omega, by omega, h0, hb, by cases h; rfl⟩)
          · next hb =>
            exact .inr (.inr (.inl ⟨off, v, rfl, by omega, by omega, h0, by simpa using hb, by cases h; rfl⟩))
  | regRead width off =>
    simp only [hostStep, wholeAccess] at h
    split at h
    · cases h
    · split at h
      · cases h
      · exact .inr (.inr (.inr (.inl ⟨_, by cases h; rfl⟩)))
  | inWrite off b =>
    simp only [hostStep] at h
    split at h
    · next ho => exact .inr (.inr (.inr (.inr (.inl ⟨off, b, rfl, ho, by cases h; rfl⟩))))
    · cases h
  | inRead off =>
    simp only [hostStep] at h
    split at h
    · exact .inr (.inr (.inr (.inl ⟨_, by cases h; rfl⟩)))
    · cases h
  | outWrite off b =>
    simp only [hostStep] at h
    split at h
    · next ho => exact .inr (.inr (.inr (.inr (.inr ⟨off, b, rfl, ho, by cases h; rfl⟩))))
    · cases h
  | outRead off =>
    simp only [hostStep] at h
    split at h
    · exact .inr (.inr (.inr (.inl ⟨_, by cases h; rfl⟩)))
    · cases h

/-- Every command word's meaning answers a next state: a rejection, or an acceptance while BUSY = 0 (R54, R70). -/
theorem exec_decodeCommand (w : Word) (s : State) :
    exec (decodeCommand w) s = .next (rejectCommand s) ∨
      s.status.busy = false ∧ ∃ c, exec (decodeCommand w) s = .next (acceptCommand c s) := by
  have key : ∀ c, presentCommand c s = rejectCommand s ∨
      s.status.busy = false ∧ presentCommand c s = acceptCommand c s := by
    intro c
    unfold presentCommand
    split
    · exact .inl rfl
    · next hb => exact .inr ⟨by simpa using hb, rfl⟩
  have acc : ∀ c, (Host.Outcome.next (presentCommand c s) : Result) = .next (rejectCommand s) ∨
      s.status.busy = false ∧ ∃ c', (Host.Outcome.next (presentCommand c s) : Result) = .next (acceptCommand c' s) := by
    intro c
    rcases key c with hc | ⟨hb, hc⟩
    · exact .inl (by rw [hc])
    · exact .inr ⟨hb, c, by rw [hc]⟩
  unfold decodeCommand commandOf
  split
  · exact acc .nop
  · exact acc .decodeImage
  · exact acc .sbOpen
  · exact acc .sbNextChunk
  all_goals exact .inl rfl

/-- While BUSY = 1 every command word is rejected (R70). -/
theorem exec_decodeCommand_busy (w : Word) {s : State} (h : s.status.busy = true) :
    exec (decodeCommand w) s = .next (rejectCommand s) := by
  rcases exec_decodeCommand w s with h' | ⟨hb, _⟩
  · exact h'
  · simp [h] at hb

end Sys2Proof.Machine
end

