-- ==== Sys2Proof/Laws/Block.lean ====
section
/-! SUPPORT. The block's move at each sequencer position, one lemma for each way it can go, so that no later proof unfolds
`blockStep`. -/

namespace Sys2Proof.Machine

/-- The input is at end (R21). -/
theorem inAtEnd_iff (s : State) : s.inAtEnd = true ↔ s.oper.inEnd.toNat ≤ s.oper.inPtr.toNat := by
  simp [State.inAtEnd]

theorem inAtEnd_false_iff (s : State) : s.inAtEnd = false ↔ s.oper.inPtr.toNat < s.oper.inEnd.toNat := by
  simp [State.inAtEnd]

/-- Before the end of the input IN_PTR does not wrap (R79). -/
theorem inPtr_succ {s : State} (h : s.oper.inPtr.toNat < s.oper.inEnd.toNat) :
    (s.oper.inPtr + 1#32).toNat = s.oper.inPtr.toNat + 1 := by
  have := s.oper.inEnd.isLt
  rw [BitVec.toNat_add]
  simp
  omega

theorem mcsLegal_iff (m : Byte) : mcsLegal m = true ↔ 1 ≤ m.toNat ∧ m.toNat ≤ 8 := decide_eq_true_iff

theorem mcsLegal_false_iff (m : Byte) : mcsLegal m = false ↔ m.toNat < 1 ∨ 8 < m.toNat := by
  rw [← Bool.not_eq_true, mcsLegal_iff]
  omega

/-! ### Commands -/

theorem presentCommand_idle (c : Command) {s : State} (h : s.status.busy = false) :
    presentCommand c s = acceptCommand c s := by simp [presentCommand, h]

theorem presentCommand_busy (c : Command) {s : State} (h : s.status.busy = true) :
    presentCommand c s = rejectCommand s := by simp [presentCommand, h]

theorem blockStep_idle {s : State} (h : s.seq = .idle) : blockStep s = .next s := by simp [blockStep, h]

theorem blockStep_finish {s : State} (h : s.seq = .finish) : blockStep s = .next (finishOk s) := by
  simp [blockStep, h]

theorem blockStep_raising {s : State} {e : BlockError} (h : s.seq = .raising e) :
    blockStep s = .next (raiseError e s) := by simp [blockStep, h]

theorem blockStep_start_nop {s : State} (h : s.seq = .start .nop) : blockStep s = .next (finishOk s) := by
  simp [blockStep, h, startStep]

theorem blockStep_start_sbOpen {s : State} (h : s.seq = .start .sbOpen) :
    blockStep s = .next (finishOk (openReader s)) := by simp [blockStep, h, startStep]

/-- SB_NEXT_CHUNK in the terminal state (R74, R82). -/
theorem blockStep_start_chunk_term {s : State} (h : s.seq = .start .sbNextChunk) (ht : s.reader.sbTerm = true) :
    blockStep s = .next (finishOk s) := by simp [blockStep, h, startStep, ht]

/-- SB_NEXT_CHUNK at the end of the input (R74). -/
theorem blockStep_start_chunk_end {s : State} (h : s.seq = .start .sbNextChunk) (ht : s.reader.sbTerm = false)
    (he : s.inAtEnd = true) : blockStep s = .next (raiseError .noLengthInNextChunk s) := by
  simp [blockStep, h, startStep, ht, he]

/-- SB_NEXT_CHUNK reads a length byte (R74, R80). -/
theorem blockStep_start_chunk_byte {s : State} (h : s.seq = .start .sbNextChunk) (ht : s.reader.sbTerm = false)
    (he : s.inAtEnd = false) (hs : s.oper.inPtr.toNat < s.inSpace.size) :
    blockStep s =
      exec (decodeLength (s.inSpace.read s.oper.inPtr.toNat)) (afterRead { s with seq := .nextChunk .command }) := by
  simp [blockStep, h, startStep, ht, he, lengthStep, inRead, hs]

/-- DECODE_IMAGE at the end of the input (R75, R88). -/
theorem blockStep_start_decode_end {s : State} (h : s.seq = .start .decodeImage) (he : s.inAtEnd = true) :
    blockStep s = .next (raiseError .noMcsByte (beginDecode s)) := by simp [blockStep, h, startStep, he]

/-- DECODE_IMAGE reads its minimum code size (R75, R88). -/
theorem blockStep_start_decode_byte {s : State} (h : s.seq = .start .decodeImage) (he : s.inAtEnd = false)
    (hs : s.oper.inPtr.toNat < s.inSpace.size) :
    blockStep s = exec (.mcs (s.inSpace.read s.oper.inPtr.toNat)) (afterRead (beginDecode s)) := by
  simp only [blockStep, h, startStep, he, Bool.false_eq_true, if_false]
  exact inRead_eq (s := beginDecode s) hs

/-! ### The sub-block reader -/

theorem blockStep_nextChunk_term {s : State} {k : ChunkCaller} (h : s.seq = .nextChunk k)
    (ht : s.reader.sbTerm = true) : blockStep s = .next (returnNone k s) := by
  simp [blockStep, h, nextChunkStep, ht]

theorem blockStep_nextChunk_end {s : State} {k : ChunkCaller} (h : s.seq = .nextChunk k)
    (ht : s.reader.sbTerm = false) (he : s.inAtEnd = true) : blockStep s = .next (returnEndOfInput k s) := by
  simp [blockStep, h, nextChunkStep, ht, he]

theorem blockStep_nextChunk_byte {s : State} {k : ChunkCaller} (h : s.seq = .nextChunk k)
    (ht : s.reader.sbTerm = false) (he : s.inAtEnd = false) (hs : s.oper.inPtr.toNat < s.inSpace.size) :
    blockStep s = exec (decodeLength (s.inSpace.read s.oper.inPtr.toNat)) (afterRead s) := by
  simp [blockStep, h, nextChunkStep, ht, he, lengthStep, inRead, hs]

theorem blockStep_payload_read {s : State} {k : ChunkCaller} (h : s.seq = .payload k)
    (hl : s.reader.chunkLen.toNat < s.reader.chunkDecl.toNat) (he : s.inAtEnd = false)
    (hs : s.oper.inPtr.toNat < s.inSpace.size) :
    blockStep s = .next (storePayload (s.inSpace.read s.oper.inPtr.toNat) (afterRead s)) := by
  simp [blockStep, h, payloadStep, hl, he, inRead, hs]

theorem blockStep_payload_short {s : State} {k : ChunkCaller} (h : s.seq = .payload k)
    (hl : s.reader.chunkLen.toNat < s.reader.chunkDecl.toNat) (he : s.inAtEnd = true) :
    blockStep s = .next (returnChunk k { s with reader := { s.reader with sbShort := true } }) := by
  simp [blockStep, h, payloadStep, hl, he]

theorem blockStep_payload_whole {s : State} {k : ChunkCaller} (h : s.seq = .payload k)
    (hl : s.reader.chunkDecl.toNat ≤ s.reader.chunkLen.toNat) : blockStep s = .next (returnChunk k s) := by
  simp [blockStep, h, payloadStep, Nat.not_lt.2 hl]

theorem blockStep_copy_write {s : State} {i : Nat} (h : s.seq = .copyOut i) (hi : i < s.reader.chunkLen.toNat)
    (h255 : i < 255) (hs : i < s.outSpace.size) :
    blockStep s = .next
      { s with
        outSpace := s.outSpace.write i s.reader.chunkBuf[i]
        history := .outWrite i s.reader.chunkBuf[i] :: s.history
        reader := { s.reader with chunkPos := BitVec.ofNat 8 (i + 1) }
        seq := .copyOut (i + 1) } := by
  simp [blockStep, h, copyStep, hi, h255, outWrite, hs]

theorem blockStep_copy_done {s : State} {i : Nat} (h : s.seq = .copyOut i) (hi : s.reader.chunkLen.toNat ≤ i) :
    blockStep s = .next { s with seq := .finish } := by
  simp [blockStep, h, copyStep, Nat.not_lt.2 hi]

/-! ### The extractor -/

theorem blockStep_fetch_next {s : State} (h : s.seq = .fetch) (hw : s.extr.shiftState.toNat < s.lzw.runningBits.toNat)
    (hp : s.reader.chunkPos = s.reader.chunkLen) : blockStep s = .next { s with seq := .nextChunk .extractor } := by
  simp [blockStep, h, fetchStep, hw, hp]

theorem blockStep_fetch_byte {s : State} (h : s.seq = .fetch) (hw : s.extr.shiftState.toNat < s.lzw.runningBits.toNat)
    (hp : s.reader.chunkPos ≠ s.reader.chunkLen) (h255 : s.reader.chunkPos.toNat < 255) :
    blockStep s = .next
      { s with
        extr := takeByte s.extr s.reader.chunkBuf[s.reader.chunkPos.toNat]
        reader := { s.reader with chunkPos := s.reader.chunkPos + 1#8 } } := by
  simp [blockStep, h, fetchStep, hw, hp, h255]

theorem blockStep_fetch_code {s : State} (h : s.seq = .fetch) (hw : s.lzw.runningBits.toNat ≤ s.extr.shiftState.toNat) :
    blockStep s = .next
      { s with
        extr := dropCode s.extr s.lzw.runningBits.toNat
        lzw := advanceRunning s.lzw
        status := { s.status with phase := .streaming }
        seq := .process (codeBits s.extr s.lzw.runningBits.toNat) } := by
  simp [blockStep, h, fetchStep, Nat.not_lt.2 hw]

theorem blockStep_process {s : State} {c : Code} (h : s.seq = .process c) :
    blockStep s = exec (decodeCode s.codeContext c) s := by simp [blockStep, h]

/-! ### Rows -/

theorem blockStep_firstRow {s : State} (h : s.seq = .firstRow) :
    blockStep s = .next (beginRow (firstRowOf s.oper.interlace s.oper.height.toNat) s) := by simp [blockStep, h]

theorem blockStep_nextRow {s : State} (h : s.seq = .nextRow) :
    blockStep s =
      .next (beginRow (nextRowOf s.oper.interlace s.oper.height.toNat s.rows.pass.toNat s.rows.row.toNat) s) := by
  simp [blockStep, h]

theorem blockStep_rowLoop {s : State} (h : s.seq = .rowLoop) :
    blockStep s = .next { s with seq := if s.rows.col.toNat < s.oper.width.toNat then .fetch else .nextRow } := by
  simp [blockStep, h]

/-- `flush` pops a byte while the stack has one and the row needs one (R110). -/
theorem blockStep_flush_pop {s : State} {k : FlushCaller} (h : s.seq = .flush k) (hp : 0 < s.stk.stackPtr.toNat)
    (hb : s.stk.stackPtr.toNat ≤ 4098) (hc : s.rows.col.toNat < s.oper.width.toNat) :
    blockStep s = .next
      { s with
        stk := { s.stk with stackPtr := s.stk.stackPtr - 1#13 }
        seq := .emit s.stk.stack[s.stk.stackPtr.toNat - 1] k } := by
  simp [blockStep, h, flushStep, hp, hc, StackRegs.pop, hb]

theorem blockStep_flush_done {s : State} {k : FlushCaller} (h : s.seq = .flush k)
    (hd : s.stk.stackPtr.toNat = 0 ∨ s.oper.width.toNat ≤ s.rows.col.toNat) :
    blockStep s = .next (afterFlush k s) := by
  simp only [blockStep, h, flushStep]
  rw [if_neg (by omega)]

theorem blockStep_emit {s : State} {v : Byte} {k : FlushCaller} (h : s.seq = .emit v k)
    (hs : pixelOffset s < s.outSpace.size) :
    blockStep s = .next
      { s with
        outSpace := s.outSpace.write (pixelOffset s) v
        history := .outWrite (pixelOffset s) v :: s.history
        rows := { s.rows with col := s.rows.col + 1#16, pixRemain := s.rows.pixRemain - 1#32 }
        seq := .flush k } := by
  simp [blockStep, h, emitStep, emitPixel_eq hs, pixelDone]

theorem blockStep_startDrain {s : State} (h : s.seq = .startDrain) : blockStep s = .next (drainStart s) := by
  simp [blockStep, h]

end Sys2Proof.Machine
end

