-- ==== Sys2Proof/Laws/Decode.lean ====
section
/-! SUPPORT. The decoder: the fields of a command word, and what each code class says of its code (R61). -/

namespace Sys2Proof

theorem cmdCode_cmdWord (code : BitVec 4) (ignored : BitVec 28) : cmdCode (cmdWord code ignored) = code := by
  apply BitVec.eq_of_getLsbD_eq
  intro i hi
  rw [cmdCode, cmdWord, BitVec.getLsbD_extractLsb', BitVec.getLsbD_append]
  simp [hi]

theorem cmdIgnored_cmdWord (code : BitVec 4) (ignored : BitVec 28) : cmdIgnored (cmdWord code ignored) = ignored := by
  apply BitVec.eq_of_getLsbD_eq
  intro i hi
  rw [cmdIgnored, cmdWord, BitVec.getLsbD_extractLsb', BitVec.getLsbD_append]
  simp [hi]

/-- A command word is its two fields. -/
theorem cmdWord_fields (word : Word) : cmdWord (cmdCode word) (cmdIgnored word) = word := by
  apply BitVec.eq_of_getLsbD_eq
  intro i hi
  rw [cmdWord, cmdCode, cmdIgnored, BitVec.getLsbD_append, BitVec.getLsbD_extractLsb', BitVec.getLsbD_extractLsb']
  by_cases h : i < 4
  · simp [h]
  · simp [h, show 4 + (i - 4) = i by omega]
    omega

theorem decodeCommand_cmdWord (code : BitVec 4) (ignored : BitVec 28) :
    decodeCommand (cmdWord code ignored) = commandOf code.toNat ignored := by
  rw [decodeCommand, cmdCode_cmdWord, cmdIgnored_cmdWord]

theorem encode_commandOf (code : BitVec 4) (ignored : BitVec 28) :
    encode (commandOf code.toNat ignored) = .cmdw (cmdWord code ignored) := by
  rcases code with ⟨⟨n, hn⟩⟩
  interval_cases n <;> rfl

theorem decodeLength_of_ne {byte : Byte} (h : byte ≠ 0#8) : decodeLength byte = .sbLen byte := if_neg h

/-- A code has one of the six classes (R61). -/
theorem decodeCode_class (cc : CodeContext) (c : Code) :
    decodeCode cc c ∈ [Instr.lzwEnd c, .lzwClear c, .lzwLiteral c, .lzwKnown c, .lzwKwkwk c, .lzwInvalid c] := by
  unfold decodeCode
  repeat' split
  all_goals simp

theorem decodeCode_literal {cc : CodeContext} {c : Code} (h : decodeCode cc c = .lzwLiteral c) :
    c.toNat < cc.clearCode.toNat := by
  unfold decodeCode at h
  repeat' split at h
  all_goals first | assumption | cases h

theorem decodeCode_known {cc : CodeContext} {c : Code} (h : decodeCode cc c = .lzwKnown c) :
    cc.clearCode.toNat < c.toNat ∧ c.toNat ≠ cc.endCode.toNat ∧ cc.prefixTab[c.toNat] ≠ Config.noSuchCode := by
  unfold decodeCode at h
  repeat' split at h
  all_goals first | exact ⟨by omega, by omega, by assumption⟩ | cases h

theorem decodeCode_kwkwk {cc : CodeContext} {c : Code} (h : decodeCode cc c = .lzwKwkwk c) :
    cc.clearCode.toNat < c.toNat ∧ c.toNat ≠ cc.endCode.toNat ∧ cc.prefixTab[c.toNat] = Config.noSuchCode ∧
      c.toNat + 2 = cc.runningCode.toNat := by
  unfold decodeCode at h
  repeat' split at h
  all_goals first | exact ⟨by omega, by omega, by simpa using ‹¬_ ≠ _›, by assumption⟩ | cases h

end Sys2Proof
end

