-- ==== Sys2Proof/Laws/Flags.lean ====
section
/-! SUPPORT. Which word stands at which offset of the register window (R14). -/

namespace Sys2Proof.Machine

theorem regWord_cmd (s : State) : regWord s 0x00 = 0#32 := rfl
theorem regWord_status (s : State) : regWord s 0x04 = statusWord s := rfl
theorem regWord_errInfo (s : State) : regWord s 0x08 = errInfoWord s := rfl
theorem regWord_geom (s : State) : regWord s 0x0C = geomWord s := rfl
theorem regWord_mode (s : State) : regWord s 0x10 = modeWord s := rfl
theorem regWord_inPtr (s : State) : regWord s 0x14 = s.oper.inPtr := rfl
theorem regWord_inEnd (s : State) : regWord s 0x18 = s.oper.inEnd := rfl
theorem regWord_chunk (s : State) : regWord s 0x1C = chunkWord s := rfl
theorem regWord_lzwCfg (s : State) : regWord s 0x20 = lzwCfgWord s := rfl
theorem regWord_lzwCodes (s : State) : regWord s 0x24 = lzwCodesWord s := rfl
theorem regWord_lzwRun (s : State) : regWord s 0x28 = lzwRunWord s := rfl
theorem regWord_lzwMax (s : State) : regWord s 0x2C = lzwMaxWord s := rfl
theorem regWord_lzwPrev (s : State) : regWord s 0x30 = lzwPrevWord s := rfl
theorem regWord_stack (s : State) : regWord s 0x34 = stackWord s := rfl
theorem regWord_shiftAcc (s : State) : regWord s 0x38 = s.extr.shiftAcc := rfl
theorem regWord_shiftState (s : State) : regWord s 0x3C = shiftStateWord s := rfl
theorem regWord_rowPos (s : State) : regWord s 0x40 = rowPosWord s := rfl
theorem regWord_col (s : State) : regWord s 0x44 = colWord s := rfl
theorem regWord_pixRemain (s : State) : regWord s 0x48 = s.rows.pixRemain := rfl

theorem regWord_reserved (s : State) {off : Nat} (h : 0x4C ≤ off) : regWord s off = 0#32 := by
  unfold regWord
  repeat' rw [if_neg (by omega)]

end Sys2Proof.Machine
end

