-- ==== Sys2Proof/Laws/Stack.lean ====
section
/-! SUPPORT. The output stack and the chain walks: a push appends, a pop takes the last byte, and a walk from a code that has
a string (R101) pushes that string, or answers its first byte. -/

namespace Sys2Proof.Machine

/-! ### The stack (R33) -/

/-- A push below the capacity appends its byte. -/
theorem StackRegs.push_eq {k : StackRegs} (v : Byte) (h : k.stackPtr.toNat < 4098) :
    ∃ k', k.push v = some k' ∧ k'.stackPtr.toNat = k.stackPtr.toNat + 1 ∧
      k'.stack.toList.take k'.stackPtr.toNat = k.stack.toList.take k.stackPtr.toNat ++ [v] := by
  refine ⟨_, by simp [StackRegs.push, h]; rfl, ?_, ?_⟩
  · simp
    omega
  · have e : (k.stackPtr + 1#13).toNat = k.stackPtr.toNat + 1 := by simp; omega
    dsimp only
    rw [e, Vector.toList_set, List.take_succ_eq_append_getElem (by simpa using h)]
    rw [List.take_set, List.set_eq_of_length_le (by simp)]
    simp

theorem StackRegs.push_some {k k' : StackRegs} {v : Byte} (h : k.push v = some k') :
    k.stackPtr.toNat < 4098 ∧ k'.stackPtr.toNat = k.stackPtr.toNat + 1 ∧
      k'.stack.toList.take k'.stackPtr.toNat = k.stack.toList.take k.stackPtr.toNat ++ [v] := by
  have hp : k.stackPtr.toNat < 4098 := by
    unfold StackRegs.push at h
    split at h
    · assumption
    · cases h
  obtain ⟨k2, h2, r⟩ := push_eq v hp
  rw [h] at h2
  cases h2
  exact ⟨hp, r⟩

/-- The bytes of the stack, entry by entry. -/
theorem StackRegs.bytes_forall (k : StackRegs) (hb : k.stackPtr.toNat ≤ 4098) (P : Byte → Prop) :
    (∀ i (h : i < 4098), i < k.stackPtr.toNat → P k.stack[i]) ↔ ∀ v ∈ k.stack.toList.take k.stackPtr.toNat, P v := by
  constructor
  · intro h v hv
    obtain ⟨i, hi, rfl⟩ := List.mem_iff_getElem.1 hv
    simp only [List.length_take, Vector.length_toList] at hi
    have := h i (by omega) (by omega)
    simpa using this
  · intro h i hi hp
    apply h
    refine List.mem_iff_getElem.2 ⟨i, by simp; omega, by simp⟩

/-! ### Strings (R101) -/

theorem Spells.length_pos {r : LzwRegs} {c : CodeField} {w : List Byte} (h : Spells r c w) : 0 < w.length := by
  cases h <;> simp

/-- A string is never empty. -/
theorem Spells.cons {r : LzwRegs} {c : CodeField} {w : List Byte} (h : Spells r c w) : ∃ b v, w = b :: v := by
  cases w with
  | nil => exact absurd h.length_pos (by simp)
  | cons b v => exact ⟨b, v, rfl⟩

/-- A code has one string. -/
theorem Spells.unique {r : LzwRegs} {c : CodeField} {w v : List Byte} (h : Spells r c w) (h' : Spells r c v) : w = v := by
  induction h generalizing v with
  | literal c hc =>
    cases h' with
    | literal _ _ => rfl
    | entry _ w hc' _ _ => omega
  | entry c w hc hb _ ih =>
    cases h' with
    | literal _ hc' => omega
    | entry _ w' _ _ hw' => rw [ih hw']

/-- The string of an entry, from the string of its prefix. -/
theorem Spells.of_entry {r : LzwRegs} {c : CodeField} {w : List Byte} {v : Byte} (hc : r.clearCode.toNat < c.toNat)
    (hb : c.toNat < 4096) (h : Spells r r.prefixTab[c.toNat] w) (hv : r.suffixTab[c.toNat] = v) :
    Spells r c (w ++ [v]) := hv ▸ .entry c w hc hb h

/-! ### Walks (R98, R99) -/

theorem walkTail_literal {clear c : CodeField} (h : c.toNat < clear.toNat) : walkTail clear c = .ok c := by
  unfold walkTail
  rw [if_neg]
  rintro rfl
  omega

theorem walkTail_ok {clear c v : CodeField} (hle : c.toNat ≤ clear.toNat) (h : walkTail clear c = .ok v) :
    v = c ∧ c.toNat < clear.toNat := by
  unfold walkTail at h
  split at h
  · cases h
  · next hne =>
    cases h
    have : c.toNat ≠ clear.toNat := fun e => hne (BitVec.eq_of_toNat_eq e)
    exact ⟨rfl, by omega⟩

/-- A walk over a literal ends at once. -/
theorem traceFrom_literal {clear c : CodeField} {tab : Vector CodeField 4096} (n : Nat) (h : c.toNat < clear.toNat) :
    traceFrom clear tab n c = .ok c := by
  cases n <;> simp only [traceFrom] <;> rw [if_pos (Nat.le_of_lt h), walkTail_literal h]

/-- A walk over an entry goes to its prefix. -/
theorem traceFrom_entry {clear c : CodeField} {tab : Vector CodeField 4096} (n : Nat) (hc : clear.toNat < c.toNat)
    (hb : c.toNat < 4096) : traceFrom clear tab (n + 1) c = traceFrom clear tab n tab[c.toNat] := by
  simp only [traceFrom]
  rw [if_neg (Nat.not_le.2 hc), dif_pos hb]

/-- A walk at a value above the table ends with CorruptTable 3. -/
theorem traceFrom_range {clear c : CodeField} {tab : Vector CodeField 4096} (n : Nat) (hc : clear.toNat < c.toNat)
    (hb : 4095 < c.toNat) : traceFrom clear tab n c = .error (.walkRange c) := by
  cases n with
  | zero => simp only [traceFrom]; rw [if_neg (Nat.not_le.2 hc), if_pos (show Config.maxCode < _ from hb)]
  | succ n => simp only [traceFrom]; rw [if_neg (Nat.not_le.2 hc), dif_neg (by omega)]

/-- A walk with no replacement left ends with CorruptTable 2 at an entry. -/
theorem traceFrom_bound {clear c : CodeField} {tab : Vector CodeField 4096} (hc : clear.toNat < c.toNat)
    (hb : c.toNat ≤ 4095) : traceFrom clear tab 0 c = .error (.walkBound c) := by
  simp only [traceFrom]
  rw [if_neg (Nat.not_le.2 hc), if_neg (show ¬Config.maxCode < _ from Nat.not_lt.2 hb)]

/-- A walk at the clear code ends with CorruptTable 4. -/
theorem traceFrom_clear {clear : CodeField} {tab : Vector CodeField 4096} (n : Nat) :
    traceFrom clear tab n clear = .error (.walkClear clear) := by
  cases n <;> simp [traceFrom, walkTail]

@[simp] theorem chainAt_zero (r : LzwRegs) (c : CodeField) : chainAt r 0 c = c := rfl

/-- A chain goes from an entry to its prefix. -/
theorem chainAt_entry (r : LzwRegs) (n : Nat) {c : CodeField} (h : c.toNat < 4096) :
    chainAt r (n + 1) c = chainAt r n r.prefixTab[c.toNat] := by
  rw [chainAt, dif_pos h]

/-- A walk follows its chain: where the first `k` values are entries, it goes on from the `k`-th (R98). -/
theorem traceFrom_chain (r : LzwRegs) {c : CodeField} {k n : Nat} (hk : k ≤ n)
    (h : ∀ j, j < k → r.clearCode.toNat < (chainAt r j c).toNat ∧ (chainAt r j c).toNat ≤ 4095) :
    traceFrom r.clearCode r.prefixTab n c = traceFrom r.clearCode r.prefixTab (n - k) (chainAt r k c) := by
  induction k generalizing c n with
  | zero => rfl
  | succ k ih =>
    obtain ⟨h0, h0'⟩ := h 0 (Nat.succ_pos k)
    rw [chainAt_zero] at h0 h0'
    obtain ⟨n, rfl⟩ : ∃ m, n = m + 1 := ⟨n - 1, by omega⟩
    have hb : c.toNat < 4096 := by omega
    rw [traceFrom_entry n h0 hb, chainAt_entry r k hb, Nat.add_sub_add_right]
    refine ih (by omega) fun j hj => ?_
    have := h (j + 1) (by omega)
    rwa [chainAt_entry r j hb] at this

/-- A walk answers a literal, if anything (R98). -/
theorem traceFrom_ok {clear c v : CodeField} {tab : Vector CodeField 4096} {n : Nat}
    (h : traceFrom clear tab n c = .ok v) : v.toNat < clear.toNat := by
  induction n generalizing c with
  | zero =>
    simp only [traceFrom] at h
    split at h
    · next hle => obtain ⟨rfl, hlt⟩ := walkTail_ok hle h; exact hlt
    · split at h <;> cases h
  | succ n ih =>
    simp only [traceFrom] at h
    split at h
    · next hle => obtain ⟨rfl, hlt⟩ := walkTail_ok hle h; exact hlt
    · split at h
      · exact ih h
      · cases h

/-- A walk from a code with a string answers the string's first byte (R98, R101). -/
theorem Spells.trace {r : LzwRegs} {c : CodeField} {b : Byte} {w : List Byte} (h : Spells r c (b :: w)) {n : Nat}
    (hn : w.length ≤ n) : ∃ v, traceFrom r.clearCode r.prefixTab n c = .ok v ∧ v.setWidth 8 = b := by
  generalize hw : b :: w = bw at h
  induction h generalizing b w n with
  | literal c hc =>
    cases hw
    exact ⟨c, traceFrom_literal n hc, rfl⟩
  | entry c w' hc hb hs ih =>
    obtain ⟨b', v', rfl⟩ := hs.cons
    simp only [List.cons_append, List.cons.injEq] at hw
    obtain ⟨rfl, rfl⟩ := hw
    simp only [List.length_append, List.length_cons, List.length_nil] at hn
    cases n with
    | zero => omega
    | succ n =>
      rw [traceFrom_entry n hc hb]
      exact ih (by omega) rfl

theorem Spells.traceRoot {r : LzwRegs} {c : CodeField} {b : Byte} {w : List Byte} (h : Spells r c (b :: w))
    (hn : w.length ≤ 4096) : ∃ v, Machine.traceRoot r c = .ok v ∧ v.setWidth 8 = b := h.trace hn

/-- `expand` over a code with a string pushes the string, last byte first (R99, R101). -/
theorem Spells.expandFrom {r : LzwRegs} {c : CodeField} {w : List Byte} (h : Spells r c w) {n : Nat} {k : StackRegs}
    (hn : w.length ≤ n + 1) (hk : k.stackPtr.toNat + w.length ≤ 4098) :
    ∃ k', Machine.expandFrom r.clearCode r.prefixTab r.suffixTab n c k = .pushed k' ∧
      k'.stackPtr.toNat = k.stackPtr.toNat + w.length ∧
      k'.stack.toList.take k'.stackPtr.toNat = k.stack.toList.take k.stackPtr.toNat ++ w.reverse := by
  induction h generalizing n k with
  | literal c hc =>
    obtain ⟨k', hp, e1, e2⟩ := StackRegs.push_eq (k := k) (c.setWidth 8) (by simp at hk; omega)
    refine ⟨k', ?_, e1, by simpa using e2⟩
    cases n <;> simp only [Machine.expandFrom] <;> rw [if_pos (Nat.le_of_lt hc)] <;>
      simp [expandTail, walkTail_literal hc, hp]
  | entry c w hc hb hs ih =>
    simp only [List.length_append, List.length_cons, List.length_nil] at hn hk
    have hpos := hs.length_pos
    cases n with
    | zero => omega
    | succ n =>
      obtain ⟨k1, hp, e1, e2⟩ := StackRegs.push_eq (k := k) r.suffixTab[c.toNat] (by omega)
      obtain ⟨k', hx, f1, f2⟩ := ih (n := n) (k := k1) (by omega) (by omega)
      refine ⟨k', ?_, by simp; omega, by simp [f2, e2]⟩
      simp only [Machine.expandFrom]
      rw [if_neg (Nat.not_le.2 hc), dif_pos hb, hp]
      exact hx

theorem Spells.expand {r : LzwRegs} {c : CodeField} {w : List Byte} (h : Spells r c w) {k : StackRegs}
    (hn : w.length ≤ 4097) (hk : k.stackPtr.toNat + w.length ≤ 4098) :
    ∃ k', Machine.expand r c k = .pushed k' ∧ k'.stackPtr.toNat = k.stackPtr.toNat + w.length ∧
      k'.stack.toList.take k'.stackPtr.toNat = k.stack.toList.take k.stackPtr.toNat ++ w.reverse :=
  h.expandFrom hn hk

end Sys2Proof.Machine
end

