-- ==== Sys2Proof/Laws/Table.lean ====
section
/-! SUPPORT. The decoder's registers: what the minimum code size and a table reset leave (R88, R89), the running code (R90)
and a definition (R100). -/

namespace Sys2Proof.Machine

/-- The registers of an accepted minimum code size (R88, R89). -/
theorem acceptMcs_values (m : Byte) (r : LzwRegs) (h1 : 1 ≤ m.toNat) (h8 : m.toNat ≤ 8) :
    (acceptMcs m r).depth.toNat = m.toNat ∧ (acceptMcs m r).clearCode.toNat = 2 ^ m.toNat ∧
      (acceptMcs m r).endCode.toNat = 2 ^ m.toNat + 1 ∧ (acceptMcs m r).runningCode.toNat = 2 ^ m.toNat + 2 ∧
      (acceptMcs m r).runningBits.toNat = m.toNat + 1 ∧ (acceptMcs m r).maxCode1.toNat = 2 ^ (m.toNat + 1) := by
  simp only [acceptMcs, resetTable, BitVec.toNat_setWidth, BitVec.toNat_ofNat, BitVec.toNat_add]
  generalize m.toNat = n at *
  interval_cases n <;> decide

theorem exec_mcs_legal {m : Byte} (s : State) (h1 : 1 ≤ m.toNat) (h8 : m.toNat ≤ 8) :
    exec (.mcs m) s = .next
      { s with
        lzw := acceptMcs m s.lzw
        rows := { s.rows with pixRemain := BitVec.ofNat 32 (s.oper.width.toNat * s.oper.height.toNat) }
        seq := .firstRow } := by
  simp [exec, execMcs, (mcsLegal_iff m).2 ⟨h1, h8⟩]

theorem exec_mcs_illegal {m : Byte} (s : State) (h : m.toNat < 1 ∨ 8 < m.toNat) :
    exec (.mcs m) s = .next { s with lzw := { s.lzw with mcs := m }, seq := .raising (.badMcs m) } := by
  simp [exec, execMcs, (mcsLegal_false_iff m).2 h]

/-- A pixel count fits PIX_REMAIN (R29). -/
theorem pixels_lt (o : OperandRegs) : o.width.toNat * o.height.toNat < 2 ^ 32 :=
  Nat.lt_of_le_of_lt (Nat.mul_le_mul (Nat.le_of_lt_succ o.width.isLt) (Nat.le_of_lt_succ o.height.isLt)) (by norm_num)

/-- `reset_table`'s numbers (R89). -/
theorem resetTable_values (r : LzwRegs) (hd : r.depth.toNat ≤ 8) (he : r.endCode.toNat ≤ 257) :
    (resetTable r).runningCode.toNat = r.endCode.toNat + 1 ∧ (resetTable r).runningBits.toNat = r.depth.toNat + 1 ∧
      (resetTable r).maxCode1.toNat = 2 ^ (r.depth.toNat + 1) := by
  simp only [resetTable, BitVec.toNat_add, BitVec.toNat_ofNat]
  refine ⟨by omega, by omega, Nat.mod_eq_of_lt ?_⟩
  exact Nat.lt_of_le_of_lt (Nat.pow_le_pow_right (by norm_num) (Nat.succ_le_succ hd)) (by norm_num)

@[simp] theorem resetTable_entry (r : LzwRegs) (i : Nat) (h : i < 4096) :
    (resetTable r).prefixTab[i] = Config.noSuchCode := by
  simp [resetTable]

/-! ### The running code (R90) -/

theorem advanceRunning_rest (r : LzwRegs) :
    advanceRunning r = { r with
      runningCode := (advanceRunning r).runningCode, maxCode1 := (advanceRunning r).maxCode1
      runningBits := (advanceRunning r).runningBits } := by
  unfold advanceRunning
  dsimp only
  split <;> rfl

theorem advanceRunning_code (r : LzwRegs) (h : r.runningCode.toNat < 8191) :
    (advanceRunning r).runningCode.toNat = r.runningCode.toNat + 1 := by
  unfold advanceRunning
  dsimp only
  split <;> simp <;> omega

/-- The width grows. -/
theorem advanceRunning_grow (r : LzwRegs) (h : r.runningCode.toNat < 8191) (hm : r.maxCode1.toNat < r.runningCode.toNat + 1)
    (hb : r.runningBits.toNat < 12) (h4 : r.maxCode1.toNat < 4096) :
    (advanceRunning r).maxCode1.toNat = 2 * r.maxCode1.toNat ∧
      (advanceRunning r).runningBits.toNat = r.runningBits.toNat + 1 := by
  unfold advanceRunning
  have e : (r.runningCode + 1#13).toNat = r.runningCode.toNat + 1 := by simp; omega
  dsimp only
  rw [e, if_pos ⟨hm, hb⟩]
  constructor <;> simp <;> omega

/-- The width stays. -/
theorem advanceRunning_same (r : LzwRegs) (h : r.runningCode.toNat < 8191)
    (hm : ¬(r.maxCode1.toNat < r.runningCode.toNat + 1 ∧ r.runningBits.toNat < 12)) :
    (advanceRunning r).maxCode1 = r.maxCode1 ∧ (advanceRunning r).runningBits = r.runningBits := by
  unfold advanceRunning
  have e : (r.runningCode + 1#13).toNat = r.runningCode.toNat + 1 := by simp; omega
  dsimp only
  rw [e, if_neg (show ¬(_ ∧ _ < Config.maxBits) from hm)]
  exact ⟨rfl, rfl⟩

/-! ### Definitions (R100) -/

/-- No definition follows a clear code or the first code (R100). -/
theorem define_none {s : State} (code : CodeField) (kw : Bool) (h : s.lzw.prevCode = Config.noSuchCode) :
    defineAndUpdate code kw s = { s with lzw := { s.lzw with prevCode := code }, seq := .rowLoop } := by
  simp [defineAndUpdate, h]

/-- A full table raises CorruptTable 5 (R100). -/
theorem define_range {s : State} (code : CodeField) (kw : Bool) (h : s.lzw.prevCode ≠ Config.noSuchCode)
    (hr : s.lzw.runningCode.toNat < 2 ∨ 4097 < s.lzw.runningCode.toNat) :
    defineAndUpdate code kw s = { s with seq := .raising (.defineRange s.lzw.runningCode) } := by
  simp only [defineAndUpdate]
  rw [if_neg h, if_pos (show _ < Config.rcMin ∨ Config.rcMax < _ from hr)]

/-- A definition whose suffix walk answers (R100). -/
theorem define_entry {s : State} {code root : CodeField} {kw : Bool} (h : s.lzw.prevCode ≠ Config.noSuchCode)
    (h2 : 2 ≤ s.lzw.runningCode.toNat) (h4 : s.lzw.runningCode.toNat ≤ 4097)
    (hw : traceRoot (writePrefix s.lzw (s.lzw.runningCode.toNat - 2) s.lzw.prevCode)
      (if kw then s.lzw.prevCode else code) = .ok root) :
    defineAndUpdate code kw s =
      { s with
        lzw :=
          { s.lzw with
            prefixTab := s.lzw.prefixTab.setIfInBounds (s.lzw.runningCode.toNat - 2) s.lzw.prevCode
            suffixTab := s.lzw.suffixTab.setIfInBounds (s.lzw.runningCode.toNat - 2) (root.setWidth 8)
            prevCode := code }
        seq := .rowLoop } := by
  simp only [defineAndUpdate]
  rw [if_neg h, if_neg (show ¬(_ < Config.rcMin ∨ Config.rcMax < _) from not_or.2 ⟨Nat.not_lt.2 h2, Nat.not_lt.2 h4⟩), hw]
  rfl

/-- A definition, whatever it does, changes only PREFIX, SUFFIX, PREV_CODE and the position (R100). -/
theorem define_frame (code : CodeField) (kw : Bool) (s : State) :
    defineAndUpdate code kw s =
      { s with
        lzw :=
          { s.lzw with
            prefixTab := (defineAndUpdate code kw s).lzw.prefixTab
            suffixTab := (defineAndUpdate code kw s).lzw.suffixTab
            prevCode := (defineAndUpdate code kw s).lzw.prevCode }
        seq := (defineAndUpdate code kw s).seq } := by
  simp only [defineAndUpdate]
  split
  · rfl
  · split
    · rfl
    · split <;> rfl

/-- A KNOWN code whose string is pushed (R95). -/
theorem exec_known {s : State} {c : Code} {k : StackRegs} (h : expand s.lzw (c.setWidth 13) s.stk = .pushed k) :
    exec (.lzwKnown c) s = .next { s with stk := k, seq := .flush (.define (c.setWidth 13) false) } := by
  simp only [exec, execLzwKnown, h, afterExpand]

/-- A KWKWK code whose string is pushed (R96). -/
theorem exec_kwkwk {s : State} {c : Code} {root : CodeField} {k k' : StackRegs}
    (hr : traceRoot s.lzw s.lzw.prevCode = .ok root) (hp : s.stk.push (root.setWidth 8) = some k)
    (h : expand s.lzw s.lzw.prevCode k = .pushed k') :
    exec (.lzwKwkwk c) s = .next { s with stk := k', seq := .flush (.define (c.setWidth 13) true) } := by
  simp only [exec, execLzwKwkwk, hr, hp, h, afterExpand]

/-- A LITERAL whose write is admitted (R94). -/
theorem exec_literal {s : State} {c : Code} (h : pixelOffset s < s.outSpace.size) :
    exec (.lzwLiteral c) s = .next (defineAndUpdate (c.setWidth 13) false (pixelDone
      { s with
        outSpace := s.outSpace.write (pixelOffset s) (c.setWidth 8)
        history := .outWrite (pixelOffset s) (c.setWidth 8) :: s.history })) := by
  simp only [exec, execLzwLiteral, emitPixel_eq h, andThen_of_next]

/-- The prefix written by a definition at the slot below the running code does not change the strings of the codes that
never meet the slot. -/
theorem Spells.writePrefix {r : LzwRegs} {c : CodeField} {w : List Byte} (h : Spells r c w) (slot : Nat) (p : CodeField)
    (hslot : ∀ d v, Spells r d v → v.length ≤ w.length → d.toNat ≠ slot) : Spells (writePrefix r slot p) c w := by
  induction h with
  | literal c hc => exact .literal c hc
  | entry c w hc hb hs ih =>
    have hne : c.toNat ≠ slot := hslot c _ (.entry c w hc hb hs) (Nat.le_refl _)
    refine .of_entry (r := Machine.writePrefix r slot p) hc hb ?_ rfl
    rw [show (Machine.writePrefix r slot p).prefixTab[c.toNat] = r.prefixTab[c.toNat] by
      simp [Machine.writePrefix, Ne.symm hne]]
    exact ih fun d v hd hv => hslot d v hd (by simp; omega)

end Sys2Proof.Machine
end

