-- ==== Sys2Proof/Laws/Move.lean ====
section
/-! SUPPORT. Every move the block can make, said once: an invariant of the block is one case for each constructor. -/

namespace Sys2Proof.Machine

/-- The reader at the terminator (R80, R82). -/
def ReaderRegs.terminal (r : ReaderRegs) : ReaderRegs :=
  { r with sbTerm := true, sbShort := false, chunkLen := 0#8, chunkDecl := 0#8, chunkPos := 0#8 }

/-- The reader at a length byte (R80). -/
def ReaderRegs.announced (r : ReaderRegs) (len : Byte) : ReaderRegs :=
  { r with chunkDecl := len, chunkLen := 0#8, chunkPos := 0#8, sbShort := false }

/-- `BlockMove s t`: the block's move from `s` ends in `t`. -/
inductive BlockMove (s : State) : State → Prop where
  | idle (h : s.seq = .idle) : BlockMove s s
  | nop (h : s.seq = .start .nop) : BlockMove s (finishOk s)
  | sbOpen (h : s.seq = .start .sbOpen) : BlockMove s (finishOk (openReader s))
  | chunkAtTerm (h : s.seq = .start .sbNextChunk) (ht : s.reader.sbTerm = true) : BlockMove s (finishOk s)
  | chunkAtEnd (h : s.seq = .start .sbNextChunk) (ht : s.reader.sbTerm = false) (he : s.inAtEnd = true) :
      BlockMove s (raiseError .noLengthInNextChunk s)
  | terminator (k : ChunkCaller) (h : s.seq = .nextChunk k ∨ k = .command ∧ s.seq = .start .sbNextChunk)
      (ht : s.reader.sbTerm = false) (he : s.inAtEnd = false) (hs : s.oper.inPtr.toNat < s.inSpace.size)
      (hb : s.inSpace.read s.oper.inPtr.toNat = 0#8) :
      BlockMove s (returnNone k { afterRead s with reader := s.reader.terminal })
  | length (k : ChunkCaller) (h : s.seq = .nextChunk k ∨ k = .command ∧ s.seq = .start .sbNextChunk)
      (ht : s.reader.sbTerm = false) (he : s.inAtEnd = false) (hs : s.oper.inPtr.toNat < s.inSpace.size)
      (hb : s.inSpace.read s.oper.inPtr.toNat ≠ 0#8) :
      BlockMove s
        { afterRead s with
          reader := s.reader.announced (s.inSpace.read s.oper.inPtr.toNat), seq := .payload k }
  | decodeAtEnd (h : s.seq = .start .decodeImage) (he : s.inAtEnd = true) :
      BlockMove s (raiseError .noMcsByte (beginDecode s))
  | decodeIllegal (m : Byte) (h : s.seq = .start .decodeImage) (he : s.inAtEnd = false)
      (hs : s.oper.inPtr.toNat < s.inSpace.size) (hb : s.inSpace.read s.oper.inPtr.toNat = m)
      (hm : m.toNat < 1 ∨ 8 < m.toNat) :
      BlockMove s { afterRead (beginDecode s) with lzw := { s.lzw with mcs := m }, seq := .raising (.badMcs m) }
  | decodeLegal (m : Byte) (h : s.seq = .start .decodeImage) (he : s.inAtEnd = false)
      (hs : s.oper.inPtr.toNat < s.inSpace.size) (hb : s.inSpace.read s.oper.inPtr.toNat = m)
      (h1 : 1 ≤ m.toNat) (h8 : m.toNat ≤ 8) :
      BlockMove s
        { afterRead (beginDecode s) with
          lzw := acceptMcs m s.lzw
          rows :=
            { row := 0#16, pass := 0#2, col := 0#16
              pixRemain := BitVec.ofNat 32 (s.oper.width.toNat * s.oper.height.toNat) }
          seq := .firstRow }
  | chunkNone (k : ChunkCaller) (h : s.seq = .nextChunk k) (ht : s.reader.sbTerm = true) : BlockMove s (returnNone k s)
  | chunkEndOfInput (k : ChunkCaller) (h : s.seq = .nextChunk k) (ht : s.reader.sbTerm = false)
      (he : s.inAtEnd = true) : BlockMove s (returnEndOfInput k s)
  | payloadRead (k : ChunkCaller) (h : s.seq = .payload k) (hl : s.reader.chunkLen.toNat < s.reader.chunkDecl.toNat)
      (he : s.inAtEnd = false) (hs : s.oper.inPtr.toNat < s.inSpace.size) :
      BlockMove s (storePayload (s.inSpace.read s.oper.inPtr.toNat) (afterRead s))
  | payloadShort (k : ChunkCaller) (h : s.seq = .payload k) (hl : s.reader.chunkLen.toNat < s.reader.chunkDecl.toNat)
      (he : s.inAtEnd = true) : BlockMove s (returnChunk k { s with reader := { s.reader with sbShort := true } })
  | payloadWhole (k : ChunkCaller) (h : s.seq = .payload k) (hl : s.reader.chunkDecl.toNat ≤ s.reader.chunkLen.toNat) :
      BlockMove s (returnChunk k s)
  | copyWrite (i : Nat) (h : s.seq = .copyOut i) (hi : i < s.reader.chunkLen.toNat) (h255 : i < 255)
      (hs : i < s.outSpace.size) :
      BlockMove s
        { s with
          outSpace := s.outSpace.write i s.reader.chunkBuf[i]
          history := .outWrite i s.reader.chunkBuf[i] :: s.history
          reader := { s.reader with chunkPos := BitVec.ofNat 8 (i + 1) }
          seq := .copyOut (i + 1) }
  | copyDone (i : Nat) (h : s.seq = .copyOut i) (hi : s.reader.chunkLen.toNat ≤ i) :
      BlockMove s { s with seq := .finish }
  | firstRow (h : s.seq = .firstRow) : BlockMove s (beginRow (firstRowOf s.oper.interlace s.oper.height.toNat) s)
  | nextRow (h : s.seq = .nextRow) :
      BlockMove s
        (beginRow (nextRowOf s.oper.interlace s.oper.height.toNat s.rows.pass.toNat s.rows.row.toNat) s)
  | flushPop (k : FlushCaller) (h : s.seq = .flush k) (hp : 0 < s.stk.stackPtr.toNat) (hb : s.stk.stackPtr.toNat ≤ 4098)
      (hc : s.rows.col.toNat < s.oper.width.toNat) :
      BlockMove s
        { s with
          stk := { s.stk with stackPtr := s.stk.stackPtr - 1#13 }
          seq := .emit s.stk.stack[s.stk.stackPtr.toNat - 1] k }
  | flushDone (k : FlushCaller) (h : s.seq = .flush k)
      (hd : s.stk.stackPtr.toNat = 0 ∨ s.oper.width.toNat ≤ s.rows.col.toNat) : BlockMove s (afterFlush k s)
  | emit (v : Byte) (k : FlushCaller) (h : s.seq = .emit v k) (hs : pixelOffset s < s.outSpace.size) :
      BlockMove s
        { s with
          outSpace := s.outSpace.write (pixelOffset s) v
          history := .outWrite (pixelOffset s) v :: s.history
          rows := { s.rows with col := s.rows.col + 1#16, pixRemain := s.rows.pixRemain - 1#32 }
          seq := .flush k }
  | rowLoop (h : s.seq = .rowLoop) :
      BlockMove s { s with seq := if s.rows.col.toNat < s.oper.width.toNat then .fetch else .nextRow }
  | fetchNext (h : s.seq = .fetch) (hw : s.extr.shiftState.toNat < s.lzw.runningBits.toNat)
      (hp : s.reader.chunkPos = s.reader.chunkLen) : BlockMove s { s with seq := .nextChunk .extractor }
  | fetchByte (h : s.seq = .fetch) (hw : s.extr.shiftState.toNat < s.lzw.runningBits.toNat)
      (hp : s.reader.chunkPos ≠ s.reader.chunkLen) (h255 : s.reader.chunkPos.toNat < 255) :
      BlockMove s
        { s with
          extr := takeByte s.extr s.reader.chunkBuf[s.reader.chunkPos.toNat]
          reader := { s.reader with chunkPos := s.reader.chunkPos + 1#8 } }
  | fetchCode (h : s.seq = .fetch) (hw : s.lzw.runningBits.toNat ≤ s.extr.shiftState.toNat) :
      BlockMove s
        { s with
          extr := dropCode s.extr s.lzw.runningBits.toNat
          lzw := advanceRunning s.lzw
          status := { s.status with phase := .streaming }
          seq := .process (codeBits s.extr s.lzw.runningBits.toNat) }
  | codeEnd (c : Code) (h : s.seq = .process c) (hc : decodeCode s.codeContext c = .lzwEnd c) :
      BlockMove s (raiseError (.prematureEnd (c.setWidth 13)) s)
  | codeClear (c : Code) (h : s.seq = .process c) (hc : decodeCode s.codeContext c = .lzwClear c) :
      BlockMove s { s with lzw := resetTable s.lzw, status := { s.status with phase := .cleared }, seq := .rowLoop }
  | codeLiteral (c : Code) (h : s.seq = .process c) (hc : decodeCode s.codeContext c = .lzwLiteral c)
      (hs : pixelOffset s < s.outSpace.size) :
      BlockMove s (defineAndUpdate (c.setWidth 13) false (pixelDone
        { s with
          outSpace := s.outSpace.write (pixelOffset s) (c.setWidth 8)
          history := .outWrite (pixelOffset s) (c.setWidth 8) :: s.history }))
  | codeKnown (c : Code) (k : StackRegs) (h : s.seq = .process c) (hc : decodeCode s.codeContext c = .lzwKnown c)
      (hx : expand s.lzw (c.setWidth 13) s.stk = .pushed k) :
      BlockMove s { s with stk := k, seq := .flush (.define (c.setWidth 13) false) }
  | codeKnownFailed (c : Code) (k : StackRegs) (e : BlockError) (h : s.seq = .process c)
      (hc : decodeCode s.codeContext c = .lzwKnown c) (hx : expand s.lzw (c.setWidth 13) s.stk = .failed k e) :
      BlockMove s { s with stk := k, seq := .raising e }
  | codeKwkwkNoRoot (c : Code) (e : BlockError) (h : s.seq = .process c)
      (hc : decodeCode s.codeContext c = .lzwKwkwk c) (hr : traceRoot s.lzw s.lzw.prevCode = .error e) :
      BlockMove s { s with seq := .raising e }
  | codeKwkwk (c : Code) (root : CodeField) (k k' : StackRegs) (h : s.seq = .process c)
      (hc : decodeCode s.codeContext c = .lzwKwkwk c) (hr : traceRoot s.lzw s.lzw.prevCode = .ok root)
      (hp : s.stk.push (root.setWidth 8) = some k) (hx : expand s.lzw s.lzw.prevCode k = .pushed k') :
      BlockMove s { s with stk := k', seq := .flush (.define (c.setWidth 13) true) }
  | codeKwkwkFailed (c : Code) (root : CodeField) (k k' : StackRegs) (e : BlockError) (h : s.seq = .process c)
      (hc : decodeCode s.codeContext c = .lzwKwkwk c) (hr : traceRoot s.lzw s.lzw.prevCode = .ok root)
      (hp : s.stk.push (root.setWidth 8) = some k) (hx : expand s.lzw s.lzw.prevCode k = .failed k' e) :
      BlockMove s { s with stk := k', seq := .raising e }
  | codeInvalid (c : Code) (h : s.seq = .process c) (hc : decodeCode s.codeContext c = .lzwInvalid c) :
      BlockMove s (raiseError (.invalidCode (c.setWidth 13)) s)
  | drain (h : s.seq = .startDrain) : BlockMove s (drainStart s)
  | finish (h : s.seq = .finish) : BlockMove s (finishOk s)
  | raising (e : BlockError) (h : s.seq = .raising e) : BlockMove s (raiseError e s)

/-- The length byte's meaning, from either of the two positions that read one. -/
theorem length_move {s t : State} {k : ChunkCaller}
    (h : s.seq = .nextChunk k ∨ k = .command ∧ s.seq = .start .sbNextChunk) (ht : s.reader.sbTerm = false)
    (he : s.inAtEnd = false) (hl : lengthStep { s with seq := .nextChunk k } = .next t) : BlockMove s t := by
  obtain ⟨hs, hx⟩ := inRead_next hl
  dsimp only at hs hx
  by_cases hb : s.inSpace.read s.oper.inPtr.toNat = 0#8
  · rw [hb] at hx
    have : t = returnNone k { afterRead s with reader := s.reader.terminal } := by
      rw [show decodeLength 0#8 = .sbTerminator from rfl] at hx
      cases hx
      cases k <;> simp [returnNone, afterRead, hb, ReaderRegs.terminal, Seq.chunkCaller]
    exact this ▸ .terminator k h ht he hs hb
  · have : t = { afterRead s with
        reader := s.reader.announced (s.inSpace.read s.oper.inPtr.toNat), seq := .payload k } := by
      rw [show decodeLength (s.inSpace.read s.oper.inPtr.toNat) = .sbLen _ from if_neg hb] at hx
      cases hx
      rfl
    exact this ▸ .length k h ht he hs hb

/-- Every move of the block is one of these. -/
theorem blockStep_move {s t : State} (h : blockStep s = .next t) : BlockMove s t := by
  unfold blockStep at h
  split at h
  · next hq => cases h; exact .idle hq
  · next c hq =>
    cases c with
    | nop => cases h; exact .nop hq
    | sbOpen => cases h; exact .sbOpen hq
    | sbNextChunk =>
      simp only [startStep] at h
      split at h
      · next ht => cases h; exact .chunkAtTerm hq ht
      · next ht =>
        split at h
        · next he => cases h; exact .chunkAtEnd hq (by simpa using ht) he
        · next he => exact length_move (.inr ⟨rfl, hq⟩) (by simpa using ht) (by simpa using he) h
    | decodeImage =>
      simp only [startStep] at h
      split at h
      · next he => cases h; exact .decodeAtEnd hq he
      · next he =>
        obtain ⟨hs, hx⟩ := inRead_next h
        by_cases hm : mcsLegal (s.inSpace.read s.oper.inPtr.toNat) = true
        · obtain ⟨h1, h8⟩ := (mcsLegal_iff _).1 hm
          rw [show (beginDecode s).inSpace.read (beginDecode s).oper.inPtr.toNat =
            s.inSpace.read s.oper.inPtr.toNat from rfl, exec_mcs_legal _ h1 h8] at hx
          cases hx
          exact .decodeLegal _ hq (by simpa using he) hs rfl h1 h8
        · have hm' := (mcsLegal_false_iff _).1 (by simpa using hm)
          rw [show (beginDecode s).inSpace.read (beginDecode s).oper.inPtr.toNat =
            s.inSpace.read s.oper.inPtr.toNat from rfl, exec_mcs_illegal _ hm'] at hx
          cases hx
          exact .decodeIllegal _ hq (by simpa using he) hs rfl hm'
  · next k hq =>
    simp only [nextChunkStep] at h
    split at h
    · next ht => cases h; exact .chunkNone k hq ht
    · next ht =>
      split at h
      · next he => cases h; exact .chunkEndOfInput k hq (by simpa using ht) he
      · next he =>
        refine length_move (.inl hq) (by simpa using ht) (by simpa using he) ?_
        rw [← hq]
        exact h
  · next k hq =>
    simp only [payloadStep] at h
    split at h
    · next hl =>
      split at h
      · next he => cases h; exact .payloadShort k hq hl he
      · next he =>
        obtain ⟨hs, hx⟩ := inRead_next h
        cases hx
        exact .payloadRead k hq hl (by simpa using he) hs
    · next hl => cases h; exact .payloadWhole k hq (Nat.not_lt.1 hl)
  · next i hq =>
    simp only [copyStep] at h
    split at h
    · next hi =>
      split at h
      · next h255 =>
        obtain ⟨u, hu, hk⟩ := andThen_next h
        obtain ⟨ha, rfl⟩ := outWrite_next hu
        cases hk
        exact .copyWrite i hq hi h255 ha
      · cases h
    · next hi => cases h; exact .copyDone i hq (Nat.not_lt.1 hi)
  · next hq => cases h; exact .firstRow hq
  · next hq => cases h; exact .nextRow hq
  · next k hq =>
    simp only [flushStep] at h
    split at h
    · next hp =>
      by_cases hb : s.stk.stackPtr.toNat ≤ 4098
      · rw [show s.stk.pop = some (s.stk.stack[s.stk.stackPtr.toNat - 1],
            { s.stk with stackPtr := s.stk.stackPtr - 1#13 }) by simp [StackRegs.pop, hp.1, hb]] at h
        cases h
        exact .flushPop k hq hp.1 hb hp.2
      · rw [show s.stk.pop = none by simp [StackRegs.pop, hb]] at h
        cases h
    · next hp => cases h; exact .flushDone k hq (by omega)
  · next v k hq =>
    obtain ⟨u, hu, hk⟩ := andThen_next h
    obtain ⟨ha, rfl⟩ := emitPixel_next hu
    cases hk
    exact .emit v k hq ha
  · next hq => cases h; exact .rowLoop hq
  · next hq =>
    simp only [fetchStep] at h
    split at h
    · next hw =>
      split at h
      · next hp => cases h; exact .fetchNext hq hw hp
      · next hp =>
        split at h
        · next h255 => cases h; exact .fetchByte hq hw hp h255
        · cases h
    · next hw => cases h; exact .fetchCode hq (Nat.not_lt.1 hw)
  · next c hq =>
    have hclass : decodeCode s.codeContext c ∈
        [Instr.lzwEnd c, .lzwClear c, .lzwLiteral c, .lzwKnown c, .lzwKwkwk c, .lzwInvalid c] := by
      unfold decodeCode
      repeat' split
      all_goals simp
    simp only [List.mem_cons, List.not_mem_nil, or_false] at hclass
    rcases hclass with hc | hc | hc | hc | hc | hc <;> rw [hc] at h
    · cases h; exact .codeEnd c hq hc
    · cases h; exact .codeClear c hq hc
    · simp only [exec, execLzwLiteral] at h
      obtain ⟨u, hu, hk⟩ := andThen_next h
      obtain ⟨ha, rfl⟩ := emitPixel_next hu
      cases hk
      exact .codeLiteral c hq hc ha
    · simp only [exec, execLzwKnown, afterExpand] at h
      split at h
      · next k hx => cases h; exact .codeKnown c k hq hc hx
      · next k e hx => cases h; exact .codeKnownFailed c k e hq hc hx
      · cases h
    · simp only [exec, execLzwKwkwk] at h
      split at h
      · next e hr => cases h; exact .codeKwkwkNoRoot c e hq hc hr
      · next root hr =>
        split at h
        · cases h
        · next k hp =>
          simp only [afterExpand] at h
          split at h
          · next k' hx => cases h; exact .codeKwkwk c root k k' hq hc hr hp hx
          · next k' e hx => cases h; exact .codeKwkwkFailed c root k k' e hq hc hr hp hx
          · cases h
    · cases h; exact .codeInvalid c hq hc
  · next hq => cases h; exact .drain hq
  · next hq => cases h; exact .finish hq
  · next e hq => cases h; exact .raising e hq

/-- What a move of the block does to memory: nothing, or one recorded write to OUT. -/
theorem BlockMove.memory {s t : State} (h : BlockMove s t) :
    t.inSpace = s.inSpace ∧ (t.outSpace = s.outSpace ∨ ∃ a v, a < s.outSpace.size ∧
      t.outSpace = s.outSpace.write a v ∧ t.history = .outWrite a v :: s.history) := by
  cases h
  case terminator k _ _ _ _ _ => cases k <;> exact ⟨rfl, .inl rfl⟩
  case chunkNone k _ _ => cases k <;> exact ⟨rfl, .inl rfl⟩
  case chunkEndOfInput k _ _ _ => cases k <;> exact ⟨rfl, .inl rfl⟩
  case payloadShort k _ _ _ => cases k <;> exact ⟨rfl, .inl rfl⟩
  case payloadWhole k _ _  => cases k <;> exact ⟨rfl, .inl rfl⟩
  case firstRow => unfold beginRow; split <;> exact ⟨rfl, .inl rfl⟩
  case nextRow => unfold beginRow; split <;> exact ⟨rfl, .inl rfl⟩
  case flushDone k _ _ =>
    cases k
    · exact ⟨rfl, .inl rfl⟩
    · simp only [afterFlush]; rw [define_frame]; exact ⟨rfl, .inl rfl⟩
  case codeLiteral c _ _ hs =>
    rw [define_frame]
    exact ⟨rfl, .inr ⟨_, _, hs, rfl, rfl⟩⟩
  case copyWrite i _ _ _ hs => exact ⟨rfl, .inr ⟨_, _, hs, rfl, rfl⟩⟩
  case emit v k _ hs => exact ⟨rfl, .inr ⟨_, _, hs, rfl, rfl⟩⟩
  all_goals exact ⟨rfl, .inl rfl⟩

/-- What a move of the block does to the operand registers: nothing, or one recorded read advances IN_PTR. -/
theorem BlockMove.oper {s t : State} (h : BlockMove s t) :
    t.oper = s.oper ∨ t.oper = { s.oper with inPtr := s.oper.inPtr + 1#32 } ∧
      t.history = .inRead s.oper.inPtr.toNat (s.inSpace.read s.oper.inPtr.toNat) :: s.history := by
  cases h
  case terminator k _ _ _ _ _ => cases k <;> exact .inr ⟨rfl, rfl⟩
  case length k _ _ _ _ _ => exact .inr ⟨rfl, rfl⟩
  case decodeIllegal => exact .inr ⟨rfl, rfl⟩
  case decodeLegal => exact .inr ⟨rfl, rfl⟩
  case payloadRead => exact .inr ⟨rfl, rfl⟩
  case chunkNone k _ _ => cases k <;> exact .inl rfl
  case chunkEndOfInput k _ _ _ => cases k <;> exact .inl rfl
  case payloadShort k _ _ _ => cases k <;> exact .inl rfl
  case payloadWhole k _ _  => cases k <;> exact .inl rfl
  case firstRow => unfold beginRow; split <;> exact .inl rfl
  case nextRow => unfold beginRow; split <;> exact .inl rfl
  case flushDone k _ _ =>
    cases k
    · exact .inl rfl
    · simp only [afterFlush]; rw [define_frame]; exact .inl rfl
  case codeLiteral c _ _ hs =>
    rw [define_frame]
    exact .inl rfl
  all_goals exact .inl rfl

/-- No move of the block changes the agenda, the observations or the free-value counter. -/
theorem BlockMove.agenda {s t : State} (h : BlockMove s t) :
    t.agenda = s.agenda ∧ t.observations = s.observations ∧ t.freeCount = s.freeCount := by
  cases h
  case terminator k _ _ _ _ _ => cases k <;> exact ⟨rfl, rfl, rfl⟩
  case chunkNone k _ _ => cases k <;> exact ⟨rfl, rfl, rfl⟩
  case chunkEndOfInput k _ _ _ => cases k <;> exact ⟨rfl, rfl, rfl⟩
  case payloadShort k _ _ _ => cases k <;> exact ⟨rfl, rfl, rfl⟩
  case payloadWhole k _ _ => cases k <;> exact ⟨rfl, rfl, rfl⟩
  case firstRow => unfold beginRow; split <;> exact ⟨rfl, rfl, rfl⟩
  case nextRow => unfold beginRow; split <;> exact ⟨rfl, rfl, rfl⟩
  case flushDone k _ _ =>
    cases k
    · exact ⟨rfl, rfl, rfl⟩
    · simp only [afterFlush]; rw [define_frame]; exact ⟨rfl, rfl, rfl⟩
  case codeLiteral => rw [define_frame]; exact ⟨rfl, rfl, rfl⟩
  all_goals exact ⟨rfl, rfl, rfl⟩

end Sys2Proof.Machine
end

