-- ==== Sys2Proof/Laws/Rows.lean ====
section
/-! SUPPORT. The row order (R107) and the block's iterator over it. -/

namespace Sys2Proof.Machine

/-! ### One pass -/

theorem passRows_cons (p step h n r : Nat) (hr : r < h) :
    passRows p step h (n + 1) r = (p, r) :: passRows p step h n (r + step) := by simp [passRows, hr]

theorem passRows_nil (p step h n r : Nat) (hr : h ≤ r) : passRows p step h n r = [] := by
  cases n with
  | zero => rfl
  | succ n => simp [passRows, Nat.not_lt.2 hr]

theorem mem_passRows {p step h n r : Nat} {x : Nat × Nat} :
    x ∈ passRows p step h n r ↔ x.1 = p ∧ x.2 < h ∧ ∃ i, i < n ∧ x.2 = r + i * step := by
  induction n generalizing r with
  | zero => simp [passRows]
  | succ n ih =>
    by_cases hr : r < h
    · rw [passRows_cons _ _ _ _ _ hr, List.mem_cons, ih]
      constructor
      · rintro (rfl | ⟨h1, h2, i, hi, h3⟩)
        · exact ⟨rfl, hr, 0, by omega, by simp⟩
        · exact ⟨h1, h2, i + 1, by omega, by rw [h3, Nat.add_mul]; omega⟩
      · rintro ⟨h1, h2, i, hi, h3⟩
        cases i with
        | zero => exact .inl (Prod.ext h1 (by simpa using h3))
        | succ i => exact .inr ⟨h1, h2, i, by omega, by rw [h3, Nat.add_mul]; omega⟩
    · rw [passRows_nil _ _ _ _ _ (Nat.not_lt.1 hr)]
      constructor
      · simp
      · rintro ⟨-, h2, i, -, h3⟩
        exact absurd (Nat.lt_of_le_of_lt (Nat.le_add_right r (i * step)) (h3 ▸ h2)) hr

theorem passRows_rising {p step h n r : Nat} (hs : 0 < step) :
    (passRows p step h n r).Pairwise (fun x y => x.2 < y.2) := by
  induction n generalizing r with
  | zero => exact List.Pairwise.nil
  | succ n ih =>
    by_cases hr : r < h
    · rw [passRows_cons _ _ _ _ _ hr]
      refine List.pairwise_cons.2 ⟨fun y hy => ?_, ih⟩
      obtain ⟨-, -, i, -, h3⟩ := mem_passRows.1 hy
      show r < y.2
      omega
    · rw [passRows_nil _ _ _ _ _ (Nat.not_lt.1 hr)]
      exact List.Pairwise.nil

/-- After a row of a pass comes its next one, or what follows the pass. -/
theorem passRows_next {p step h n r : Nat} {rest : List (Nat × Nat)} (hn : h ≤ r + n * step) (i : Nat)
    (x : Nat × Nat) (hx : (passRows p step h n r)[i]? = some x) :
    (passRows p step h n r ++ rest)[i + 1]? = if x.2 + step < h then some (p, x.2 + step) else rest[0]? := by
  induction n generalizing r i with
  | zero => simp [passRows] at hx
  | succ n ih =>
    by_cases hr : r < h
    · rw [passRows_cons _ _ _ _ _ hr] at hx ⊢
      rw [Nat.add_mul] at hn
      cases i with
      | zero =>
        cases hx
        rw [List.cons_append, List.getElem?_cons_succ]
        dsimp only
        split
        · next hlt =>
          cases n with
          | zero => omega
          | succ n => rw [passRows_cons _ _ _ _ _ hlt]; rfl
        · next hge => rw [passRows_nil _ _ _ _ _ (Nat.not_lt.1 hge)]; rfl
      | succ i =>
        rw [List.getElem?_cons_succ] at hx
        rw [List.cons_append, List.getElem?_cons_succ]
        exact ih (by omega) i hx
    · rw [passRows_nil _ _ _ _ _ (Nat.not_lt.1 hr)] at hx
      cases hx

/-- The first row of a pass, or what follows the pass. -/
theorem passRows_head (p step h n r : Nat) (rest : List (Nat × Nat)) (hn : h ≤ r + n) :
    (passRows p step h n r ++ rest)[0]? = if r < h then some (p, r) else rest[0]? := by
  split
  · next hr =>
    cases n with
    | zero => omega
    | succ n => rw [passRows_cons _ _ _ _ _ hr]; rfl
  · next hr => rw [passRows_nil _ _ _ _ _ (Nat.not_lt.1 hr)]; rfl

/-- A successor function right on each of two lists, across their seam, is right on the whole. -/
theorem next_append {α : Type} {A R : List α} {nx : α → Option α} (hA : ∀ i x, A[i]? = some x → nx x = (A ++ R)[i + 1]?)
    (hR : ∀ i x, R[i]? = some x → nx x = R[i + 1]?) (i : Nat) (x : α) (hx : (A ++ R)[i]? = some x) :
    nx x = (A ++ R)[i + 1]? := by
  by_cases h : i < A.length
  · rw [List.getElem?_append_left h] at hx
    exact hA i x hx
  · rw [List.getElem?_append_right (by omega)] at hx ⊢
    rw [hR _ _ hx]
    congr 1
    omega

/-! ### The whole order -/

theorem mem_rowOrder {il : Bool} {h : Nat} {x : Nat × Nat} :
    x ∈ rowOrder il h ↔ x.2 < h ∧
      if il then x.1 = 0 ∧ x.2 % 8 = 0 ∨ x.1 = 1 ∧ x.2 % 8 = 4 ∨ x.1 = 2 ∧ x.2 % 4 = 2 ∨ x.1 = 3 ∧ x.2 % 2 = 1
      else x.1 = 0 := by
  unfold rowOrder
  cases il with
  | false =>
    simp only [Bool.false_eq_true, if_false, mem_passRows]
    constructor
    · rintro ⟨h1, h2, -⟩; exact ⟨h2, h1⟩
    · rintro ⟨h2, h1⟩; exact ⟨h1, h2, x.2, h2, by omega⟩
  | true =>
    simp only [if_true, List.mem_append, mem_passRows]
    constructor
    · rintro (((⟨h1, h2, i, -, h3⟩ | ⟨h1, h2, i, -, h3⟩) | ⟨h1, h2, i, -, h3⟩) | ⟨h1, h2, i, -, h3⟩) <;>
        refine ⟨h2, ?_⟩ <;> omega
    · rintro ⟨h2, ⟨h1, h3⟩ | ⟨h1, h3⟩ | ⟨h1, h3⟩ | ⟨h1, h3⟩⟩
      · exact .inl (.inl (.inl ⟨h1, h2, x.2 / 8, by omega, by omega⟩))
      · exact .inl (.inl (.inr ⟨h1, h2, x.2 / 8, by omega, by omega⟩))
      · exact .inl (.inr ⟨h1, h2, x.2 / 4, by omega, by omega⟩)
      · exact .inr ⟨h1, h2, x.2 / 2, by omega, by omega⟩

/-- No row is taken twice. -/
theorem rowOrder_rows_nodup (il : Bool) (h : Nat) : (rowOrder il h).Pairwise (fun x y => x.2 ≠ y.2) := by
  have one : ∀ p st n r, 0 < st → (passRows p st h n r).Pairwise (fun x y => x.2 ≠ y.2) := fun p st n r hs =>
    (passRows_rising hs).imp fun hlt => Nat.ne_of_lt hlt
  unfold rowOrder
  cases il with
  | false => exact one _ _ _ _ (by omega)
  | true =>
    simp only [if_true, List.pairwise_append]
    refine ⟨⟨⟨one _ _ _ _ (by omega), one _ _ _ _ (by omega), ?_⟩, one _ _ _ _ (by omega), ?_⟩,
      one _ _ _ _ (by omega), ?_⟩
    · intro x hx y hy
      obtain ⟨-, -, i, -, h1⟩ := mem_passRows.1 hx
      obtain ⟨-, -, j, -, h2⟩ := mem_passRows.1 hy
      omega
    · intro x hx y hy
      obtain ⟨-, -, j, -, h2⟩ := mem_passRows.1 hy
      rcases List.mem_append.1 hx with hx | hx <;> obtain ⟨-, -, i, -, h1⟩ := mem_passRows.1 hx <;> omega
    · intro x hx y hy
      obtain ⟨-, -, j, -, h2⟩ := mem_passRows.1 hy
      rcases List.mem_append.1 hx with hx | hx
      · rcases List.mem_append.1 hx with hx | hx <;> obtain ⟨-, -, i, -, h1⟩ := mem_passRows.1 hx <;> omega
      · obtain ⟨-, -, i, -, h1⟩ := mem_passRows.1 hx
        omega

theorem rowOrder_nodup (il : Bool) (h : Nat) : (rowOrder il h).Nodup :=
  (rowOrder_rows_nodup il h).imp fun hne heq => hne (congrArg Prod.snd heq)

end Sys2Proof.Machine
end

