-- ==== Sys2Proof/Laws/Invariant.lean ====
section
/-! SUPPORT. What every move of the block keeps, component by component of the invariant. -/

namespace Sys2Proof.Machine

/-! ### STATUS (R16, R18, R35) -/

theorem StatusInv.transfer {s t : State} (h : StatusInv s) (e : ∃ p, t.status = { s.status with phase := p }) (hs : s.seq ≠ .idle) (ht : t.seq ≠ .idle) : StatusInv t := by
  obtain ⟨p, e⟩ := e
  obtain ⟨g1, g2, g3, g4, g5⟩ := h
  constructor <;> rw [e]
  · simp [g1, hs, ht]
  · exact g2
  · exact g3
  · exact g4
  · exact g5

theorem StatusInv.finish {s t : State} (h : StatusInv s) (e : ∃ p, t.status = { s.status with phase := p }) (hs : s.seq ≠ .idle) : StatusInv (finishOk t) := by
  obtain ⟨p, e⟩ := e
  have hbusy : s.status.busy = true := h.busy_iff.2 hs
  obtain ⟨h1, h2⟩ := h.busy_clear hbusy
  have := h.no_error h2
  constructor <;> simp [e, h2, this]

theorem err_mem (e : BlockError) : e.err ∈ [2#4, 3#4, 5#4, 6#4, 7#4] := by cases e <;> simp [BlockError.err]

theorem StatusInv.raise {s t : State} (r : BlockError) (h : StatusInv s) (e : ∃ p, t.status = { s.status with phase := p }) (hs : s.seq ≠ .idle) : StatusInv (raiseError r t) := by
  obtain ⟨p, e⟩ := e
  have hbusy : s.status.busy = true := h.busy_iff.2 hs
  obtain ⟨h1, h2⟩ := h.busy_clear hbusy
  constructor <;> simp [e, h1]
  exact by simpa using err_mem r

theorem define_seq (code : CodeField) (kw : Bool) (s : State) : (defineAndUpdate code kw s).seq ≠ .idle := by
  simp only [defineAndUpdate]
  split
  · simp
  · split
    · simp
    · split <;> simp

theorem block_status {s t : State} (h : StatusInv s) (hm : BlockMove s t) : StatusInv t := by
  cases hm
  case idle => exact h
  case nop hq => exact h.finish ⟨_, rfl⟩ (by simp [hq])
  case sbOpen hq => exact h.finish (t := openReader s) ⟨_, rfl⟩ (by simp [hq])
  case chunkAtTerm hq _ => exact h.finish ⟨_, rfl⟩ (by simp [hq])
  case finish hq => exact h.finish ⟨_, rfl⟩ (by simp [hq])
  case chunkAtEnd hq _ _ => exact h.raise _ ⟨_, rfl⟩ (by simp [hq])
  case decodeAtEnd hq _ => exact h.raise (t := beginDecode s) _ ⟨_, rfl⟩ (by simp [hq])
  case codeEnd hq _ => exact h.raise _ ⟨_, rfl⟩ (by simp [hq])
  case codeInvalid hq _ => exact h.raise _ ⟨_, rfl⟩ (by simp [hq])
  case raising hq => exact h.raise _ ⟨_, rfl⟩ (by simp [hq])
  case terminator k hq _ _ _ _ =>
    have : s.seq ≠ .idle := by rcases hq with hq | ⟨_, hq⟩ <;> simp [hq]
    cases k <;> exact h.transfer ⟨_, rfl⟩ this (by simp [returnNone])
  case chunkNone k hq _ => cases k <;> exact h.transfer ⟨_, rfl⟩ (by simp [hq]) (by simp [returnNone])
  case chunkEndOfInput k hq _ _ => cases k <;> exact h.transfer ⟨_, rfl⟩ (by simp [hq]) (by simp [returnEndOfInput])
  case payloadShort k hq _ _ => cases k <;> exact h.transfer ⟨_, rfl⟩ (by simp [hq]) (by simp [returnChunk])
  case payloadWhole k hq _ => cases k <;> exact h.transfer ⟨_, rfl⟩ (by simp [hq]) (by simp [returnChunk])
  case length k hq _ _ _ _ =>
    have : s.seq ≠ .idle := by rcases hq with hq | ⟨_, hq⟩ <;> simp [hq]
    exact h.transfer ⟨_, rfl⟩ this (by simp)
  case firstRow hq => unfold beginRow; split <;> exact h.transfer ⟨_, rfl⟩ (by simp [hq]) (by simp)
  case nextRow hq => unfold beginRow; split <;> exact h.transfer ⟨_, rfl⟩ (by simp [hq]) (by simp)
  case flushDone k hq _ =>
    cases k
    · exact h.transfer ⟨_, rfl⟩ (by simp [hq]) (by simp [afterFlush])
    · refine h.transfer ⟨s.status.phase, ?_⟩ (by simp [hq]) (define_seq _ _ _)
      simp only [afterFlush]; rw [define_frame]
  case codeLiteral hq _ _ =>
    refine h.transfer ⟨s.status.phase, ?_⟩ (by simp [hq]) (define_seq _ _ _)
    rw [define_frame]; rfl
  case rowLoop hq => exact h.transfer ⟨_, rfl⟩ (by simp [hq]) (by dsimp only; split <;> simp)
  case payloadRead hq _ _ _ => exact h.transfer ⟨_, rfl⟩ (by simp [hq]) (by simp [storePayload, afterRead, hq])
  case fetchByte hq _ _ _ => exact h.transfer ⟨_, rfl⟩ (by simp [hq]) (by simp [hq])
  case drain hq => exact h.transfer ⟨_, rfl⟩ (by simp [hq]) (by simp [drainStart])
  all_goals
    refine h.transfer ⟨_, rfl⟩ ?_ ?_
    · simp [*]
    · simp

/-! ### The LZW registers (R36(a) to (e)) -/

/-- A code the table defines, or a literal, has a string of literals no longer than the code (R101, R102). -/
theorem LzwInv.spells {s : State} (h : LzwInv s) {c : CodeField} (hc : hasString s.lzw s.codeDebt c.toNat) :
    ∃ w, Spells s.lzw c w ∧ w.length ≤ c.toNat + 1 ∧ ∀ v ∈ w, v.toNat < s.lzw.clearCode.toNat := by
  generalize hn : c.toNat = n at hc
  induction n using Nat.strongRecOn generalizing c with
  | ind n ih =>
    have hclear := h.clear_eq
    have hd : 2 ^ s.lzw.depth.toNat ≤ 2 ^ 8 := Nat.pow_le_pow_right (by norm_num) h.depth_range.2
    rcases hc with hlit | ⟨hgt, hle⟩
    · refine ⟨_, .literal c (by omega), by simp, ?_⟩
      simp only [List.mem_singleton, forall_eq, BitVec.toNat_setWidth]
      exact Nat.lt_of_le_of_lt (Nat.mod_le _ _) (by omega)
    · have hhigh := h.running_high
      have hend := h.end_eq
      have hlt : c.toNat < 4096 := by omega
      have hdef := (h.defined_iff c.toNat hlt).2 ⟨by omega, by omega⟩
      obtain ⟨hp, hstr⟩ := h.prefix_lt c.toNat hlt hdef
      obtain ⟨w, hw, hlen, hall⟩ := ih _ (by omega) rfl hstr
      refine ⟨_, .entry c w (by omega) hlt hw, by simp; omega, ?_⟩
      intro v hv
      rcases List.mem_append.1 hv with hv | hv
      · exact hall v hv
      · rw [List.mem_singleton.1 hv]
        exact h.suffix_lt c.toNat hlt hdef

/-- An entry the table does not define has no string. -/
theorem LzwInv.no_string {s : State} (h : LzwInv s) {c : CodeField} (hc : s.lzw.endCode.toNat < c.toNat)
    (hu : s.lzw.runningCode.toNat < c.toNat + 2 + s.codeDebt) (w : List Byte) : ¬Spells s.lzw c w := by
  intro hw
  have hend := h.end_eq
  have hclear := h.clear_eq
  have hd : 2 ^ s.lzw.depth.toNat ≤ 2 ^ 8 := Nat.pow_le_pow_right (by norm_num) h.depth_range.2
  cases hw with
  | literal _ hlt => omega
  | entry _ w' _ hb hw' =>
    have hnone : s.lzw.prefixTab[c.toNat] = Config.noSuchCode := by
      have := mt (h.defined_iff c.toNat hb).1 (by omega)
      simpa using this
    rw [hnone] at hw'
    have hval : Config.noSuchCode.toNat = 4098 := rfl
    cases hw' with
    | literal _ hlt => omega
    | entry _ _ _ hb' _ => omega

/-- Moves that keep the LZW registers and make no definition due. -/
theorem LzwInv.congr {s t : State} (h : LzwInv s) (e : t.lzw = s.lzw) (hd : t.codeDebt = s.codeDebt)
    (hc : ∀ code kw, (t.seq = .flush (.define code kw) ∨ ∃ v, t.seq = .emit v (.define code kw)) →
      s.lzw.prevCode ≠ Config.noSuchCode ∧
        if kw then code.toNat + 2 = s.lzw.runningCode.toNat else hasString s.lzw 1 code.toNat) : LzwInv t := by
  obtain ⟨g1, g2, g3, g4, g5, g6, g7, g8, g9, g10, g11, g12, g13, g14⟩ := h
  constructor <;> simp only [e, hd]
  all_goals assumption

/-- A table reset (R89). -/
theorem LzwInv.reset {r : LzwRegs} {t : State} (h1 : 1 ≤ r.depth.toNat) (h8 : r.depth.toNat ≤ 8)
    (hc : r.clearCode.toNat = 2 ^ r.depth.toNat) (he : r.endCode.toNat = r.clearCode.toNat + 1)
    (e : t.lzw = resetTable r) (hq : t.seq = .rowLoop ∨ t.seq = .firstRow) : LzwInv t := by
  have hp8 : 2 ^ r.depth.toNat ≤ 2 ^ 8 := Nat.pow_le_pow_right (by norm_num) h8
  have hp1 : 2 ^ 1 ≤ 2 ^ r.depth.toNat := Nat.pow_le_pow_right (by norm_num) h1
  obtain ⟨v1, v2, v3⟩ := resetTable_values r h8 (by omega)
  have hdebt : t.codeDebt = 0 := by rcases hq with hq | hq <;> simp [State.codeDebt, hq, Seq.midCode]
  have kd : (resetTable r).depth = r.depth := rfl
  have kc : (resetTable r).clearCode = r.clearCode := rfl
  have ke : (resetTable r).endCode = r.endCode := rfl
  have kp : (resetTable r).prevCode = Config.noSuchCode := rfl
  have kt : ∀ c (h : c < 4096), (resetTable r).prefixTab[c] = Config.noSuchCode := resetTable_entry r
  constructor <;> rw [e]
  all_goals generalize resetTable r = r' at *
  · rw [kd]; exact ⟨h1, h8⟩
  · rw [kc, kd, hc]
  · rw [ke, kc, he]
  · rw [v3, v2]
  · rw [kd, v2]; omega
  · rw [ke, v1, hdebt]
  · rw [v1, hdebt]; omega
  · intro _; rw [v1, v3, pow_succ]; omega
  · intro c h; rw [kt, v1, ke, hdebt]; simp; omega
  · intro c h hne; exact absurd (kt c h) hne
  · intro c h hne; exact absurd (kt c h) hne
  · rw [v1, ke, hdebt, kp]; simp
  · intro hne; exact absurd kp hne
  · intro code kw hk; rcases hq with hq | hq <;> simp [hq] at hk

/-- A fetch advances the running code by one and leaves one definition due (R90). -/
theorem LzwInv.advance {s t : State} (h : LzwInv s) (hs : s.codeDebt = 0) (e : t.lzw = advanceRunning s.lzw) {c : Code}
    (hq : t.seq = .process c) : LzwInv t := by
  obtain ⟨g1, g2, g3, g4, g5, g6, g7, g8, g9, g10, g11, g12, g13, -⟩ := h
  have hdebt : t.codeDebt = 1 := by simp [State.codeDebt, hq, Seq.midCode]
  rw [hs] at g6 g7 g9 g10 g12 g13
  have hlt : s.lzw.runningCode.toNat < 8191 := by omega
  have hrc := advanceRunning_code s.lzw hlt
  have hrest := advanceRunning_rest s.lzw
  have kd : (advanceRunning s.lzw).depth = s.lzw.depth := by rw [hrest]
  have kc : (advanceRunning s.lzw).clearCode = s.lzw.clearCode := by rw [hrest]
  have ke : (advanceRunning s.lzw).endCode = s.lzw.endCode := by rw [hrest]
  have kp : (advanceRunning s.lzw).prevCode = s.lzw.prevCode := by rw [hrest]
  have kt : (advanceRunning s.lzw).prefixTab = s.lzw.prefixTab := by rw [hrest]
  have ks : (advanceRunning s.lzw).suffixTab = s.lzw.suffixTab := by rw [hrest]
  have kh : ∀ c, hasString (advanceRunning s.lzw) 1 c ↔ hasString s.lzw 0 c := by
    intro c
    simp only [hasString, kc, ke, hrc]
    omega
  have hw : (advanceRunning s.lzw).maxCode1.toNat = 2 ^ (advanceRunning s.lzw).runningBits.toNat ∧
      s.lzw.depth.toNat + 1 ≤ (advanceRunning s.lzw).runningBits.toNat ∧
      (advanceRunning s.lzw).runningBits.toNat ≤ 12 ∧
      ((advanceRunning s.lzw).runningBits.toNat < 12 →
        (advanceRunning s.lzw).runningCode.toNat ≤ (advanceRunning s.lzw).maxCode1.toNat) := by
    by_cases hg : s.lzw.maxCode1.toNat < s.lzw.runningCode.toNat + 1 ∧ s.lzw.runningBits.toNat < 12
    · have hle := g8 hg.2
      have h4 : s.lzw.maxCode1.toNat < 4096 := by
        rw [g4]
        exact Nat.lt_of_le_of_lt (Nat.pow_le_pow_right (by norm_num) (Nat.le_of_lt_succ hg.2)) (by norm_num)
      obtain ⟨a1, a2⟩ := advanceRunning_grow s.lzw hlt hg.1 hg.2 h4
      refine ⟨by rw [a1, a2, g4, pow_succ]; omega, by omega, by omega, fun _ => by omega⟩
    · obtain ⟨a1, a2⟩ := advanceRunning_same s.lzw hlt hg
      have b1 := congrArg BitVec.toNat a1
      have b2 := congrArg BitVec.toNat a2
      exact ⟨by rw [b1, b2, g4], by omega, by omega, fun _ => by omega⟩
  constructor <;> rw [e]
  · rw [kd]; exact g1
  · rw [kc, kd]; exact g2
  · rw [ke, kc]; exact g3
  · exact hw.1
  · rw [kd]; exact ⟨hw.2.1, hw.2.2.1⟩
  · rw [ke, hrc, hdebt]; omega
  · rw [hrc, hdebt]; omega
  · exact hw.2.2.2
  · intro c hc
    simp only [kt, ke, hrc, hdebt]
    rw [g9 c hc]
    omega
  · intro c hc hne
    simp only [kt] at hne ⊢
    rw [hdebt, kh]
    exact g10 c hc hne
  · intro c hc hne
    simp only [kt, ks, kc] at hne ⊢
    exact g11 c hc hne
  · rw [kp, hrc, ke, hdebt, g12]; omega
  · rw [kp, hdebt, kh]; exact g13
  · intro code kw hk; simp [hq] at hk

/-- The suffix walk of a definition due answers the first byte of the walked code's string (R98, R100, R102). -/
theorem LzwInv.define_walk {s : State} (h : LzwInv s) (hd : s.codeDebt = 1)
    (hp : s.lzw.prevCode ≠ Config.noSuchCode) {c : CodeField} (hc : hasString s.lzw 1 c.toNat) {b : Byte}
    {w : List Byte} (hw : Spells s.lzw c (b :: w)) :
    ∃ root, traceRoot (writePrefix s.lzw (s.lzw.runningCode.toNat - 2) s.lzw.prevCode) c = .ok root ∧
      root.setWidth 8 = b := by
  have hlow := h.running_low
  have hhigh := h.running_high
  have hend := h.end_eq
  have hne : s.lzw.runningCode.toNat ≠ s.lzw.endCode.toNat + 1 + s.codeDebt := fun e => hp (h.prev_none.2 e)
  obtain ⟨w', hw', hlen, -⟩ := h.spells (c := c) (by rw [hd]; exact hc)
  have hww := hw.unique hw'
  have hcv : c.toNat < 4096 := by
    have := h.clear_eq
    have hd8 : 2 ^ s.lzw.depth.toNat ≤ 2 ^ 8 := Nat.pow_le_pow_right (by norm_num) h.depth_range.2
    rcases hc with hc | hc <;> omega
  have hws : Spells (writePrefix s.lzw (s.lzw.runningCode.toNat - 2) s.lzw.prevCode) c (b :: w) := by
    refine hw.writePrefix _ _ fun d v hdv _ heq => ?_
    exact h.no_string (by omega) (by omega) v hdv
  refine hws.traceRoot ?_
  rw [← hww] at hlen
  simp only [List.length_cons] at hlen
  omega

/-- What a definition due does, from a state with the LZW registers of `s` (R100): a definition, or CorruptTable 5 in a full
table. -/
theorem LzwInv.define_eq {s u : State} (h : LzwInv s) (hd : s.codeDebt = 1) (hu : u.lzw = s.lzw)
    (hp : s.lzw.prevCode ≠ Config.noSuchCode) {code c : CodeField} {kw : Bool}
    (hcc : c = if kw then s.lzw.prevCode else code) (hc : hasString s.lzw 1 c.toNat) {b : Byte} {w : List Byte}
    (hw : Spells s.lzw c (b :: w)) :
    (s.lzw.runningCode.toNat ≤ 4097 → defineAndUpdate code kw u =
      { u with
        lzw :=
          { s.lzw with
            prefixTab := s.lzw.prefixTab.setIfInBounds (s.lzw.runningCode.toNat - 2) s.lzw.prevCode
            suffixTab := s.lzw.suffixTab.setIfInBounds (s.lzw.runningCode.toNat - 2) b
            prevCode := code }
        seq := .rowLoop }) ∧
    (4097 < s.lzw.runningCode.toNat → defineAndUpdate code kw u =
      { u with seq := .raising (.defineRange s.lzw.runningCode) }) := by
  have hlow := h.running_low
  refine ⟨fun hr => ?_, fun hr => ?_⟩
  · obtain ⟨root, h1, h2⟩ := h.define_walk hd hp hc hw
    rw [define_entry (root := root) (by rw [hu]; exact hp) (by rw [hu]; omega) (by rw [hu]; exact hr)
      (by rw [hu, ← hcc]; exact h1), hu, h2]
  · rw [define_range code kw (by rw [hu]; exact hp) (by rw [hu]; exact .inr hr), hu]

/-- A definition due keeps the LZW registers as they should be (R36, R100). -/
theorem LzwInv.define {s u : State} (h : LzwInv s) (hd : s.codeDebt = 1) (hu : u.lzw = s.lzw) {code : CodeField}
    {kw : Bool} (hk : if kw then s.lzw.prevCode ≠ Config.noSuchCode ∧ code.toNat + 2 = s.lzw.runningCode.toNat
      else hasString s.lzw 1 code.toNat) :
    ((defineAndUpdate code kw u).seq = .rowLoop ∧ LzwInv (defineAndUpdate code kw u)) ∨
      (s.lzw.runningCode.toNat = 4098 ∧
        defineAndUpdate code kw u = { u with seq := .raising (.defineRange s.lzw.runningCode) }) := by
  have hlow := h.running_low
  have hhigh := h.running_high
  have hend := h.end_eq
  have hclear := h.clear_eq
  have hd8 : 2 ^ s.lzw.depth.toNat ≤ 2 ^ 8 := Nat.pow_le_pow_right (by norm_num) h.depth_range.2
  have hnone : Config.noSuchCode.toNat = 4098 := rfl
  rw [hd] at hlow hhigh
  have hcode : code ≠ Config.noSuchCode := by
    intro e
    have e' : code.toNat = 4098 := by rw [e]; rfl
    cases kw with
    | true => have := hk.2; omega
    | false =>
      have hk : hasString s.lzw 1 code.toNat := hk
      rcases hk with hk | hk <;> omega
  by_cases hp : s.lzw.prevCode = Config.noSuchCode
  · have hrc := h.prev_none.1 hp
    rw [hd] at hrc
    cases kw with
    | true => exact absurd hp hk.1
    | false =>
      left
      have hk : hasString s.lzw 1 code.toNat := hk
      rw [define_none code false (by rw [hu]; exact hp), hu]
      obtain ⟨g1, g2, g3, g4, g5, g6, g7, g8, g9, g10, g11, g12, g13, -⟩ := h
      refine ⟨rfl, ?_⟩
      have hdebt : ∀ q : State, q.seq = .rowLoop → q.codeDebt = 0 := fun q hq => by
        simp [State.codeDebt, hq, Seq.midCode]
      have hempty : ∀ c (hc : c < 4096), s.lzw.prefixTab[c] = Config.noSuchCode := by
        intro c hc
        by_contra hne
        have := (g9 c hc).1 hne
        omega
      constructor <;> dsimp only <;> try rw [hdebt _ rfl]
      · exact g1
      · exact g2
      · exact g3
      · exact g4
      · exact g5
      · omega
      · omega
      · exact g8
      · intro c hc
        rw [hempty c hc]
        simp
        omega
      · intro c hc hne; exact absurd (hempty c hc) hne
      · intro c hc hne; exact absurd (hempty c hc) hne
      · constructor
        · intro e; exact absurd e hcode
        · intro e; omega
      · intro _
        simp only [hasString] at hk ⊢
        omega
      · intro code kw hq; simp at hq
  · have hne : s.lzw.runningCode.toNat ≠ s.lzw.endCode.toNat + 1 + 1 := fun e =>
      hp (h.prev_none.2 (by rw [hd]; exact e))
    have hprev := h.prev_string hp
    rw [hd] at hprev
    obtain ⟨c, hcc⟩ : ∃ c, c = if kw then s.lzw.prevCode else code := ⟨_, rfl⟩
    have hc : hasString s.lzw 1 c.toNat := by
      rw [hcc]
      cases kw with
      | true => exact hprev
      | false => exact hk
    obtain ⟨bw, hw, -, hall⟩ := h.spells (c := c) (by rw [hd]; exact hc)
    obtain ⟨b, w, rfl⟩ := hw.cons
    obtain ⟨h1, h2⟩ := h.define_eq hd hu hp hcc hc hw
    by_cases hr : s.lzw.runningCode.toNat ≤ 4097
    · left
      rw [h1 hr]
      refine ⟨rfl, ?_⟩
      obtain ⟨g1, g2, g3, g4, g5, g6, g7, g8, g9, g10, g11, g12, g13, -⟩ := h
      rw [hd] at g9 g10
      have hdebt : ∀ q : State, q.seq = .rowLoop → q.codeDebt = 0 := fun q hq => by
        simp [State.codeDebt, hq, Seq.midCode]
      constructor <;> dsimp only <;> try rw [hdebt _ rfl]
      · exact g1
      · exact g2
      · exact g3
      · exact g4
      · exact g5
      · omega
      · omega
      · exact g8
      · intro c hc
        rw [Vector.getElem_setIfInBounds]
        split
        · next he => simp [hp]; omega
        · next he => rw [g9 c hc]; omega
      · intro c hc hne'
        simp only [Vector.getElem_setIfInBounds] at hne' ⊢
        simp only [hasString] at *
        split at hne'
        · next he => rw [if_pos he]; omega
        · next he =>
          rw [if_neg he]
          have := g10 c hc hne'
          omega
      · intro c hc hne'
        simp only [Vector.getElem_setIfInBounds] at hne' ⊢
        split at hne'
        · next he => rw [if_pos he]; exact hall b (by simp)
        · next he => rw [if_neg he]; exact g11 c hc hne'
      · constructor
        · intro e; exact absurd e hcode
        · intro e; omega
      · intro _
        cases kw with
        | true =>
          have := hk.2
          simp only [hasString]
          omega
        | false =>
          have hk : hasString s.lzw 1 code.toNat := hk
          simp only [hasString] at hk ⊢
          omega
      · intro code kw hq; simp at hq
    · exact .inr ⟨by omega, h2 (by omega)⟩

theorem toNat_code13 (c : Code) : (c.setWidth 13 : CodeField).toNat = c.toNat := by
  rw [BitVec.toNat_setWidth]
  omega

/-- A KNOWN code has a string, and a code precedes it (R61, R95). -/
theorem LzwInv.known {s : State} (h : LzwInv s) (hd : s.codeDebt = 1) {c : Code}
    (hc : decodeCode s.codeContext c = .lzwKnown c) :
    hasString s.lzw 1 (c.setWidth 13 : CodeField).toNat ∧ s.lzw.prevCode ≠ Config.noSuchCode := by
  obtain ⟨-, -, h3⟩ := decodeCode_known hc
  obtain ⟨h1, h2⟩ := (h.defined_iff c.toNat c.isLt).1 h3
  rw [toNat_code13]
  rw [hd] at h2
  refine ⟨.inr ⟨h1, h2⟩, fun hp => ?_⟩
  have := h.prev_none.1 hp
  omega

/-- A KWKWK code is the one being defined, and a code precedes it (R61, R96). -/
theorem LzwInv.kwkwk {s : State} (h : LzwInv s) (hd : s.codeDebt = 1) {c : Code}
    (hc : decodeCode s.codeContext c = .lzwKwkwk c) :
    s.lzw.prevCode ≠ Config.noSuchCode ∧ (c.setWidth 13 : CodeField).toNat + 2 = s.lzw.runningCode.toNat := by
  obtain ⟨h1, h2, -, h4⟩ := decodeCode_kwkwk hc
  have hend := h.end_eq
  rw [toNat_code13]
  refine ⟨fun hp => ?_, h4⟩
  have := h.prev_none.1 hp
  have h1' : s.lzw.clearCode.toNat < c.toNat := h1
  have h2' : c.toNat ≠ s.lzw.endCode.toNat := h2
  have h4' : c.toNat + 2 = s.lzw.runningCode.toNat := h4
  omega

/-- A LITERAL is below the clear code (R61). -/
theorem literal_string {s : State} {c : Code} (hc : decodeCode s.codeContext c = .lzwLiteral c) (debt : Nat) :
    hasString s.lzw debt (c.setWidth 13 : CodeField).toNat := by
  rw [toNat_code13]
  exact .inl (decodeCode_literal hc)

/-- A KNOWN code's string goes onto the empty stack (R95, R99, R102, R103). -/
theorem LzwInv.known_expand {s : State} (h : LzwInv s) (hd : s.codeDebt = 1) {c : Code}
    (hc : decodeCode s.codeContext c = .lzwKnown c) (hs : s.stk.stackPtr.toNat = 0) :
    ∃ k w, expand s.lzw (c.setWidth 13) s.stk = .pushed k ∧ Spells s.lzw (c.setWidth 13) w ∧
      w.length ≤ 4096 ∧ (∀ v ∈ w, v.toNat < s.lzw.clearCode.toNat) ∧ k.stackPtr.toNat = w.length ∧
      k.stack.toList.take k.stackPtr.toNat = w.reverse := by
  obtain ⟨w, hw, hlen, hall⟩ := h.spells (c := c.setWidth 13) (by rw [hd]; exact (h.known hd hc).1)
  rw [toNat_code13] at hlen
  have hc := c.isLt
  obtain ⟨k, h1, h2, h3⟩ := hw.expand (k := s.stk) (by omega) (by omega)
  rw [hs] at h2 h3
  exact ⟨k, w, h1, hw, by omega, hall, by omega, by simpa using h3⟩

/-- A KWKWK code's two strings go onto the empty stack (R96, R99, R102, R103). -/
theorem LzwInv.kwkwk_expand {s : State} (h : LzwInv s) (hd : s.codeDebt = 1) {c : Code}
    (hc : decodeCode s.codeContext c = .lzwKwkwk c) (hs : s.stk.stackPtr.toNat = 0) :
    ∃ root k k' b w, traceRoot s.lzw s.lzw.prevCode = .ok root ∧ s.stk.push (root.setWidth 8) = some k ∧
      expand s.lzw s.lzw.prevCode k = .pushed k' ∧ Spells s.lzw s.lzw.prevCode (b :: w) ∧ (b :: w).length ≤ 4096 ∧
      (∀ v ∈ b :: w, v.toNat < s.lzw.clearCode.toNat) ∧ k'.stackPtr.toNat = (b :: w).length + 1 ∧
      k'.stack.toList.take k'.stackPtr.toNat = b :: (b :: w).reverse := by
  have hp := (h.kwkwk hd hc).1
  obtain ⟨bw, hw, hlen, hall⟩ := h.spells (h.prev_string hp)
  have hprev : s.lzw.prevCode.toNat < 4096 := by
    have hstr := h.prev_string hp
    have hhigh := h.running_high
    have hclear := h.clear_eq
    have hd8 : 2 ^ s.lzw.depth.toNat ≤ 2 ^ 8 := Nat.pow_le_pow_right (by norm_num) h.depth_range.2
    rcases hstr with hstr | hstr <;> omega
  obtain ⟨b, w, rfl⟩ := hw.cons
  have hlen' : w.length + 1 ≤ 4096 := by simpa using Nat.le_trans hlen (by omega)
  obtain ⟨root, r1, r2⟩ := hw.traceRoot (by omega)
  obtain ⟨k, p1, p2, p3⟩ := StackRegs.push_eq (k := s.stk) (root.setWidth 8) (by omega)
  rw [hs] at p2 p3
  simp only [List.take_zero, List.nil_append, Nat.zero_add] at p2 p3
  obtain ⟨k', x1, x2, x3⟩ := hw.expand (k := k) (by simp; omega) (by simp; omega)
  rw [p3, r2] at x3
  exact ⟨root, k, k', b, w, r1, p1, x1, hw, by simpa using hlen', hall, by omega, x3⟩

/-! ### The reader (R22) -/

theorem ReaderInv.congr {s t : State} (h : ReaderInv s) (e : t.reader = s.reader) : ReaderInv t :=
  ⟨e ▸ h.pos_le, e ▸ h.len_le⟩

theorem ReaderInv.empty {t : State} (hp : t.reader.chunkPos = 0#8) (hl : t.reader.chunkLen = 0#8) : ReaderInv t :=
  ⟨by rw [hp, hl], by rw [hl]; simp⟩

/-- Every move keeps CHUNK_POS ≤ CHUNK_LEN ≤ CHUNK_DECL. -/
theorem block_reader {s t : State} (h : ReaderInv s) (hm : BlockMove s t) : ReaderInv t := by
  have h1 := h.pos_le
  have h2 := h.len_le
  have hl := s.reader.chunkLen.isLt
  have hd := s.reader.chunkDecl.isLt
  cases hm
  case sbOpen => exact .empty rfl rfl
  case terminator k _ _ _ _ _ => cases k <;> exact .empty rfl rfl
  case length => exact .empty rfl rfl
  case decodeAtEnd => exact .empty rfl rfl
  case decodeIllegal => exact .empty rfl rfl
  case decodeLegal => exact .empty rfl rfl
  case chunkNone k _ _ => cases k <;> exact h.congr rfl
  case chunkEndOfInput k _ _ _ => cases k <;> exact h.congr rfl
  case payloadShort k _ _ _ => cases k <;> exact ⟨h.pos_le, h.len_le⟩
  case payloadWhole k _ _ => cases k <;> exact h.congr rfl
  case payloadRead hlt _ _ =>
    have e : (s.reader.chunkLen + 1#8).toNat = s.reader.chunkLen.toNat + 1 := by simp; omega
    refine ⟨?_, ?_⟩ <;> simp only [storePayload, afterRead, e] <;> omega
  case copyWrite i _ hi h255 _ =>
    refine ⟨?_, h.len_le⟩
    have e : (BitVec.ofNat 8 (i + 1)).toNat = i + 1 := by simp; omega
    show (BitVec.ofNat 8 (i + 1)).toNat ≤ s.reader.chunkLen.toNat
    omega
  case firstRow => unfold beginRow; split <;> exact h.congr rfl
  case nextRow => unfold beginRow; split <;> exact h.congr rfl
  case flushDone k _ _ =>
    cases k
    · exact h.congr rfl
    · refine h.congr ?_
      simp only [afterFlush]
      rw [define_frame]
  case codeLiteral =>
    refine h.congr ?_
    rw [define_frame]
    rfl
  case fetchByte hp h255 =>
    have hne : s.reader.chunkPos.toNat ≠ s.reader.chunkLen.toNat := fun e => hp (BitVec.eq_of_toNat_eq e)
    have e : (s.reader.chunkPos + 1#8).toNat = s.reader.chunkPos.toNat + 1 := by simp; omega
    refine ⟨?_, h.len_le⟩
    show (s.reader.chunkPos + 1#8).toNat ≤ s.reader.chunkLen.toNat
    omega
  case drain => exact ⟨Nat.le_refl _, h.len_le⟩
  all_goals exact h.congr rfl

/-! ### The LZW registers through a move -/

theorem debt_of_seq {s : State} {q : Seq} (h : s.seq = q) : s.codeDebt = if q.midCode then 1 else 0 := by
  simp [State.codeDebt, h]

/-- Every move keeps the LZW registers as they should be while a DECODE_IMAGE runs. -/
theorem block_lzw {s t : State} (h : s.decoding = true → LzwInv s) (hcmd : CommandInv s)
    (hm : BlockMove s t) (ht : t.decoding = true) : LzwInv t := by
  have keep : s.decoding = true → t.lzw = s.lzw → s.seq.midCode = false → t.seq.midCode = false → LzwInv t := by
    intro hs e h1 h2
    refine (h hs).congr e (by simp [State.codeDebt, h1, h2]) fun code kw hk => ?_
    rcases hk with hk | ⟨v, hk⟩ <;> simp [hk, Seq.midCode] at h2
  have def_of : ∀ code kw, s.decoding = true →
      (s.seq = .flush (.define code kw) ∨ ∃ v, s.seq = .emit v (.define code kw)) →
      s.lzw.prevCode ≠ Config.noSuchCode ∧
        if kw then code.toNat + 2 = s.lzw.runningCode.toNat else hasString s.lzw 1 code.toNat :=
    fun code kw hs => (h hs).define_code code kw
  cases hm
  case idle hq => simp [State.decoding, hq] at ht
  case nop => simp [State.decoding] at ht
  case sbOpen => simp [State.decoding] at ht
  case chunkAtTerm => simp [State.decoding] at ht
  case chunkAtEnd => simp [State.decoding] at ht
  case decodeAtEnd => simp [State.decoding] at ht
  case decodeIllegal => simp [State.decoding] at ht
  case copyWrite => simp [State.decoding] at ht
  case codeEnd => simp [State.decoding] at ht
  case codeInvalid => simp [State.decoding] at ht
  case codeKnownFailed => simp [State.decoding] at ht
  case codeKwkwkNoRoot => simp [State.decoding] at ht
  case codeKwkwkFailed => simp [State.decoding] at ht
  case finish => simp [State.decoding] at ht
  case raising => simp [State.decoding] at ht
  case chunkEndOfInput k _ _ _ => cases k <;> simp [returnEndOfInput, State.decoding] at ht
  case copyDone i hq _ =>
    have := hcmd.next_chunk (.inr (.inr ⟨i, hq⟩))
    simp [State.decoding, this] at ht
  case decodeLegal m hq _ _ _ h1 h8 =>
    obtain ⟨e1, e2, e3, -, -, -⟩ := acceptMcs_values m s.lzw h1 h8
    have r := fun t => LzwInv.reset (t := t)
      (r := { s.lzw with
        mcs := m, depth := m.setWidth 4, clearCode := BitVec.ofNat 13 (2 ^ m.toNat),
        endCode := BitVec.ofNat 13 (2 ^ m.toNat + 1) })
    change (m.setWidth 4).toNat = m.toNat at e1
    change (BitVec.ofNat 13 (2 ^ m.toNat)).toNat = 2 ^ m.toNat at e2
    change (BitVec.ofNat 13 (2 ^ m.toNat + 1)).toNat = 2 ^ m.toNat + 1 at e3
    dsimp only at r
    rw [e1, e2, e3] at r
    exact r _ h1 h8 rfl rfl rfl (.inr rfl)
  case terminator k hq _ _ _ _ =>
    cases k with
    | command =>
      have : s.status.lastCmd = 3#4 := by
        rcases hq with hq | ⟨-, hq⟩
        · exact hcmd.next_chunk (.inl hq)
        · exact hcmd.started _ hq
      simp [returnNone, State.decoding, afterRead, this] at ht
    | extractor => simp [returnNone, State.decoding] at ht
    | drain =>
      rcases hq with hq | ⟨hk, -⟩
      · exact keep (by simp [State.decoding, hq]) rfl (by simp [hq, Seq.midCode]) rfl
      · cases hk
  case length k hq _ _ _ _ =>
    cases k with
    | command => simp [State.decoding] at ht
    | extractor =>
      rcases hq with hq | ⟨hk, -⟩
      · exact keep (by simp [State.decoding, hq]) rfl (by simp [hq, Seq.midCode]) rfl
      · cases hk
    | drain =>
      rcases hq with hq | ⟨hk, -⟩
      · exact keep (by simp [State.decoding, hq]) rfl (by simp [hq, Seq.midCode]) rfl
      · cases hk
  case chunkNone k hq _ =>
    cases k with
    | command =>
      have := hcmd.next_chunk (.inl hq)
      simp [returnNone, State.decoding, this] at ht
    | extractor => simp [returnNone, State.decoding] at ht
    | drain => exact keep (by simp [State.decoding, hq]) rfl (by simp [hq, Seq.midCode]) rfl
  case payloadShort k hq _ _ =>
    cases k with
    | command => simp [returnChunk, State.decoding] at ht
    | extractor => exact keep (by simp [State.decoding, hq]) rfl (by simp [hq, Seq.midCode]) rfl
    | drain => exact keep (by simp [State.decoding, hq]) rfl (by simp [hq, Seq.midCode]) rfl
  case payloadWhole k hq _ =>
    cases k with
    | command => simp [returnChunk, State.decoding] at ht
    | extractor => exact keep (by simp [State.decoding, hq]) rfl (by simp [hq, Seq.midCode]) rfl
    | drain => exact keep (by simp [State.decoding, hq]) rfl (by simp [hq, Seq.midCode]) rfl
  case payloadRead k hq _ _ _ =>
    have e : ∀ b, (storePayload b (afterRead s)).seq = s.seq := fun _ => rfl
    refine keep ?_ rfl (by simp [hq, Seq.midCode]) (by rw [e]; simp [hq, Seq.midCode])
    simpa [State.decoding, e, hq] using ht
  case firstRow hq =>
    have hs : s.decoding = true := by simp [State.decoding, hq]
    unfold beginRow
    split <;> exact (h hs).congr rfl (by simp [State.codeDebt, hq, Seq.midCode]) fun code kw hk => by simp at hk
  case nextRow hq =>
    have hs : s.decoding = true := by simp [State.decoding, hq]
    unfold beginRow
    split <;> exact (h hs).congr rfl (by simp [State.codeDebt, hq, Seq.midCode]) fun code kw hk => by simp at hk
  case flushPop k hq _ _ _ =>
    have hs : s.decoding = true := by simp [State.decoding, hq]
    refine (h hs).congr rfl (by cases k <;> simp [State.codeDebt, hq, Seq.midCode]) fun code kw hk => ?_
    rcases hk with hk | ⟨v, hk⟩
    · simp at hk
    · simp only [Seq.emit.injEq] at hk
      exact def_of code kw hs (.inl (by rw [hq, hk.2]))
  case emit v k hq _ =>
    have hs : s.decoding = true := by simp [State.decoding, hq]
    refine (h hs).congr rfl (by cases k <;> simp [State.codeDebt, hq, Seq.midCode]) fun code kw hk => ?_
    rcases hk with hk | ⟨v, hk⟩
    · simp only [Seq.flush.injEq] at hk
      exact def_of code kw hs (.inr ⟨v, by rw [hq, hk]⟩)
    · simp at hk
  case flushDone k hq hd =>
    have hs : s.decoding = true := by simp [State.decoding, hq]
    cases k with
    | rowStart => exact keep hs rfl (by simp [hq, Seq.midCode]) rfl
    | define code kw =>
      have hdc := def_of code kw hs (.inl hq)
      rcases (h hs).define (u := s) (code := code) (kw := kw) (by simp [State.codeDebt, hq, Seq.midCode]) rfl
        (by cases kw <;> simp_all) with ⟨-, hl⟩ | ⟨-, he⟩
      · exact hl
      · simp only [afterFlush, he, State.decoding] at ht
        cases ht
  case rowLoop hq =>
    have hs : s.decoding = true := by simp [State.decoding, hq]
    exact keep hs rfl (by simp [hq, Seq.midCode]) (by dsimp only; split <;> rfl)
  case fetchNext hq _ _ => exact keep (by simp [State.decoding, hq]) rfl (by simp [hq, Seq.midCode]) rfl
  case fetchByte hq _ _ _ =>
    exact keep (by simp [State.decoding, hq]) rfl (by simp [hq, Seq.midCode]) (by simp [hq, Seq.midCode])
  case fetchCode hq _ =>
    exact (h (by simp [State.decoding, hq])).advance (by simp [State.codeDebt, hq, Seq.midCode]) rfl rfl
  case codeClear c hq _ =>
    have hi := h (by simp [State.decoding, hq])
    exact LzwInv.reset hi.depth_range.1 hi.depth_range.2 hi.clear_eq hi.end_eq rfl (.inl rfl)
  case codeLiteral c hq hc hsz =>
    have hs : s.decoding = true := by simp [State.decoding, hq]
    rcases (h hs).define (code := c.setWidth 13) (kw := false) (by simp [State.codeDebt, hq, Seq.midCode])
      (u := pixelDone { s with
        outSpace := s.outSpace.write (pixelOffset s) (c.setWidth 8)
        history := .outWrite (pixelOffset s) (c.setWidth 8) :: s.history }) rfl (literal_string hc 1) with ⟨-, hl⟩ | ⟨-, he⟩
    · exact hl
    · simp only [he, State.decoding] at ht
      cases ht
  case codeKnown c k hq hc hx =>
    have hs : s.decoding = true := by simp [State.decoding, hq]
    obtain ⟨k1, k2⟩ := (h hs).known (by simp [State.codeDebt, hq, Seq.midCode]) hc
    refine (h hs).congr rfl (by simp [State.codeDebt, hq, Seq.midCode]) fun code kw hk => ?_
    rcases hk with hk | ⟨v, hk⟩
    · simp only [Seq.flush.injEq, FlushCaller.define.injEq] at hk
      obtain ⟨rfl, rfl⟩ := hk
      exact ⟨k2, k1⟩
    · simp at hk
  case codeKwkwk c root k k' hq hc _ _ _ =>
    have hs : s.decoding = true := by simp [State.decoding, hq]
    have k1 := (h hs).kwkwk (by simp [State.codeDebt, hq, Seq.midCode]) hc
    refine (h hs).congr rfl (by simp [State.codeDebt, hq, Seq.midCode]) fun code kw hk => ?_
    rcases hk with hk | ⟨v, hk⟩
    · simp only [Seq.flush.injEq, FlushCaller.define.injEq] at hk
      obtain ⟨rfl, rfl⟩ := hk
      exact k1
    · simp at hk
  case drain hq => exact keep (by simp [State.decoding, hq]) rfl (by simp [hq, Seq.midCode]) rfl

/-! ### The extractor (R83) -/

/-- A byte taken below 12 held bits goes above them. -/
theorem takeByte_values (x : ExtractorRegs) (b : Byte) (h : x.shiftState.toNat < 12)
    (ha : x.shiftAcc.toNat < 2 ^ x.shiftState.toNat) :
    (takeByte x b).shiftAcc.toNat = x.shiftAcc.toNat + 2 ^ x.shiftState.toNat * b.toNat ∧
      (takeByte x b).shiftState.toNat = x.shiftState.toNat + 8 := by
  have hb := b.isLt
  have hlt : 2 ^ x.shiftState.toNat * b.toNat < 2 ^ 32 := by
    have : 2 ^ x.shiftState.toNat ≤ 2 ^ 12 := Nat.pow_le_pow_right (by norm_num) (by omega)
    calc _ ≤ 2 ^ 12 * b.toNat := Nat.mul_le_mul_right _ this
      _ < _ := by omega
  refine ⟨?_, by simp [takeByte]; omega⟩
  simp only [takeByte, BitVec.toNat_or, BitVec.toNat_shiftLeft, BitVec.toNat_setWidth]
  rw [Nat.mod_eq_of_lt (a := b.toNat) (by omega), Nat.shiftLeft_eq, Nat.mul_comm, Nat.mod_eq_of_lt hlt, Nat.or_comm,
    Nat.add_comm]
  exact (Nat.two_pow_add_eq_or_of_lt ha b.toNat).symm

/-- The accumulator stays below the bits held. -/
theorem takeByte_lt (x : ExtractorRegs) (b : Byte) (h : x.shiftState.toNat < 12)
    (ha : x.shiftAcc.toNat < 2 ^ x.shiftState.toNat) :
    (takeByte x b).shiftAcc.toNat < 2 ^ (takeByte x b).shiftState.toNat := by
  obtain ⟨e1, e2⟩ := takeByte_values x b h ha
  have hb := b.isLt
  rw [e1, e2, pow_add]
  calc _ < 2 ^ x.shiftState.toNat + 2 ^ x.shiftState.toNat * b.toNat := by omega
    _ = 2 ^ x.shiftState.toNat * (b.toNat + 1) := by ring
    _ ≤ _ := Nat.mul_le_mul_left _ (by omega)

/-- A code taken leaves the bits above it. -/
theorem dropCode_values (x : ExtractorRegs) (w : Nat) (hw : w ≤ x.shiftState.toNat) :
    (dropCode x w).shiftAcc.toNat = x.shiftAcc.toNat / 2 ^ w ∧
      (dropCode x w).shiftState.toNat = x.shiftState.toNat - w := by
  have := x.shiftState.isLt
  refine ⟨by simp [dropCode, Nat.shiftRight_eq_div_pow], by simp [dropCode]; omega⟩

theorem codeBits_toNat (x : ExtractorRegs) {w : Nat} (hw : w ≤ 12) :
    (codeBits x w).toNat = x.shiftAcc.toNat % 2 ^ w := by
  have : x.shiftAcc.toNat % 2 ^ w < 4096 :=
    Nat.lt_of_lt_of_le (Nat.mod_lt _ (by positivity)) (Nat.pow_le_pow_right (by norm_num) hw)
  simp [codeBits]
  omega

/-! ### The stack and the accumulator through a move (R36(f), (g)) -/

/-- Moves that keep the stack, the accumulator and the clear code. -/
theorem StackInv.congr {s t : State} (h : StackInv s) (es : t.stk = s.stk) (ex : t.extr = s.extr)
    (ec : t.lzw.clearCode = s.lzw.clearCode)
    (he : t.seq.needsEmptyStack = true → s.stk.stackPtr.toNat = 0)
    (hr : t.seq = .rowLoop ∨ t.seq = .nextRow → s.stk.stackPtr.toNat = 0 ∨ t.oper.width.toNat ≤ t.rows.col.toNat)
    (hf : ∀ v k, t.seq = .emit v k → v.toNat < s.lzw.clearCode.toNat) : StackInv t := by
  obtain ⟨g1, g2, g3, g4, g5, g6, g7⟩ := h
  constructor <;> simp only [es, ex, ec]
  all_goals assumption

/-- A new stack of pixels, over the same accumulator. -/
theorem StackInv.pushed {s t : State} (h : StackInv s) {w : List Byte} (ex : t.extr = s.extr)
    (ec : t.lzw.clearCode = s.lzw.clearCode) (hb : t.stk.stackPtr.toNat ≤ 4098)
    (hw : t.stk.stack.toList.take t.stk.stackPtr.toNat = w) (hall : ∀ v ∈ w, v.toNat < s.lzw.clearCode.toNat)
    {k : FlushCaller} (hq : t.seq = .flush k) : StackInv t := by
  refine ⟨?_, ?_, hb, ?_, ?_, ?_, ?_⟩
  · intro hn; simp [hq, Seq.needsEmptyStack] at hn
  · intro hn; simp [hq] at hn
  · rw [ec]
    exact (t.stk.bytes_forall hb fun v => v.toNat < s.lzw.clearCode.toNat).2 (by rw [hw]; exact hall)
  · intro v k hn; simp [hq] at hn
  · rw [ex]; exact h.acc_lt
  · rw [ex]; exact h.held_le

/-- Every move keeps the stack and the accumulator as they should be while a DECODE_IMAGE runs. -/
theorem block_stack {s t : State} (h : s.decoding = true → StackInv s) (hz : s.decoding = true → LzwInv s)
    (hcmd : CommandInv s) (hm : BlockMove s t) (ht : t.decoding = true) : StackInv t := by
  have keep : s.decoding = true → t.stk = s.stk → t.extr = s.extr → t.lzw.clearCode = s.lzw.clearCode →
      (t.seq.needsEmptyStack = true → s.stk.stackPtr.toNat = 0) → t.seq ≠ .rowLoop → t.seq ≠ .nextRow →
      (∀ v k, t.seq ≠ .emit v k) → StackInv t := fun hs e1 e2 e3 he h1 h2 h3 =>
    (h hs).congr e1 e2 e3 he (fun hk => (hk.elim h1 h2).elim) fun v k hk => (h3 v k hk).elim
  cases hm
  case idle hq => simp [State.decoding, hq] at ht
  case nop => simp [State.decoding] at ht
  case sbOpen => simp [State.decoding] at ht
  case chunkAtTerm => simp [State.decoding] at ht
  case chunkAtEnd => simp [State.decoding] at ht
  case decodeAtEnd => simp [State.decoding] at ht
  case decodeIllegal => simp [State.decoding] at ht
  case copyWrite => simp [State.decoding] at ht
  case codeEnd => simp [State.decoding] at ht
  case codeInvalid => simp [State.decoding] at ht
  case codeKnownFailed => simp [State.decoding] at ht
  case codeKwkwkNoRoot => simp [State.decoding] at ht
  case codeKwkwkFailed => simp [State.decoding] at ht
  case finish => simp [State.decoding] at ht
  case raising => simp [State.decoding] at ht
  case chunkEndOfInput k _ _ _ => cases k <;> simp [returnEndOfInput, State.decoding] at ht
  case copyDone i hq _ =>
    have := hcmd.next_chunk (.inr (.inr ⟨i, hq⟩))
    simp [State.decoding, this] at ht
  case decodeLegal m hq _ _ _ h1 h8 =>
    constructor <;> simp [beginDecode, openReader, afterRead]
  case terminator k hq _ _ _ _ =>
    cases k with
    | command =>
      have : s.status.lastCmd = 3#4 := by
        rcases hq with hq | ⟨-, hq⟩
        · exact hcmd.next_chunk (.inl hq)
        · exact hcmd.started _ hq
      simp [returnNone, State.decoding, afterRead, this] at ht
    | extractor => simp [returnNone, State.decoding] at ht
    | drain =>
      rcases hq with hq | ⟨hk, -⟩
      · exact keep (by simp [State.decoding, hq]) rfl rfl rfl (by simp [returnNone, Seq.needsEmptyStack])
          (by simp [returnNone]) (by simp [returnNone]) (by simp [returnNone])
      · cases hk
  case length k hq _ _ _ _ =>
    cases k with
    | command => simp [State.decoding] at ht
    | extractor =>
      rcases hq with hq | ⟨hk, -⟩
      · have hs : s.decoding = true := by simp [State.decoding, hq]
        exact keep hs rfl rfl rfl (fun _ => (h hs).empty (by simp [hq, Seq.needsEmptyStack])) (by simp) (by simp)
          (by simp)
      · cases hk
    | drain =>
      rcases hq with hq | ⟨hk, -⟩
      · exact keep (by simp [State.decoding, hq]) rfl rfl rfl (by simp [Seq.needsEmptyStack]) (by simp) (by simp)
          (by simp)
      · cases hk
  case chunkNone k hq _ =>
    cases k with
    | command =>
      have := hcmd.next_chunk (.inl hq)
      simp [returnNone, State.decoding, this] at ht
    | extractor => simp [returnNone, State.decoding] at ht
    | drain =>
      exact keep (by simp [State.decoding, hq]) rfl rfl rfl (by simp [returnNone, Seq.needsEmptyStack])
        (by simp [returnNone]) (by simp [returnNone]) (by simp [returnNone])
  case payloadShort k hq _ _ =>
    cases k with
    | command => simp [returnChunk, State.decoding] at ht
    | extractor =>
      have hs : s.decoding = true := by simp [State.decoding, hq]
      exact keep hs rfl rfl rfl (fun _ => (h hs).empty (by simp [hq, Seq.needsEmptyStack])) (by simp [returnChunk])
        (by simp [returnChunk]) (by simp [returnChunk])
    | drain =>
      exact keep (by simp [State.decoding, hq]) rfl rfl rfl (by simp [returnChunk, Seq.needsEmptyStack])
        (by simp [returnChunk]) (by simp [returnChunk]) (by simp [returnChunk])
  case payloadWhole k hq _ =>
    cases k with
    | command => simp [returnChunk, State.decoding] at ht
    | extractor =>
      have hs : s.decoding = true := by simp [State.decoding, hq]
      exact keep hs rfl rfl rfl (fun _ => (h hs).empty (by simp [hq, Seq.needsEmptyStack])) (by simp [returnChunk])
        (by simp [returnChunk]) (by simp [returnChunk])
    | drain =>
      exact keep (by simp [State.decoding, hq]) rfl rfl rfl (by simp [returnChunk, Seq.needsEmptyStack])
        (by simp [returnChunk]) (by simp [returnChunk]) (by simp [returnChunk])
  case payloadRead k hq _ _ _ =>
    have e : ∀ b, (storePayload b (afterRead s)).seq = s.seq := fun _ => rfl
    have hs : s.decoding = true := by simpa [State.decoding, e, hq] using ht
    exact keep hs rfl rfl rfl (fun hn => (h hs).empty hn) (by rw [e, hq]; simp) (by rw [e, hq]; simp)
      (by rw [e, hq]; simp)
  case firstRow hq =>
    have hs : s.decoding = true := by simp [State.decoding, hq]
    unfold beginRow
    split <;> exact (h hs).congr rfl rfl rfl (by simp [Seq.needsEmptyStack]) (by simp) (by simp)
  case nextRow hq =>
    have hs : s.decoding = true := by simp [State.decoding, hq]
    unfold beginRow
    split <;> exact (h hs).congr rfl rfl rfl (by simp [Seq.needsEmptyStack]) (by simp) (by simp)
  case flushPop k hq hp hb _ =>
    have hs : s.decoding = true := by simp [State.decoding, hq]
    have e : (s.stk.stackPtr - 1#13).toNat = s.stk.stackPtr.toNat - 1 := by simp; omega
    obtain ⟨g1, g2, g3, g4, g5, g6, g7⟩ := h hs
    refine ⟨?_, ?_, ?_, ?_, ?_, g6, g7⟩
    · simp [Seq.needsEmptyStack]
    · simp
    · show (s.stk.stackPtr - 1#13).toNat ≤ 4098
      omega
    · intro i hi hlt
      exact g4 i hi (by change i < (s.stk.stackPtr - 1#13).toNat at hlt; omega)
    · intro v k' hk
      simp only [Seq.emit.injEq] at hk
      rw [← hk.1]
      exact g4 _ (by omega) (by omega)
  case emit v k hq _ =>
    exact keep (by simp [State.decoding, hq]) rfl rfl rfl (by simp [Seq.needsEmptyStack]) (by simp) (by simp) (by simp)
  case flushDone k hq hd =>
    have hs : s.decoding = true := by simp [State.decoding, hq]
    cases k with
    | rowStart =>
      exact (h hs).congr rfl rfl rfl (by simp [afterFlush, Seq.needsEmptyStack]) (fun _ => hd) (by simp [afterFlush])
    | define code kw =>
      have hdc := (hz hs).define_code code kw (.inl hq)
      rcases (hz hs).define (u := s) (code := code) (kw := kw) (by simp [State.codeDebt, hq, Seq.midCode]) rfl
        (by cases kw <;> simp_all) with ⟨hl, -⟩ | ⟨-, he⟩
      · refine (h hs).congr ?_ ?_ ?_ ?_ (fun _ => ?_) ?_
        · simp only [afterFlush]; rw [define_frame]
        · simp only [afterFlush]; rw [define_frame]
        · simp only [afterFlush]; rw [define_frame]
        · simp [afterFlush, hl, Seq.needsEmptyStack]
        · simp only [afterFlush]; rw [define_frame]; exact hd
        · simp [afterFlush, hl]
      · simp only [afterFlush, he, State.decoding] at ht
        cases ht
  case rowLoop hq =>
    have hs : s.decoding = true := by simp [State.decoding, hq]
    have hre := (h hs).row_end (.inl hq)
    refine (h hs).congr rfl rfl rfl ?_ ?_ ?_
    · dsimp only
      split
      · intro _; omega
      · simp [Seq.needsEmptyStack]
    · intro _; exact hre
    · dsimp only
      split <;> simp
  case fetchNext hq _ _ =>
    have hs : s.decoding = true := by simp [State.decoding, hq]
    exact keep hs rfl rfl rfl (fun _ => (h hs).empty (by simp [hq, Seq.needsEmptyStack])) (by simp) (by simp) (by simp)
  case fetchByte hq hw hp h255 =>
    have hs : s.decoding = true := by simp [State.decoding, hq]
    obtain ⟨g1, g2, g3, g4, g5, g6, g7⟩ := h hs
    have hb := (hz hs).bits_range
    have hv := takeByte_values s.extr s.reader.chunkBuf[s.reader.chunkPos.toNat] (by omega) g6
    exact ⟨fun _ => g1 (by simp [hq, Seq.needsEmptyStack]), by simp [hq], g3, g4, by simp [hq],
      takeByte_lt _ _ (by omega) g6, by show (takeByte _ _).shiftState.toNat ≤ 19; omega⟩
  case fetchCode hq hw =>
    have hs : s.decoding = true := by simp [State.decoding, hq]
    obtain ⟨g1, g2, g3, g4, g5, g6, g7⟩ := h hs
    have hv := dropCode_values s.extr _ hw
    have hc : (advanceRunning s.lzw).clearCode = s.lzw.clearCode := by rw [advanceRunning_rest]
    refine ⟨fun _ => g1 (by simp [hq, Seq.needsEmptyStack]), by simp, g3, ?_, by simp, ?_, ?_⟩
    · intro i hi hlt
      rw [hc]
      exact g4 i hi hlt
    · show (dropCode _ _).shiftAcc.toNat < 2 ^ (dropCode _ _).shiftState.toNat
      rw [hv.1, hv.2, Nat.div_lt_iff_lt_mul (by positivity), ← pow_add]
      rw [Nat.sub_add_cancel hw]
      exact g6
    · show (dropCode _ _).shiftState.toNat ≤ 19
      omega
  case codeClear c hq _ =>
    have hs : s.decoding = true := by simp [State.decoding, hq]
    have hemp := (h hs).empty (by simp [hq, Seq.needsEmptyStack])
    exact (h hs).congr rfl rfl rfl (by simp [Seq.needsEmptyStack]) (fun _ => .inl hemp) (by simp)
  case codeLiteral c hq hc hsz =>
    have hs : s.decoding = true := by simp [State.decoding, hq]
    have hemp := (h hs).empty (by simp [hq, Seq.needsEmptyStack])
    rcases (hz hs).define (code := c.setWidth 13) (kw := false) (by simp [State.codeDebt, hq, Seq.midCode])
      (u := pixelDone { s with
        outSpace := s.outSpace.write (pixelOffset s) (c.setWidth 8)
        history := .outWrite (pixelOffset s) (c.setWidth 8) :: s.history }) rfl (literal_string hc 1) with ⟨hl, -⟩ | ⟨-, he⟩
    · refine (h hs).congr ?_ ?_ ?_ ?_ (fun _ => .inl hemp) ?_
      · rw [define_frame]; rfl
      · rw [define_frame]; rfl
      · rw [define_frame]; rfl
      · simp [hl, Seq.needsEmptyStack]
      · simp [hl]
    · simp only [he, State.decoding] at ht
      cases ht
  case codeKnown c k hq hc hx =>
    have hs : s.decoding = true := by simp [State.decoding, hq]
    have hemp := (h hs).empty (by simp [hq, Seq.needsEmptyStack])
    obtain ⟨k2, w, h1, -, h3, h4, h5, h6⟩ := (hz hs).known_expand (by simp [State.codeDebt, hq, Seq.midCode]) hc hemp
    rw [hx] at h1
    cases h1
    exact (h hs).pushed rfl rfl (by show k.stackPtr.toNat ≤ 4098; omega) h6
      (fun v hv => h4 v (by simpa using hv)) rfl
  case codeKwkwk c root k k' hq hc hr hp hx =>
    have hs : s.decoding = true := by simp [State.decoding, hq]
    have hemp := (h hs).empty (by simp [hq, Seq.needsEmptyStack])
    obtain ⟨root2, k2, k2', b, w, h1, h2, h3, -, h5, h6, h7, h8⟩ :=
      (hz hs).kwkwk_expand (by simp [State.codeDebt, hq, Seq.midCode]) hc hemp
    rw [hr] at h1
    cases h1
    rw [hp] at h2
    cases h2
    rw [hx] at h3
    cases h3
    refine (h hs).pushed rfl rfl (by show k'.stackPtr.toNat ≤ 4098; omega) h8 (fun v hv => h6 v ?_) rfl
    rcases List.mem_cons.1 hv with rfl | hv
    · simp
    · simpa [or_comm] using hv
  case drain hq =>
    have hs : s.decoding = true := by simp [State.decoding, hq]
    obtain ⟨g1, g2, g3, g4, g5, g6, g7⟩ := h hs
    exact ⟨fun _ => rfl, by simp [drainStart], Nat.zero_le _, fun i _ hlt => absurd hlt (Nat.not_lt_zero i),
      by simp [drainStart], g6, g7⟩

/-! ### LAST_CMD and PHASE through a move (R16, R17) -/

/-- Moves to a position that fixes nothing but its command. -/
theorem CommandInv.of_lastCmd {t : State} (hd : t.decoding = true → t.status.lastCmd = 1#4)
    (h3 : (t.seq = .nextChunk .command ∨ t.seq = .payload .command ∨ ∃ i, t.seq = .copyOut i) →
      t.status.lastCmd = 3#4)
    (hs : ∀ c, t.seq ≠ .start c) (hf : t.seq = .finish → t.status.lastCmd = 1#4 ∨ t.status.lastCmd = 3#4)
    (hr : ∀ e, t.seq = .raising e →
      (t.status.lastCmd = 1#4 ∧ e.mayPend = true) ∨ (t.status.lastCmd = 3#4 ∧ e = .noLengthInNextChunk))
    (hp : t.seq = .firstRow ∨ t.seq.inRow = true ∨ t.seq = .startDrain →
      t.status.phase ∈ [.initialized, .streaming, .cleared])
    (hc : ∀ c, t.seq = .process c → t.status.phase = .streaming)
    (hn : t.seq = .nextChunk .drain ∨ t.seq = .payload .drain → t.status.phase = .draining)
    (ho : t.seq = .finish → t.status.lastCmd = 1#4 → t.status.phase = .done) : CommandInv t :=
  ⟨fun c h => (hs c h).elim, hd, h3, hf, hr, hp, hc, hn, ho⟩

/-- A command that has ended. -/
theorem CommandInv.idle {t : State} (h : t.seq = .idle) : CommandInv t := by
  constructor <;> simp [h, State.decoding, Seq.inRow]

/-- A DECODE_IMAGE's error pending. -/
theorem CommandInv.pending {t : State} {e : BlockError} (h : t.seq = .raising e)
    (hc : (t.status.lastCmd = 1#4 ∧ e.mayPend = true) ∨ (t.status.lastCmd = 3#4 ∧ e = .noLengthInNextChunk)) :
    CommandInv t := by
  constructor <;> simp [h, State.decoding, Seq.inRow]
  exact hc

/-- A position in a row, or at its border, of a DECODE_IMAGE. -/
theorem CommandInv.row {t : State} (h : t.seq = .firstRow ∨ t.seq.inRow = true ∨ t.seq = .startDrain)
    (hl : t.status.lastCmd = 1#4) (hp : t.status.phase ∈ [.initialized, .streaming, .cleared])
    (hc : ∀ c, t.seq = .process c → t.status.phase = .streaming) : CommandInv t := by
  refine ⟨?_, fun _ => hl, ?_, ?_, ?_, fun _ => hp, hc, ?_, ?_⟩
  · intro c hq; simp [hq, Seq.inRow] at h
  · rintro (hq | hq | ⟨i, hq⟩) <;> simp [hq, Seq.inRow] at h
  · intro hq; simp [hq, Seq.inRow] at h
  · intro e hq; simp [hq, Seq.inRow] at h
  · rintro (hq | hq) <;> simp [hq, Seq.inRow] at h
  · intro hq; simp [hq, Seq.inRow] at h

/-- A position of the drain. -/
theorem CommandInv.draining {t : State} (h : t.seq = .nextChunk .drain ∨ t.seq = .payload .drain)
    (hl : t.status.lastCmd = 1#4) (hp : t.status.phase = .draining) : CommandInv t := by
  rcases h with h | h <;> constructor <;> simp [h, State.decoding, Seq.inRow, hl, hp]

/-- A position of SB_NEXT_CHUNK. -/
theorem CommandInv.chunk {t : State} (h : t.seq = .nextChunk .command ∨ t.seq = .payload .command ∨ ∃ i, t.seq = .copyOut i)
    (hl : t.status.lastCmd = 3#4) : CommandInv t := by
  rcases h with h | h | ⟨i, h⟩ <;> constructor <;> simp [h, State.decoding, Seq.inRow, hl]

/-- The end of a command. -/
theorem CommandInv.ending {t : State} (h : t.seq = .finish)
    (hl : (t.status.lastCmd = 1#4 ∧ t.status.phase = .done) ∨ t.status.lastCmd = 3#4) : CommandInv t := by
  rcases hl with ⟨hl, hp⟩ | hl <;> constructor <;> simp [h, State.decoding, Seq.inRow, hl]
  exact hp

/-- Every move keeps LAST_CMD and PHASE those of the position. -/
theorem block_command {s t : State} (h : CommandInv s) (hz : s.decoding = true → LzwInv s)
    (hk : s.decoding = true → StackInv s) (hm : BlockMove s t) : CommandInv t := by
  have dec : s.decoding = true → s.status.lastCmd = 1#4 := h.decode
  have ph : s.seq = .firstRow ∨ s.seq.inRow = true ∨ s.seq = .startDrain →
      s.status.phase ∈ [.initialized, .streaming, .cleared] := h.row_phase
  cases hm
  case idle => exact h
  case nop => exact .idle rfl
  case sbOpen => exact .idle rfl
  case chunkAtTerm => exact .idle rfl
  case chunkAtEnd => exact .idle rfl
  case decodeAtEnd => exact .idle rfl
  case codeEnd => exact .idle rfl
  case codeInvalid => exact .idle rfl
  case finish => exact .idle rfl
  case raising => exact .idle rfl
  case terminator k hq _ _ _ _ =>
    cases k with
    | command =>
      refine .ending rfl (.inr ?_)
      rcases hq with hq | ⟨-, hq⟩
      · exact h.next_chunk (.inl hq)
      · exact h.started _ hq
    | extractor =>
      rcases hq with hq | ⟨hk, -⟩
      · exact .pending rfl (.inl ⟨dec (by simp [State.decoding, hq]), rfl⟩)
      · cases hk
    | drain =>
      rcases hq with hq | ⟨hk, -⟩
      · exact .ending rfl (.inl ⟨dec (by simp [State.decoding, hq]), rfl⟩)
      · cases hk
  case length k hq _ _ _ _ =>
    cases k with
    | command =>
      refine .chunk (.inr (.inl rfl)) ?_
      rcases hq with hq | ⟨-, hq⟩
      · exact h.next_chunk (.inl hq)
      · exact h.started _ hq
    | extractor =>
      rcases hq with hq | ⟨hk, -⟩
      · exact .row (.inr (.inl rfl)) (dec (by simp [State.decoding, hq])) (ph (.inr (.inl (by simp [hq, Seq.inRow]))))
          (by simp)
      · cases hk
    | drain =>
      rcases hq with hq | ⟨hk, -⟩
      · exact .draining (.inr rfl) (dec (by simp [State.decoding, hq])) (h.drain_phase (.inl hq))
      · cases hk
  case decodeIllegal m hq _ _ _ _ => exact .pending rfl (.inl ⟨h.started _ hq, rfl⟩)
  case decodeLegal m hq _ _ _ _ _ => exact .row (.inl rfl) (h.started _ hq) (by simp [beginDecode, afterRead]) (by simp)
  case chunkNone k hq _ =>
    cases k with
    | command => exact .ending rfl (.inr (h.next_chunk (.inl hq)))
    | extractor => exact .pending rfl (.inl ⟨dec (by simp [State.decoding, hq]), rfl⟩)
    | drain => exact .ending rfl (.inl ⟨dec (by simp [State.decoding, hq]), rfl⟩)
  case chunkEndOfInput k hq _ _ =>
    cases k with
    | command => exact .pending rfl (.inr ⟨h.next_chunk (.inl hq), rfl⟩)
    | extractor => exact .pending rfl (.inl ⟨dec (by simp [State.decoding, hq]), rfl⟩)
    | drain => exact .pending rfl (.inl ⟨dec (by simp [State.decoding, hq]), rfl⟩)
  case payloadShort k hq _ _ =>
    cases k with
    | command => exact .chunk (.inr (.inr ⟨0, rfl⟩)) (h.next_chunk (.inr (.inl hq)))
    | extractor =>
      exact .row (.inr (.inl rfl)) (dec (by simp [State.decoding, hq])) (ph (.inr (.inl (by simp [hq, Seq.inRow]))))
        (by simp [returnChunk])
    | drain => exact .draining (.inl rfl) (dec (by simp [State.decoding, hq])) (h.drain_phase (.inr hq))
  case payloadWhole k hq _ =>
    cases k with
    | command => exact .chunk (.inr (.inr ⟨0, rfl⟩)) (h.next_chunk (.inr (.inl hq)))
    | extractor =>
      exact .row (.inr (.inl rfl)) (dec (by simp [State.decoding, hq])) (ph (.inr (.inl (by simp [hq, Seq.inRow]))))
        (by simp [returnChunk])
    | drain => exact .draining (.inl rfl) (dec (by simp [State.decoding, hq])) (h.drain_phase (.inr hq))
  case payloadRead k hq _ _ _ =>
    have e : ∀ b, (storePayload b (afterRead s)).seq = s.seq := fun _ => rfl
    cases k with
    | command => exact .chunk (.inr (.inl (by rw [e, hq]))) (h.next_chunk (.inr (.inl hq)))
    | extractor =>
      exact .row (.inr (.inl (by rw [e, hq]; rfl))) (dec (by simp [State.decoding, hq]))
        (ph (.inr (.inl (by simp [hq, Seq.inRow])))) (by rw [e, hq]; simp)
    | drain => exact .draining (.inr (by rw [e, hq])) (dec (by simp [State.decoding, hq])) (h.drain_phase (.inr hq))
  case copyWrite i hq _ _ _ => exact .chunk (.inr (.inr ⟨i + 1, rfl⟩)) (h.next_chunk (.inr (.inr ⟨i, hq⟩)))
  case copyDone i hq _ => exact .ending rfl (.inr (h.next_chunk (.inr (.inr ⟨i, hq⟩))))
  case firstRow hq =>
    have hl := dec (by simp [State.decoding, hq])
    have hp := ph (.inl hq)
    unfold beginRow
    split
    · exact .row (.inr (.inl rfl)) hl hp (by simp)
    · exact .row (.inr (.inr rfl)) hl hp (by simp)
  case nextRow hq =>
    have hl := dec (by simp [State.decoding, hq])
    have hp := ph (.inr (.inl (by simp [hq, Seq.inRow])))
    unfold beginRow
    split
    · exact .row (.inr (.inl rfl)) hl hp (by simp)
    · exact .row (.inr (.inr rfl)) hl hp (by simp)
  case flushPop k hq _ _ _ =>
    exact .row (.inr (.inl rfl)) (dec (by simp [State.decoding, hq])) (ph (.inr (.inl (by simp [hq, Seq.inRow]))))
      (by simp)
  case emit v k hq _ =>
    exact .row (.inr (.inl rfl)) (dec (by simp [State.decoding, hq])) (ph (.inr (.inl (by simp [hq, Seq.inRow]))))
      (by simp)
  case flushDone k hq hd =>
    have hs : s.decoding = true := by simp [State.decoding, hq]
    have hp := ph (.inr (.inl (by simp [hq, Seq.inRow])))
    cases k with
    | rowStart => exact .row (.inr (.inl rfl)) (dec hs) hp (by simp [afterFlush])
    | define code kw =>
      have hdc := (hz hs).define_code code kw (.inl hq)
      have hst : (defineAndUpdate code kw s).status = s.status := by rw [define_frame]
      rcases (hz hs).define (u := s) (code := code) (kw := kw) (by simp [State.codeDebt, hq, Seq.midCode]) rfl
        (by cases kw <;> simp_all) with ⟨hl, -⟩ | ⟨hrc, he⟩
      · exact .row (.inr (.inl (by simp [afterFlush, hl, Seq.inRow]))) (by simp only [afterFlush, hst]; exact dec hs)
          (by simp only [afterFlush, hst]; exact hp) (by simp [afterFlush, hl])
      · exact CommandInv.pending (e := .defineRange s.lzw.runningCode) (by simp only [afterFlush, he]) (.inl ⟨by simp only [afterFlush, hst]; exact dec hs,
          by simp [BlockError.mayPend, hrc]⟩)
  case rowLoop hq =>
    refine .row (.inr (.inl ?_)) (dec (by simp [State.decoding, hq])) (ph (.inr (.inl (by simp [hq, Seq.inRow])))) ?_
    · dsimp only; split <;> rfl
    · dsimp only; split <;> simp
  case fetchNext hq _ _ =>
    exact .row (.inr (.inl rfl)) (dec (by simp [State.decoding, hq])) (ph (.inr (.inl (by simp [hq, Seq.inRow]))))
      (by simp)
  case fetchByte hq _ _ _ =>
    exact .row (.inr (.inl (by simp [hq, Seq.inRow]))) (dec (by simp [State.decoding, hq]))
      (ph (.inr (.inl (by simp [hq, Seq.inRow])))) (by simp [hq])
  case fetchCode hq _ =>
    exact .row (.inr (.inl rfl)) (dec (by simp [State.decoding, hq])) (by simp) (by simp)
  case codeClear c hq _ => exact .row (.inr (.inl rfl)) (dec (by simp [State.decoding, hq])) (by simp) (by simp)
  case codeLiteral c hq hc hsz =>
    have hs : s.decoding = true := by simp [State.decoding, hq]
    have hp := ph (.inr (.inl (by simp [hq, Seq.inRow])))
    generalize hu : pixelDone _ = u
    have hul : u.lzw = s.lzw := by rw [← hu]; rfl
    have hust : u.status = s.status := by rw [← hu]; rfl
    have hst : (defineAndUpdate (c.setWidth 13) false u).status = s.status := by rw [define_frame]; exact hust
    rcases (hz hs).define (code := c.setWidth 13) (kw := false) (by simp [State.codeDebt, hq, Seq.midCode])
      (u := u) hul (literal_string hc 1) with ⟨hl, -⟩ | ⟨hrc, he⟩
    · exact .row (.inr (.inl (by simp [hl, Seq.inRow]))) (by rw [hst]; exact dec hs) (by rw [hst]; exact hp)
        (by simp [hl])
    · exact CommandInv.pending (e := .defineRange s.lzw.runningCode) (by rw [he]) (.inl ⟨by rw [hst]; exact dec hs, by simp [BlockError.mayPend, hrc]⟩)
  case codeKnown c k hq _ _ =>
    exact .row (.inr (.inl rfl)) (dec (by simp [State.decoding, hq])) (ph (.inr (.inl (by simp [hq, Seq.inRow]))))
      (by simp)
  case codeKwkwk c root k k' hq _ _ _ _ =>
    exact .row (.inr (.inl rfl)) (dec (by simp [State.decoding, hq])) (ph (.inr (.inl (by simp [hq, Seq.inRow]))))
      (by simp)
  case codeKnownFailed c k e hq hc hx =>
    have hs : s.decoding = true := by simp [State.decoding, hq]
    obtain ⟨_, _, h1, -⟩ := (hz hs).known_expand (by simp [State.codeDebt, hq, Seq.midCode]) hc
      ((hk hs).empty (by simp [hq, Seq.needsEmptyStack]))
    rw [hx] at h1
    cases h1
  case codeKwkwkNoRoot c e hq hc hr =>
    have hs : s.decoding = true := by simp [State.decoding, hq]
    obtain ⟨_, _, _, _, _, h1, -⟩ := (hz hs).kwkwk_expand (by simp [State.codeDebt, hq, Seq.midCode]) hc
      ((hk hs).empty (by simp [hq, Seq.needsEmptyStack]))
    rw [hr] at h1
    cases h1
  case codeKwkwkFailed c root k k' e hq hc hr hp hx =>
    have hs : s.decoding = true := by simp [State.decoding, hq]
    obtain ⟨_, _, _, _, _, h1, h2, h3, -⟩ := (hz hs).kwkwk_expand (by simp [State.codeDebt, hq, Seq.midCode]) hc
      ((hk hs).empty (by simp [hq, Seq.needsEmptyStack]))
    rw [hr] at h1
    cases h1
    rw [hp] at h2
    cases h2
    rw [hx] at h3
    cases h3
  case drain hq =>
    exact .draining (.inl rfl) (dec (by simp [State.decoding, hq])) rfl

/-! ### Progress (R38, R102, R103) -/

/-- The next pixel of a row that needs one lies within the image. -/
theorem RowInv.pixel_lt {s : State} (h : RowInv s) (hn : s.seq.needsPixel = true) (hi : s.seq.inRow = true) :
    pixelOffset s < s.oper.width.toNat * s.oper.height.toNat := by
  have hrow := (mem_rowOrder.1 (h.member hi)).1
  have hcol := h.col_lt hn
  dsimp only at hrow
  calc pixelOffset s < s.rows.row.toNat * s.oper.width.toNat + s.oper.width.toNat := Nat.add_lt_add_left hcol _
    _ = (s.rows.row.toNat + 1) * s.oper.width.toNat := by ring
    _ ≤ s.oper.height.toNat * s.oper.width.toNat := Nat.mul_le_mul_right _ hrow
    _ = _ := Nat.mul_comm _ _

/-- With the sizes of R38 the block always has a move. -/
theorem block_progress {s : State} (h : Inv s) (hs : HostSizes s) : ∃ t, blockStep s = .next t := by
  have hin : s.inAtEnd = false → s.oper.inPtr.toNat < s.inSpace.size := fun he =>
    Nat.lt_of_lt_of_le ((inAtEnd_false_iff s).1 he) hs.1
  have hout := hs.2
  have length : ∀ b s', ∃ t, exec (decodeLength b) s' = .next t := by
    intro b s'
    by_cases hb : b = 0#8
    · exact ⟨_, by rw [hb]; rfl⟩
    · exact ⟨_, by rw [decodeLength_of_ne hb]; rfl⟩
  cases hq : s.seq with
  | idle => exact ⟨_, blockStep_idle hq⟩
  | start c =>
    cases c with
    | nop => exact ⟨_, blockStep_start_nop hq⟩
    | sbOpen => exact ⟨_, blockStep_start_sbOpen hq⟩
    | sbNextChunk =>
      by_cases ht : s.reader.sbTerm = true
      · exact ⟨_, blockStep_start_chunk_term hq ht⟩
      · by_cases he : s.inAtEnd = true
        · exact ⟨_, blockStep_start_chunk_end hq (by simpa using ht) he⟩
        · rw [blockStep_start_chunk_byte hq (by simpa using ht) (by simpa using he) (hin (by simpa using he))]
          exact length _ _
    | decodeImage =>
      by_cases he : s.inAtEnd = true
      · exact ⟨_, blockStep_start_decode_end hq he⟩
      · rw [blockStep_start_decode_byte hq (by simpa using he) (hin (by simpa using he))]
        generalize s.inSpace.read s.oper.inPtr.toNat = m
        by_cases hm : mcsLegal m = true
        · obtain ⟨h1, h8⟩ := (mcsLegal_iff _).1 hm
          exact ⟨_, exec_mcs_legal _ h1 h8⟩
        · exact ⟨_, exec_mcs_illegal _ ((mcsLegal_false_iff _).1 (by simpa using hm))⟩
  | nextChunk k =>
    by_cases ht : s.reader.sbTerm = true
    · exact ⟨_, blockStep_nextChunk_term hq ht⟩
    · by_cases he : s.inAtEnd = true
      · exact ⟨_, blockStep_nextChunk_end hq (by simpa using ht) he⟩
      · rw [blockStep_nextChunk_byte hq (by simpa using ht) (by simpa using he) (hin (by simpa using he))]
        exact length _ _
  | payload k =>
    by_cases hl : s.reader.chunkLen.toNat < s.reader.chunkDecl.toNat
    · by_cases he : s.inAtEnd = true
      · exact ⟨_, blockStep_payload_short hq hl he⟩
      · exact ⟨_, blockStep_payload_read hq hl (by simpa using he) (hin (by simpa using he))⟩
    · exact ⟨_, blockStep_payload_whole hq (Nat.not_lt.1 hl)⟩
  | copyOut i =>
    have hl := s.reader.chunkLen.isLt
    by_cases hi : i < s.reader.chunkLen.toNat
    · exact ⟨_, blockStep_copy_write hq hi (by omega) (by omega)⟩
    · exact ⟨_, blockStep_copy_done hq (Nat.not_lt.1 hi)⟩
  | firstRow => exact ⟨_, blockStep_firstRow hq⟩
  | nextRow => exact ⟨_, blockStep_nextRow hq⟩
  | flush k =>
    by_cases hp : s.stk.stackPtr.toNat = 0 ∨ s.oper.width.toNat ≤ s.rows.col.toNat
    · exact ⟨_, blockStep_flush_done hq hp⟩
    · have hb := (h.stack (by simp [State.decoding, hq])).bound
      exact ⟨_, blockStep_flush_pop hq (by omega) hb (by omega)⟩
  | emit v k =>
    have hr := h.rows (by simp [State.decoding, hq])
    have := hr.pixel_lt (by simp [hq, Seq.needsPixel]) (by simp [hq, Seq.inRow])
    exact ⟨_, blockStep_emit hq (by omega)⟩
  | rowLoop => exact ⟨_, blockStep_rowLoop hq⟩
  | fetch =>
    by_cases hw : s.extr.shiftState.toNat < s.lzw.runningBits.toNat
    · by_cases hp : s.reader.chunkPos = s.reader.chunkLen
      · exact ⟨_, blockStep_fetch_next hq hw hp⟩
      · have h1 := h.reader.pos_le
        have hl := s.reader.chunkLen.isLt
        have hne : s.reader.chunkPos.toNat ≠ s.reader.chunkLen.toNat := fun e => hp (BitVec.eq_of_toNat_eq e)
        exact ⟨_, blockStep_fetch_byte hq hw hp (by omega)⟩
    · exact ⟨_, blockStep_fetch_code hq (Nat.not_lt.1 hw)⟩
  | process c =>
    have hd : s.decoding = true := by simp [State.decoding, hq]
    have hdebt : s.codeDebt = 1 := by simp [State.codeDebt, hq, Seq.midCode]
    have hemp := (h.stack hd).empty (by simp [hq, Seq.needsEmptyStack])
    rw [blockStep_process hq]
    have hclass := decodeCode_class s.codeContext c
    simp only [List.mem_cons, List.not_mem_nil, or_false] at hclass
    rcases hclass with hc | hc | hc | hc | hc | hc
    · exact ⟨_, by rw [hc]; rfl⟩
    · exact ⟨_, by rw [hc]; rfl⟩
    · have := (h.rows hd).pixel_lt (by simp [hq, Seq.needsPixel]) (by simp [hq, Seq.inRow])
      rw [hc]
      exact ⟨_, exec_literal (by omega)⟩
    · obtain ⟨k, _, h1, -⟩ := (h.lzw hd).known_expand hdebt hc hemp
      rw [hc]
      exact ⟨_, exec_known h1⟩
    · obtain ⟨root, k, k', _, _, h1, h2, h3, -⟩ := (h.lzw hd).kwkwk_expand hdebt hc hemp
      rw [hc]
      exact ⟨_, exec_kwkwk h1 h2 h3⟩
    · exact ⟨_, by rw [hc]; rfl⟩
  | startDrain => exact ⟨_, blockStep_startDrain hq⟩
  | finish => exact ⟨_, blockStep_finish hq⟩
  | raising e => exact ⟨_, blockStep_raising hq⟩

end Sys2Proof.Machine
end

