-- ==== Sys2Proof/Laws/Loops.lean ====
section
/-! SUPPORT. What the block's three byte loops do in `j` turns with no turn of the host pending: the payload loop of
`next_chunk` (R80), the copy loop of SB_NEXT_CHUNK (R74) and `flush` (R110). -/

namespace Sys2Proof.Machine

/-- A list built in rising order, seen newest first: its first entry stands last. -/
theorem reverse_map_range_succ {α : Type} (f : Nat → α) (j : Nat) (rest : List α) :
    ((List.range (j + 1)).map f).reverse ++ rest = ((List.range j).map fun i => f (i + 1)).reverse ++ f 0 :: rest := by
  rw [List.range_succ_eq_map, List.map_cons, List.map_map, List.reverse_cons, List.append_assoc]
  rfl

/-- `j` turns of the payload loop, all with input left, read `j` bytes into CHUNK_BUF (R80). -/
theorem payload_loop (j : Nat) :
    ∀ {s : State} {k : ChunkCaller}, s.agenda = [] → s.seq = .payload k →
      s.reader.chunkLen.toNat + j ≤ s.reader.chunkDecl.toNat → s.oper.inPtr.toNat + j ≤ s.oper.inEnd.toNat →
      s.oper.inEnd.toNat ≤ s.inSpace.size →
      ∃ t, Reaches s t ∧
        t = { s with
          reader := { s.reader with chunkLen := t.reader.chunkLen, chunkBuf := t.reader.chunkBuf }
          oper := { s.oper with inPtr := t.oper.inPtr }
          history := t.history } ∧
        t.reader.chunkLen.toNat = s.reader.chunkLen.toNat + j ∧ t.oper.inPtr.toNat = s.oper.inPtr.toNat + j ∧
        t.oper.inPtr = s.oper.inPtr + BitVec.ofNat 32 j ∧
        t.history = ((List.range j).map fun i =>
          Access.inRead (s.oper.inPtr.toNat + i) (s.inSpace.read (s.oper.inPtr.toNat + i))).reverse ++ s.history ∧
        ∀ i (h : i < 255), t.reader.chunkBuf[i] =
          if s.reader.chunkLen.toNat ≤ i ∧ i < s.reader.chunkLen.toNat + j then
            s.inSpace.read (s.oper.inPtr.toNat + (i - s.reader.chunkLen.toNat))
          else s.reader.chunkBuf[i] := by
  induction j with
  | zero => 
    intro s k ha hq hd he hs
    refine ⟨s, .refl s, rfl, rfl, rfl, by simp, rfl, fun i h => ?_⟩
    rw [if_neg (by omega)]
  | succ j ih =>
    intro s k ha hq hd he hs
    have hdl := s.reader.chunkDecl.isLt
    have h1 : step s = _ := (step_noTurns ha).trans (blockStep_payload_read hq (by omega) ((inAtEnd_false_iff s).2 (by omega)) (by omega))
    have e1 : (s.reader.chunkLen + 1#8).toNat = s.reader.chunkLen.toNat + 1 := by simp; omega
    have e2 : (s.oper.inPtr + 1#32).toNat = s.oper.inPtr.toNat + 1 := inPtr_succ (by omega)
    obtain ⟨t, r, g1, g2, g3, g3', g4, g5⟩ := ih (s := storePayload (s.inSpace.read s.oper.inPtr.toNat) (afterRead s)) (k := k) ha hq
      (by simp only [storePayload, afterRead, e1]; omega) (by simp only [storePayload, afterRead, e2]; omega) hs
    refine ⟨t, .head h1 r, g1, ?_, ?_, ?_, ?_, ?_⟩
    · rw [g2]; simp only [storePayload, afterRead, e1]; omega
    · rw [g3]; simp only [storePayload, afterRead, e2]; omega
    · rw [g3']; simp only [storePayload, afterRead]
      rw [BitVec.add_assoc]; congr 1
      apply BitVec.eq_of_toNat_eq; simp; omega
    · rw [g4, reverse_map_range_succ]
      have e : ∀ i, s.oper.inPtr.toNat + 1 + i = s.oper.inPtr.toNat + (i + 1) := fun i => by omega
      simp only [storePayload, afterRead, e2, e, Nat.add_zero]
    · intro i hi
      rw [g5 i hi]
      simp only [storePayload, afterRead, e1, e2]
      by_cases hn : i = s.reader.chunkLen.toNat
      · rw [if_neg (by omega), if_pos (by omega)]
        subst hn
        simp
      · rw [Vector.getElem_setIfInBounds, if_neg (Ne.symm hn)]
        by_cases hr : s.reader.chunkLen.toNat ≤ i ∧ i < s.reader.chunkLen.toNat + (j+1)
        · rw [if_pos (by omega), if_pos hr]
          congr 1; omega
        · rw [if_neg (by omega), if_neg hr]

/-- `j` turns of the copy loop from index `i` store entries `i` to `i + j − 1` of CHUNK_BUF to OUT (R74). -/
theorem copy_loop (j : Nat) :
    ∀ {s : State} {i : Nat}, Memory.wf s → s.agenda = [] → s.seq = .copyOut i → i + j ≤ s.reader.chunkLen.toNat →
      s.reader.chunkLen.toNat ≤ s.outSpace.size →
      ∃ t, Reaches s t ∧ t.seq = .copyOut (i + j) ∧
        t = { s with
          reader := { s.reader with chunkPos := t.reader.chunkPos }
          outSpace := t.outSpace, history := t.history, seq := t.seq } ∧
        t.reader.chunkPos.toNat = (if j = 0 then s.reader.chunkPos.toNat else i + j) ∧ Memory.wf t ∧
        t.outSpace.size = s.outSpace.size ∧
        (∀ f : Nat → Byte, (∀ a (h : a < 255), i ≤ a → a < i + j → f a = s.reader.chunkBuf[a]) → t.history =
          ((List.range j).map fun n => Access.outWrite (i + n) (f (i + n))).reverse ++ s.history) ∧
        (∀ a, a < i ∨ i + j ≤ a → t.outSpace.read a = s.outSpace.read a) ∧
        (∀ a (h : a < 255), i ≤ a → a < i + j → t.outSpace.read a = s.reader.chunkBuf[a]) := by
  induction j with
  | zero => 
    intro s i hm ha hq hd hs
    exact ⟨s, .refl s, hq, rfl, rfl, hm, rfl, fun _ _ => rfl, fun _ _ => rfl, fun a h h1 h2 => by omega⟩
  | succ j ih =>
    intro s i hm ha hq hd hs
    have hl := s.reader.chunkLen.isLt
    have h255 : i < 255 := by omega
    have h1 : step s = _ := (step_noTurns ha).trans (blockStep_copy_write hq (by omega) h255 (by omega))
    generalize hu : ({ s with
        outSpace := s.outSpace.write i s.reader.chunkBuf[i]
        history := .outWrite i s.reader.chunkBuf[i] :: s.history
        reader := { s.reader with chunkPos := BitVec.ofNat 8 (i + 1) }
        seq := .copyOut (i + 1) } : State) = u at h1
    have hmu : Memory.wf u := by rw [← hu]; exact ⟨hm.1, Space.write_wf hm.2 _ (by omega)⟩
    obtain ⟨t, r, g0, g1, g2, g3, g4, g5, g6, g7⟩ := ih (s := u) (i := i + 1) hmu (by rw [← hu]; exact ha) (by rw [← hu]) (by rw [← hu]; dsimp only; omega) (by rw [← hu]; exact hs)
    refine ⟨t, .head h1 r, by rw [g0]; congr 1; omega, ?_, ?_, g3, ?_, ?_, ?_, ?_⟩
    · rw [g1]; subst hu; rfl
    · rw [g2]; subst hu
      simp only
      have e : (BitVec.ofNat 8 (i+1)).toNat = i + 1 := by simp; omega
      rw [e]
      split <;> split <;> omega
    · rw [g4]; subst hu; rfl
    · intro f hf
      rw [g5 f fun a h h1 h2 => by rw [hf a h (by omega) (by omega), ← hu], reverse_map_range_succ, ← hu]
      dsimp only
      have e : ∀ n, i + 1 + n = i + (n + 1) := fun n => by omega
      simp only [e, Nat.add_zero, hf i h255 (Nat.le_refl i) (by omega)]
    · intro a h
      rw [g6 a (by omega), ← hu]
      dsimp only
      rw [Space.read_write hm.2, if_neg (by omega)]
    · intro a h h1 h2
      by_cases hai : a = i
      · subst hai
        rw [g6 a (by omega), ← hu]
        dsimp only
        rw [Space.read_write hm.2, if_pos rfl]
      · rw [g7 a h (by omega) (by omega), ← hu]

/-- `j` turns of `flush` move the stack's `j` top bytes to OUT at the current pixel and after (R109, R110). -/
theorem flush_loop (j : Nat) :
    ∀ {s : State} {k : FlushCaller}, Memory.wf s → s.agenda = [] → s.seq = .flush k → s.stk.stackPtr.toNat ≤ 4098 →
      j ≤ s.stk.stackPtr.toNat → s.rows.col.toNat + j ≤ s.oper.width.toNat → pixelOffset s + j ≤ s.outSpace.size →
      j ≤ s.rows.pixRemain.toNat →
      ∃ t, Reaches s t ∧
        t = { s with
          stk := { s.stk with stackPtr := t.stk.stackPtr }
          rows := { s.rows with col := t.rows.col, pixRemain := t.rows.pixRemain }
          outSpace := t.outSpace, history := t.history } ∧
        t.stk.stackPtr.toNat = s.stk.stackPtr.toNat - j ∧ t.rows.col.toNat = s.rows.col.toNat + j ∧
        t.rows.pixRemain.toNat = s.rows.pixRemain.toNat - j ∧
        (∀ a, a < pixelOffset s ∨ pixelOffset s + j ≤ a → t.outSpace.read a = s.outSpace.read a) ∧
        (∀ i, i < j → ∀ h : s.stk.stackPtr.toNat - 1 - i < 4098,
          t.outSpace.read (pixelOffset s + i) = s.stk.stack[s.stk.stackPtr.toNat - 1 - i]) := by
  induction j with
  | zero =>
    intro s k hm ha hq h1 h2 h3 h4 h5
    exact ⟨s, .refl s, rfl, rfl, rfl, rfl, fun _ _ => rfl, fun i h => by omega⟩
  | succ j ih =>
    intro s k hm ha hq h1 h2 h3 h4 h5
    have hw := s.oper.width.isLt
    have g1 : step s = _ := (step_noTurns ha).trans (blockStep_flush_pop hq (by omega) h1 (by omega))
    generalize hv : s.stk.stack[s.stk.stackPtr.toNat - 1] = v at g1
    have g2 : step { s with stk := { s.stk with stackPtr := s.stk.stackPtr - 1#13 }, seq := .emit v k } = _ := (step_noTurns (s := { s with stk := { s.stk with stackPtr := s.stk.stackPtr - 1#13 }, seq := .emit v k }) ha).trans (blockStep_emit (s := { s with stk := { s.stk with stackPtr := s.stk.stackPtr - 1#13 }, seq := .emit v k }) rfl (show pixelOffset s < s.outSpace.size by omega))
    have po : pixelOffset { s with stk := { s.stk with stackPtr := s.stk.stackPtr - 1#13 }, seq := .emit v k } = pixelOffset s := rfl
    rw [po] at g2
    dsimp only at g2
    generalize hu : ({ s with
        stk := { s.stk with stackPtr := s.stk.stackPtr - 1#13 }
        outSpace := s.outSpace.write (pixelOffset s) v
        history := .outWrite (pixelOffset s) v :: s.history
        rows := { s.rows with col := s.rows.col + 1#16, pixRemain := s.rows.pixRemain - 1#32 }
        seq := .flush k } : State) = u at g2
    have e1 : u.stk.stackPtr.toNat = s.stk.stackPtr.toNat - 1 := by rw [← hu]; simp; omega
    have e2 : u.rows.col.toNat = s.rows.col.toNat + 1 := by rw [← hu]; simp; omega
    have e3 : u.rows.pixRemain.toNat = s.rows.pixRemain.toNat - 1 := by
      have := s.rows.pixRemain.isLt
      rw [← hu]; simp; omega
    have e4 : pixelOffset u = pixelOffset s + 1 := by
      show u.rows.row.toNat * u.oper.width.toNat + u.rows.col.toNat = s.rows.row.toNat * s.oper.width.toNat + s.rows.col.toNat + 1
      rw [e2, ← hu]; dsimp only; omega
    have e5 : u.outSpace.size = s.outSpace.size := by rw [← hu]; rfl
    have e6 : u.oper = s.oper := by rw [← hu]
    have e7 : u.stk.stack = s.stk.stack := by rw [← hu]
    have hmu : Memory.wf u := by rw [← hu]; exact ⟨hm.1, Space.write_wf hm.2 _ (by omega)⟩
    have hread : ∀ a, u.outSpace.read a = if a = pixelOffset s then v else s.outSpace.read a := by
      intro a; rw [← hu]; dsimp only; rw [Space.read_write hm.2]; simp only [eq_comm]
    obtain ⟨t, r, f1, f2, f3, f4, f5, f6⟩ := ih (s := u) (k := k) hmu (by rw [← hu]; exact ha) (by rw [← hu]) (by omega) (by omega) (by rw [e2, e6]; omega) (by omega) (by omega)
    refine ⟨t, .head g1 (.head g2 r), ?_, by omega, by omega, by omega, ?_, ?_⟩
    · rw [f1]; subst hu; simp [hq]
    · intro a h
      rw [f5 a (by omega), hread, if_neg (by omega)]
    · intro i hi hb
      cases i with
      | zero => rw [f5 _ (by omega), hread, if_pos (by omega), ← hv]; rfl
      | succ i =>
        have := f6 i (by omega) (by omega)
        rw [show pixelOffset s + (i + 1) = pixelOffset u + i by omega, this]
        simp only [e7]
        congr 1
        omega

end Sys2Proof.Machine
end

