-- ==== Sys2Proof/Laws/PerInstr.lean ====
section
/-! SUPPORT. Statements for all instructions, one lemma for each constructor. -/

namespace Sys2Proof.Laws

/-- The format of encoded input a slot takes (R52). -/
def slotTakes (slot : Slot) (input : Encoded) : Bool :=
  match slot, input with
  | .command, .cmdw _ => true
  | .firstByte, .streamByte _ | .lengthByte, .streamByte _ => true
  | .code _, .lzwCode _ => true
  | _, _ => false

/-- What a slot takes, its decoder reads (R52). -/
theorem decode_of_takes {slot : Slot} {input : Encoded} (h : slotTakes slot input = true) :
    ∃ i, decode slot input = .ok i := by
  cases slot <;> cases input <;> first | exact ⟨_, rfl⟩ | cases h

/-- The encoding of an instruction has the format of every slot that can hold the instruction (R52, R53, R55, R58). -/
def EncodesForItsSlot.Statement (i : Instr) : Prop :=
  ∀ slot, i.readableAt slot = true → slotTakes slot (encode i) = true

theorem EncodesForItsSlot.nop (g : BitVec 28) : EncodesForItsSlot.Statement (.nop g) := by
  intro slot h
  cases slot <;> first | rfl | cases h

theorem EncodesForItsSlot.decodeImage (g : BitVec 28) : EncodesForItsSlot.Statement (.decodeImage g) := by
  intro slot h
  cases slot <;> first | rfl | cases h

theorem EncodesForItsSlot.sbOpen (g : BitVec 28) : EncodesForItsSlot.Statement (.sbOpen g) := by
  intro slot h
  cases slot <;> first | rfl | cases h

theorem EncodesForItsSlot.sbNextChunk (g : BitVec 28) : EncodesForItsSlot.Statement (.sbNextChunk g) := by
  intro slot h
  cases slot <;> first | rfl | cases h

theorem EncodesForItsSlot.reserved4 (g : BitVec 28) : EncodesForItsSlot.Statement (.reserved4 g) := by
  intro slot h
  cases slot <;> first | rfl | cases h

theorem EncodesForItsSlot.reserved5 (g : BitVec 28) : EncodesForItsSlot.Statement (.reserved5 g) := by
  intro slot h
  cases slot <;> first | rfl | cases h

theorem EncodesForItsSlot.reserved6 (g : BitVec 28) : EncodesForItsSlot.Statement (.reserved6 g) := by
  intro slot h
  cases slot <;> first | rfl | cases h

theorem EncodesForItsSlot.reserved7 (g : BitVec 28) : EncodesForItsSlot.Statement (.reserved7 g) := by
  intro slot h
  cases slot <;> first | rfl | cases h

theorem EncodesForItsSlot.reserved8 (g : BitVec 28) : EncodesForItsSlot.Statement (.reserved8 g) := by
  intro slot h
  cases slot <;> first | rfl | cases h

theorem EncodesForItsSlot.reserved9 (g : BitVec 28) : EncodesForItsSlot.Statement (.reserved9 g) := by
  intro slot h
  cases slot <;> first | rfl | cases h

theorem EncodesForItsSlot.reservedA (g : BitVec 28) : EncodesForItsSlot.Statement (.reservedA g) := by
  intro slot h
  cases slot <;> first | rfl | cases h

theorem EncodesForItsSlot.reservedB (g : BitVec 28) : EncodesForItsSlot.Statement (.reservedB g) := by
  intro slot h
  cases slot <;> first | rfl | cases h

theorem EncodesForItsSlot.reservedC (g : BitVec 28) : EncodesForItsSlot.Statement (.reservedC g) := by
  intro slot h
  cases slot <;> first | rfl | cases h

theorem EncodesForItsSlot.reservedD (g : BitVec 28) : EncodesForItsSlot.Statement (.reservedD g) := by
  intro slot h
  cases slot <;> first | rfl | cases h

theorem EncodesForItsSlot.reservedE (g : BitVec 28) : EncodesForItsSlot.Statement (.reservedE g) := by
  intro slot h
  cases slot <;> first | rfl | cases h

theorem EncodesForItsSlot.reservedF (g : BitVec 28) : EncodesForItsSlot.Statement (.reservedF g) := by
  intro slot h
  cases slot <;> first | rfl | cases h

theorem EncodesForItsSlot.lzwEnd (c : Code) : EncodesForItsSlot.Statement (.lzwEnd c) := by
  intro slot h
  cases slot <;> first | rfl | cases h

theorem EncodesForItsSlot.lzwClear (c : Code) : EncodesForItsSlot.Statement (.lzwClear c) := by
  intro slot h
  cases slot <;> first | rfl | cases h

theorem EncodesForItsSlot.lzwLiteral (c : Code) : EncodesForItsSlot.Statement (.lzwLiteral c) := by
  intro slot h
  cases slot <;> first | rfl | cases h

theorem EncodesForItsSlot.lzwKnown (c : Code) : EncodesForItsSlot.Statement (.lzwKnown c) := by
  intro slot h
  cases slot <;> first | rfl | cases h

theorem EncodesForItsSlot.lzwKwkwk (c : Code) : EncodesForItsSlot.Statement (.lzwKwkwk c) := by
  intro slot h
  cases slot <;> first | rfl | cases h

theorem EncodesForItsSlot.lzwInvalid (c : Code) : EncodesForItsSlot.Statement (.lzwInvalid c) := by
  intro slot h
  cases slot <;> first | rfl | cases h

theorem EncodesForItsSlot.mcs (b : Byte) : EncodesForItsSlot.Statement (.mcs b) := by
  intro slot h
  cases slot <;> first | rfl | cases h

theorem EncodesForItsSlot.sbLen (b : Byte) : EncodesForItsSlot.Statement (.sbLen b) := by
  intro slot h
  cases slot <;> first | rfl | cases h

theorem EncodesForItsSlot.sbTerminator : EncodesForItsSlot.Statement .sbTerminator := by
  intro slot h
  cases slot <;> first | rfl | cases h

end Sys2Proof.Laws
end

