-- ==== Sys2Proof/Tests/Slice0.lean ====
section
/-! SUPPORT. Tests: ill-formed terms, decodings of words written out from spec/30_encoding.md, single steps with results from
the spec's own vectors (spec/95_test_vectors.md), and for each obligation with hypotheses a state that meets them. -/

open Sys2Proof Sys2Proof.Machine

namespace Sys2Proof.Tests

/- One thread checks the tests: many at once hold a stack each, and the check of the whole package has little memory. -/
set_option Elab.async false

/-! ### Small states -/

/-- The reset state with every array filled with one value, over 64 bytes of IN and 256 of OUT. -/
def tiny : State :=
  { State.reset with
    reader := { ReaderRegs.afterReset 0 with chunkBuf := Vector.replicate 255 0x61#8 }
    lzw :=
      { LzwRegs.afterReset 0 with
        prefixTab := Vector.replicate 4096 4098#13, suffixTab := Vector.replicate 4096 0#8 }
    stk := { stackPtr := 0#13, stack := Vector.replicate 4098 0#8 }
    inSpace := { size := 64, cells := [] }
    outSpace := { size := 256, cells := [] } }

/-- A state where command `n` runs, at position `q`. -/
def running (n : BitVec 4) (q : Seq) (s : State) : State :=
  { s with status := { s.status with busy := true, lastCmd := n, phase := .streaming }, seq := q }

/-- A state whose IN holds `cells` and whose input ends at `e`. -/
def withInput (cells : List Host.Cell) (e : Word) (s : State) : State :=
  { s with inSpace := { s.inSpace with cells := cells }, oper := { s.oper with inEnd := e } }

/-- The image data of P1-data, without its trailing zero byte: IN = 02 03 44 10 05 00 (R66). -/
def p1 : State :=
  let s := withInput [(0, 2#8), (1, 3#8), (2, 0x44#8), (3, 0x10#8), (4, 5#8)] 6#32 tiny
  { s with oper := { s.oper with width := 2#16, height := 2#16 } }

/-- IN of S-abc: 03 61 62 63 00. -/
def abc : State := withInput [(0, 3#8), (1, 0x61#8), (2, 0x62#8), (3, 0x63#8)] 5#32 tiny

/-- V-rowcross with code `c` fetched where it fetches its last code, 6: DEPTH 2, slot 6 = (1, 2), row 1 of a 2 by 2 image. -/
def mid (c : Code) : State :=
  { tiny with
    status := { tiny.status with busy := true, lastCmd := 1#4, phase := .streaming }
    oper := { width := 2#16, height := 2#16, interlace := false, inPtr := 4#32, inEnd := 5#32 }
    reader := { tiny.reader with chunkLen := 2#8, chunkDecl := 2#8, chunkPos := 2#8 }
    extr := { shiftAcc := 5#32, shiftState := 4#6, curCode := c.setWidth 13 }
    lzw :=
      { mcs := 2#8, depth := 2#4, clearCode := 4#13, endCode := 5#13, runningCode := 9#13, runningBits := 4#4,
        maxCode1 := 16#13, prevCode := 2#13, prefixTab := (Vector.replicate 4096 4098#13).set 6 1#13
        suffixTab := (Vector.replicate 4096 0#8).set 6 2#8 }
    rows := { row := 1#16, pass := 0#2, col := 0#16, pixRemain := 2#32 }
    outSpace := { size := 256, cells := [(0, 1#8), (1, 2#8)] }
    seq := .process c }

/-- As `mid`, with the table full at RUNNING_CODE 4098: every entry above the end code is its predecessor and a 1. -/
def fullTable (c : Code) : State :=
  { mid c with
    lzw :=
      { (mid c).lzw with
        runningCode := 4098#13, runningBits := 12#4, maxCode1 := 4096#13
        prefixTab := Vector.ofFn fun i =>
          if i.val < 6 then 4098#13 else if i.val = 6 then 0#13 else BitVec.ofNat 13 (i.val - 1)
        suffixTab := Vector.replicate 4096 1#8 } }

/-- The result is a next state with the property. -/
def ends (r : Result) (p : State → Bool) : Bool :=
  match r with
  | .next s => p s
  | .fault _ => false
  | .refused _ => false

theorem ends_next {r : Result} {p : State → Bool} (h : ends r p = true) : ∃ t, r = .next t := by
  cases r with
  | next t => exact ⟨t, rfl⟩
  | fault _ => cases h
  | refused _ => cases h

/-! ### Ill-formed terms -/

theorem test_sbLen_zero_is_illFormed : WellFormed (.sbLen 0#8) = false := by decide

theorem test_literal_above_255_is_illFormed : WellFormed (.lzwLiteral 256#12) = false := by decide

theorem test_clear_not_a_power_is_illFormed : WellFormed (.lzwClear 5#12) = false := by decide

theorem test_end_not_above_a_power_is_illFormed : WellFormed (.lzwEnd 4#12) = false := by decide

theorem test_reference_below_4_is_illFormed :
    WellFormed (.lzwKnown 3#12) = false ∧ WellFormed (.lzwKwkwk 3#12) = false ∧ WellFormed (.lzwInvalid 3#12) = false := by
  decide

theorem test_wellFormed_terms :
    WellFormed (.sbLen 255#8) = true ∧ WellFormed (.lzwLiteral 255#12) = true ∧ WellFormed (.lzwClear 256#12) = true ∧
      WellFormed (.lzwEnd 257#12) = true ∧ WellFormed (.lzwKnown 4095#12) = true ∧ WellFormed (.mcs 9#8) = true := by
  decide

/-! ### Decodings (R53, R56, R57, R63): CODE is [3:0], the bits above are ignored -/

theorem test_decode_commands :
    decodeCommand 0xABCDEF00#32 = .nop 0xABCDEF0#28 ∧ decodeCommand 0x00000001#32 = .decodeImage 0#28 ∧
      decodeCommand 0x80000002#32 = .sbOpen 0x8000000#28 ∧ decodeCommand 0x00000013#32 = .sbNextChunk 1#28 := by decide

theorem test_decode_reserved :
    decodeCommand 0x4#32 = .reserved4 0#28 ∧ decodeCommand 0x5#32 = .reserved5 0#28 ∧
      decodeCommand 0x6#32 = .reserved6 0#28 ∧ decodeCommand 0x7#32 = .reserved7 0#28 ∧
      decodeCommand 0x8#32 = .reserved8 0#28 ∧ decodeCommand 0x9#32 = .reserved9 0#28 ∧
      decodeCommand 0xA#32 = .reservedA 0#28 ∧ decodeCommand 0xB#32 = .reservedB 0#28 ∧
      decodeCommand 0xC#32 = .reservedC 0#28 ∧ decodeCommand 0xD#32 = .reservedD 0#28 ∧
      decodeCommand 0xE#32 = .reservedE 0#28 ∧ decodeCommand 0xFFFFFFFF#32 = .reservedF 0xFFFFFFF#28 := by decide

theorem test_decode_stream_bytes :
    decode .firstByte (.streamByte 0x02#8) = .ok (.mcs 2#8) ∧ decode .firstByte (.streamByte 0x09#8) = .ok (.mcs 9#8) ∧
      decode .lengthByte (.streamByte 0x03#8) = .ok (.sbLen 3#8) ∧
      decode .lengthByte (.streamByte 0x00#8) = .ok .sbTerminator := by decide

/-- R63 at DEPTH 2: 3 is a literal, 4 the clear code, 5 the end code, 6 and 7 invalid. -/
theorem test_decode_first_codes :
    decodeCode freshContext 3#12 = .lzwLiteral 3#12 ∧ decodeCode freshContext 4#12 = .lzwClear 4#12 ∧
      decodeCode freshContext 5#12 = .lzwEnd 5#12 ∧ decodeCode freshContext 6#12 = .lzwInvalid 6#12 := by decide +kernel

/-- V-kwkwk: at the fetch of 6, RUNNING_CODE is 8 and slot 6 is undefined. -/
theorem test_decode_kwkwk : decodeCode { freshContext with runningCode := 8#13 } 6#12 = .lzwKwkwk 6#12 := by
  decide +kernel

/-- V-rowcross: 6 is defined when it is fetched. -/
theorem test_decode_known : decodeCode (mid 6#12).codeContext 6#12 = .lzwKnown 6#12 := by decide +kernel

/-- V-invalid: at the fetch of 7, RUNNING_CODE − 2 is 6. -/
theorem test_decode_invalid : decodeCode { freshContext with runningCode := 8#13 } 7#12 = .lzwInvalid 7#12 := by
  decide +kernel

theorem test_decode_rejects :
    decode .command (.streamByte 0#8) = .error .notACommandWord ∧ decode .firstByte (.cmdw 2#32) = .error .notAStreamByte ∧
      decode .lengthByte (.lzwCode 0#12) = .error .notAStreamByte ∧ decodeBytes .command [0#8, 0#8] = .error .tooShort := by
  decide

/-- R42: the command word's bits [7:0] are its first byte. -/
theorem test_decode_bytes : decodeBytes .command [0x13#8, 0#8, 0#8, 0#8, 7#8] = .ok (.sbNextChunk 1#28, [7#8]) := by decide

theorem test_table_words :
    decodeTableWord 32 2 = some (.sbOpen 0#28) ∧ decodeTableWord 8 255 = some (.sbLen 255#8) ∧
      decodeTableWord 0 5 = some (.lzwEnd 5#12) ∧ decodeTableWord 64 0 = none := by decide +kernel

/-! ### The packing example of R66 and R87: 44 10 05 at widths 3, 3, 3, 3, 4, 4 -/

theorem test_extract_first_code :
    let x := takeByte ExtractorRegs.zero 0x44#8
    codeBits x 3 = 4#12 ∧ dropCode x 3 = { shiftAcc := 8#32, shiftState := 5#6, curCode := 4#13 } := by decide

theorem test_extract_third_code :
    let x := takeByte { shiftAcc := 1#32, shiftState := 2#6, curCode := 0#13 } 0x10#8
    codeBits x 3 = 1#12 ∧ dropCode x 3 = { shiftAcc := 8#32, shiftState := 7#6, curCode := 1#13 } := by decide

/-! ### Commands (STATUS words of 95_test_vectors.md) -/

/-- R17, R70: from the acceptance PHASE is INITIALIZED; BUSY 1, LAST_CMD 1 (the P1 trace's PHASE 0 there: log entry 7). -/
theorem test_decodeImage_accepted :
    ends (step { p1 with agenda := [cmd .decodeImage] }) (fun t => statusWord t = 0x00011001#32) = true := by decide +kernel

/-- R82: the acceptance of SB_OPEN leaves the terminal state; BUSY 1, LAST_CMD 2. -/
theorem test_sbOpen_accepted :
    ends (step { tiny with reader := { tiny.reader with sbTerm := true }, agenda := [cmd .sbOpen] })
      (fun t => statusWord t = 0x00020001#32) = true := by decide +kernel

/-- V-mcs-eoi: STATUS 0x00016204, ERR_INFO 1/0, after one micro-step. -/
theorem test_decodeImage_at_end :
    ends (step (acceptCommand .decodeImage tiny))
      (fun t => statusWord t = 0x00016204#32 && errInfoWord t = 0x00010000#32) = true := by decide +kernel

/-- C-hibits: 0xABCDEF00 is a NOP; STATUS 0x00000002 at its end. -/
theorem test_nop_ends :
    ends (exec (decodeCommand 0xABCDEF00#32) tiny) (fun u => ends (step u) fun t => statusWord t = 2#32) = true := by
  decide +kernel

/-- B-cmd-busy: a NOP while BUSY only sets BADCMD. -/
theorem test_nop_rejected_busy :
    ends (exec (.nop 0#28) (running 1#4 .rowLoop tiny)) (fun t => statusWord t = 0x00012009#32 && t.seq = .rowLoop) = true := by
  decide +kernel

/-- C-open-eoi: SB_OPEN clears SB_TERM; STATUS 0x00025002 after a DONE decode. -/
theorem test_sbOpen_ends :
    ends (exec (.sbOpen 0#28)
        { tiny with status := { tiny.status with phase := .done }, reader := { tiny.reader with sbTerm := true } })
      (fun u => ends (step u) fun t => statusWord t = 0x00025002#32) = true := by decide +kernel

/-- S-eoi: STATUS 0x00030204, ERR_INFO SUB 3. -/
theorem test_sbNextChunk_at_end :
    ends (exec (.sbNextChunk 0#28) tiny)
      (fun u => ends (step u) fun t => statusWord t = 0x00030204#32 && errInfoWord t = 0x00030000#32) = true := by
  decide +kernel

/-- S-bad: a reserved code from reset leaves STATUS 0x00000008. -/
theorem test_reserved_codes_rejected :
    ([.reserved4 0#28, .reserved5 0#28, .reserved6 0#28, .reserved7 0#28, .reserved8 0#28, .reserved9 0#28, .reservedA 0#28,
        .reservedB 0#28, .reservedC 0#28, .reservedD 0#28, .reservedE 0#28, .reservedF 0#28].all fun i =>
      ends (exec i tiny) fun t => statusWord t = 8#32 && t.seq = .idle) = true := by decide +kernel

/-! ### Stream bytes -/

/-- P1 trace, micro-step 1: MCS 2 is accepted. -/
theorem test_mcs_accepted :
    ends (step (acceptCommand .decodeImage p1)) (fun t =>
      statusWord t = 0x00011001#32 && t.oper.inPtr = 1#32 && lzwCfgWord t = 0x202#32 && lzwCodesWord t = 0x00050004#32 &&
        lzwRunWord t = 0x00030006#32 && t.lzw.maxCode1 = 8#13 && t.lzw.prevCode = 4098#13 && t.rows.pixRemain = 4#32) =
      true := by decide +kernel

/-- V-mcs9: CorruptTable(1, 9), MCS 9, DEPTH kept. -/
theorem test_mcs_rejected :
    ends (exec (.mcs 9#8) (running 1#4 (.start .decodeImage) tiny)) (fun u => ends (step u) fun t =>
      statusWord t = 0x00016604#32 && errInfoWord t = 0x00010009#32 && lzwCfgWord t = 9#32) = true := by decide +kernel

/-- S-abc: the length byte 3 announces three bytes. -/
theorem test_sbLen_announces :
    ends (step (acceptCommand .sbNextChunk abc)) (fun t =>
      chunkWord t = 0x00000300#32 && t.oper.inPtr = 1#32 && t.seq = .payload .command) = true := by decide +kernel

/-- S-zero: the terminator at once. -/
theorem test_sbTerminator_ends :
    ends (step (acceptCommand .sbNextChunk (withInput [] 1#32 tiny))) (fun u => ends (step u) fun t =>
      statusWord t = 0x00030012#32 && t.oper.inPtr = 1#32 && chunkWord t = 0#32) = true := by decide +kernel

/-! ### Code classes -/

/-- V-premature's end: PrematureEnd(1, 5), STATUS 0x00016704. -/
theorem test_lzwEnd_raises :
    ends (exec (.lzwEnd 5#12) (mid 5#12))
      (fun t => statusWord t = 0x00016704#32 && errInfoWord t = 0x00010005#32) = true := by decide +kernel

/-- V-clearmid: after the clear, RUNNING_CODE 6, RUNNING_BITS 3, MAX_CODE1 8; the table is empty and PHASE CLEARED. -/
theorem test_lzwClear_resets :
    ends (exec (.lzwClear 4#12) (mid 4#12)) (fun t =>
      lzwRunWord t = 0x00030006#32 && t.lzw.maxCode1 = 8#13 && t.lzw.prevCode = 4098#13 && t.lzw.prefixTab[6] = 4098#13 &&
        t.status.phase = .cleared) = true := by decide +kernel

/-- P1 trace, micro-step 6: the literal 0 writes OUT[0] and makes no definition, PREV_CODE becomes 0. -/
theorem test_lzwLiteral_first :
    ends (exec (.lzwLiteral 0#12) { p1 with
        lzw := { acceptMcs 2#8 tiny.lzw with runningCode := 7#13 }
        rows := { row := 0#16, pass := 0#2, col := 0#16, pixRemain := 4#32 } }) (fun t =>
      t.history = [.outWrite 0 0#8] && t.lzw.prevCode = 0#13 && t.lzw.prefixTab[5] = 4098#13 && t.rows.col = 1#16 &&
        t.rows.pixRemain = 3#32) = true := by decide +kernel

/-- R100: a literal 3 after PREV_CODE 2 defines slot 7 = (2, 3) and writes ROW * WIDTH + COL = 2. -/
theorem test_lzwLiteral_defines :
    ends (exec (.lzwLiteral 3#12) (mid 3#12)) (fun t =>
      t.outSpace.read 2 = 3#8 && t.lzw.prefixTab[7] = 2#13 && t.lzw.suffixTab[7] = 3#8 && t.lzw.prevCode = 3#13) = true := by
  decide +kernel

/-- V-rowcross: code 6 pushes 2 and then 1. -/
theorem test_lzwKnown_pushes :
    ends (exec (.lzwKnown 6#12) (mid 6#12)) (fun t =>
      t.stk.stackPtr = 2#13 && t.stk.stack[0] = 2#8 && t.stk.stack[1] = 1#8) = true := by decide +kernel

/-- R96: with a literal previous code (2) the string is two copies of it. -/
theorem test_lzwKwkwk_pushes :
    ends (exec (.lzwKwkwk 7#12) (mid 7#12)) (fun t =>
      t.stk.stackPtr = 2#13 && t.stk.stack[0] = 2#8 && t.stk.stack[1] = 2#8 &&
        t.seq = .flush (.define 7#13 true)) = true := by decide +kernel

/-- V-invalid's end: InvalidCode(1, 7), STATUS 0x00016504. -/
theorem test_lzwInvalid_raises :
    ends (exec (.lzwInvalid 7#12) (mid 7#12))
      (fun t => statusWord t = 0x00016504#32 && errInfoWord t = 0x00010007#32) = true := by decide +kernel

/-! ### Walks on synthetic tables (95_test_vectors.md section 2.6) -/

/-- DEPTH 2 with 6 → 0 / 1, 7 → 6 / 2, 8 → 7 / 3 (T-chain). -/
def chainTable : LzwRegs :=
  { (mid 0#12).lzw with
    prefixTab := (((Vector.replicate 4096 4098#13).set 6 0#13).set 7 6#13).set 8 7#13
    suffixTab := (((Vector.replicate 4096 0#8).set 6 1#8).set 7 2#8).set 8 3#8 }

/-- T-literal, T-chain, T-clearstart. -/
theorem test_walks :
    (traceRoot chainTable 3#13 = .ok 3#13 ∧ traceRoot chainTable 8#13 = .ok 0#13 ∧
      traceRoot chainTable 4#13 = .error (.walkClear 4#13)) := by
  refine ⟨?_, ?_, ?_⟩ <;> decide +kernel

/-- T-undef and T-toclear: 7 → 9, which is undefined; 6 → 4, the clear code. -/
theorem test_walk_errors :
    traceRoot { chainTable with prefixTab := chainTable.prefixTab.set 7 9#13 } 7#13 = .error (.walkRange 4098#13) ∧
      traceRoot { chainTable with prefixTab := chainTable.prefixTab.set 6 4#13 } 6#13 = .error (.walkClear 4#13) := by
  refine ⟨?_, ?_⟩ <;> decide +kernel

/-- T-chain-expand: popping gives 0, 1, 2, 3. -/
theorem test_expand_chain :
    (match expand chainTable 8#13 tiny.stk with
      | .pushed k => (k.stackPtr, k.stack[0], k.stack[1], k.stack[2], k.stack[3])
      | .failed _ _ => (0#13, 0#8, 0#8, 0#8, 0#8)
      | .overflow => (0#13, 0#8, 0#8, 0#8, 0#8)) = (4#13, 3#8, 2#8, 1#8, 0#8) := by decide +kernel

/-! ### Memory -/

/-- Writing the byte an unlisted offset reads as removes the entry; a write below the others keeps the order. -/
theorem test_write_canonical :
    cellsWrite [(1, 5#8), (4, 7#8)] 4 0#8 = [(1, 5#8)] ∧ cellsWrite [(1, 5#8)] 0 9#8 = [(0, 9#8), (1, 5#8)] ∧
      cellsRead [(1, 5#8), (4, 7#8)] 4 = 7#8 ∧ cellsRead [(1, 5#8)] 2 = 0#8 := by decide

/-! ### Hypotheses met: encoding and the step -/

/-- A context with slot 6 defined and RUNNING_CODE 9. -/
def someContext : CodeContext := (mid 6#12).codeContext

theorem test_meets_decodeOfEncode :
    WellFormed (.sbOpen 5#28) = true ∧ (Instr.sbOpen 5#28).readableAt .command = true ∧
      WellFormed (.mcs 0#8) = true ∧ (Instr.mcs 0#8).readableAt .firstByte = true ∧
      WellFormed (.sbLen 1#8) = true ∧ (Instr.sbLen 1#8).readableAt .lengthByte = true ∧
      Instr.sbTerminator.readableAt .lengthByte = true ∧ someContext.wf = true ∧
      ([Instr.lzwEnd 5#12, .lzwClear 4#12, .lzwLiteral 3#12, .lzwKnown 6#12, .lzwKwkwk 7#12, .lzwInvalid 4095#12].all
        fun i => WellFormed i && i.readableAt (.code someContext)) = true := by decide +kernel

theorem test_meets_encodeOfDecode : decode .command (.cmdw 0x13#32) = .ok (.sbNextChunk 1#28) := by decide

theorem test_meets_codeClasses : freshContext.wf = true ∧ someContext.wf = true := by decide +kernel

theorem test_meets_step_command : ∃ s : State, s.atBoundary = true ∧ s.agenda = .host (.regWrite 32 0 3#32) :: [] :=
  ⟨{ tiny with agenda := [wr 0 3#32] }, by decide, rfl⟩

theorem test_meets_step_code : ∃ s : State, BlockMoves s s ∧ s.seq = .process 6#12 := ⟨mid 6#12, .noTurns rfl, rfl⟩

theorem test_meets_step_length :
    ∃ s : State, BlockMoves s s ∧ s.seq = .nextChunk .drain ∧ s.reader.sbTerm = false ∧
      s.oper.inPtr.toNat < s.oper.inEnd.toNat ∧ s.oper.inPtr.toNat < s.inSpace.size :=
  ⟨running 1#4 (.nextChunk .drain) abc, .noTurns rfl, rfl, rfl, by decide, by decide⟩

theorem test_meets_step_start_chunk :
    ∃ s : State, BlockMoves s s ∧ s.seq = .start .sbNextChunk ∧ s.reader.sbTerm = false ∧
      s.oper.inPtr.toNat < s.oper.inEnd.toNat ∧ s.oper.inPtr.toNat < s.inSpace.size :=
  ⟨running 3#4 (.start .sbNextChunk) abc, .noTurns rfl, rfl, rfl, by decide, by decide⟩

theorem test_meets_step_start_decode :
    ∃ s : State, BlockMoves s s ∧ s.seq = .start .decodeImage ∧
      s.oper.inPtr.toNat < s.oper.inEnd.toNat ∧ s.oper.inPtr.toNat < s.inSpace.size :=
  ⟨running 1#4 (.start .decodeImage) p1, .noTurns rfl, rfl, by decide, by decide⟩

theorem test_meets_idle : tiny.seq = .idle ∧ tiny.agenda = [] := ⟨rfl, rfl⟩

/-! ### Hypotheses met: commands -/

theorem test_meets_commandsAccepted :
    tiny.status.busy = false ∧ (Instr.decodeImage 7#28, Command.decodeImage, 1#4) ∈
      [(Instr.nop 7#28, Command.nop, 0#4), (Instr.decodeImage 7#28, Command.decodeImage, 1#4),
        (Instr.sbOpen 7#28, Command.sbOpen, 2#4), (Instr.sbNextChunk 7#28, Command.sbNextChunk, 3#4)] := by decide

/-- BUSY = 1; the codes 4 and 15; and code 3 while idle. -/
theorem test_meets_cmdWrites :
    (running 1#4 .rowLoop tiny).status.busy = true ∧ 4 ≤ (0x14#32).toNat % 16 ∧ 4 ≤ (0xFFFFFFFF#32).toNat % 16 ∧
      tiny.status.busy = false ∧ (0x13#32).toNat % 16 = Command.sbNextChunk.code.toNat := by decide

theorem test_meets_nop_and_sbOpen : tiny.status.busy = false ∧ tiny.agenda = [] := ⟨rfl, rfl⟩

/-- The terminal reader; the input at end with IN_PTR = IN_END, and with IN_PTR above it. -/
theorem test_meets_nextChunkAtOnce :
    (let s := { tiny with reader := { tiny.reader with sbTerm := true } };
      s.status.busy = false ∧ s.agenda = [] ∧ s.reader.sbTerm = true) ∧
    (∀ p ∈ [8#32, 9#32], let s := { tiny with oper := { tiny.oper with inPtr := p, inEnd := 8#32 } }
      s.status.busy = false ∧ s.agenda = [] ∧ s.reader.sbTerm = false ∧ s.oper.inEnd.toNat ≤ s.oper.inPtr.toNat) := by
  refine ⟨⟨rfl, rfl, rfl⟩, fun p hp => ?_⟩
  rcases List.mem_pair.1 hp with rfl | rfl <;> exact ⟨rfl, rfl, rfl, by decide⟩

/-- S-abc (k = L = 3), S-short (k = 2 < 5) and S-lenlast (k = 0 < 4). -/
theorem test_meets_copiesTheChunk :
    (∀ x ∈ [(abc, 3, 3), (withInput [(0, 5#8), (1, 0x11#8), (2, 0x22#8)] 3#32 tiny, 5, 2),
        (withInput [(0, 4#8)] 1#32 tiny, 4, 0)],
      x.1.status.busy = false ∧ x.1.agenda = [] ∧ Memory.wf x.1 ∧ x.1.reader.sbTerm = false ∧
      x.1.oper.inPtr.toNat < x.1.oper.inEnd.toNat ∧ x.1.oper.inEnd.toNat ≤ x.1.inSpace.size ∧
      x.2.1 = (x.1.inSpace.read x.1.oper.inPtr.toNat).toNat ∧ 0 < x.2.1 ∧
      x.2.2 = min x.2.1 (x.1.oper.inEnd.toNat - (x.1.oper.inPtr.toNat + 1)) ∧ x.2.2 ≤ x.1.outSpace.size) := by
  decide +kernel

theorem test_meets_readsTheTerminator :
    let s := withInput [] 1#32 tiny
    s.status.busy = false ∧ s.agenda = [] ∧ s.reader.sbTerm = false ∧ s.oper.inPtr.toNat < s.oper.inEnd.toNat ∧
      s.oper.inPtr.toNat < s.inSpace.size ∧ s.inSpace.read s.oper.inPtr.toNat = 0#8 := by decide

/-- V-mcs-eoi, V-mcs0 and V-mcs9. -/
theorem test_meets_badStart :
    tiny.status.busy = false ∧ tiny.agenda = [] ∧ tiny.oper.inEnd.toNat ≤ tiny.oper.inPtr.toNat ∧
      (∀ m ∈ [0#8, 9#8], let s := withInput (if m = 0#8 then [] else [(0, m)]) 3#32 tiny
        s.oper.inPtr.toNat < s.oper.inEnd.toNat ∧ s.oper.inPtr.toNat < s.inSpace.size ∧
          s.inSpace.read s.oper.inPtr.toNat = m ∧ (m.toNat < 1 ∨ 8 < m.toNat)) := by decide

/-- Accepted while idle (codes 1, 2 and 3), rejected while BUSY. -/
theorem test_meets_commandWordsKeep :
    tiny.status.busy = false ∧ (∀ w ∈ [0x11#32, 0x12#32, 0x13#32], ∃ t, exec (decodeCommand w) tiny = .next t) ∧
      ∃ t, exec (decodeCommand 0x11#32) (running 1#4 .rowLoop tiny) = .next t := by
  refine ⟨rfl, fun w hw => ?_, _, rfl⟩
  simp only [List.mem_cons, List.not_mem_nil, or_false] at hw
  rcases hw with rfl | rfl | rfl <;> exact ⟨_, rfl⟩

/-! ### Hypotheses met: register accesses and reset -/

/-- Each of the four operand registers, a read-only register and both ends of the reserved offsets. -/
theorem test_meets_operandWrites :
    ∀ off ∈ [0x0C, 0x10, 0x14, 0x18, 0x04, 0x4C, 0xFC], let s := { tiny with agenda := [wr off 0xFFFFFFFF#32] }
      s.atBoundary = true ∧ s.status.busy = false ∧ off % 4 = 0 ∧ off < 256 ∧ off ≠ 0 ∧
        s.agenda = .host (.regWrite 32 off 0xFFFFFFFF#32) :: [] := by decide

theorem test_meets_writesIgnored :
    ∀ off ∈ [0, 0x0C, 0xFC], let s := { running 1#4 (.emit 0#8 .rowStart) tiny with agenda := [wr off 1#32] }
      s.atBoundary = true ∧ s.status.busy = true ∧ off % 4 = 0 ∧ off < 256 ∧
        s.agenda = .host (.regWrite 32 off 1#32) :: [] := by decide

theorem test_meets_reads :
    ∀ off ∈ [0, 0x04, 0x48, 0x4C, 0xFC], let s := { tiny with agenda := [rd off] }
      s.atBoundary = true ∧ off % 4 = 0 ∧ off < 256 ∧ s.agenda = .host (.regRead 32 off) :: [] := by decide

theorem test_meets_partialAccesses :
    ∀ x ∈ [(8, 0), (16, 4), (32, 1), (32, 6)], let s := { tiny with agenda := [.host (.regRead x.1 x.2)] }
      s.atBoundary = true ∧ (x.1 ≠ 32 ∨ x.2 % 4 ≠ 0) ∧ s.agenda = .host (.regRead x.1 x.2) :: [] := by decide

theorem test_meets_resetTurn :
    let s := { running 1#4 .finish tiny with agenda := [.reset] }
    s.atBoundary = true ∧ s.agenda = .reset :: [] := by decide

/-! ### Hypotheses met: stream bytes and the extractor -/

theorem test_meets_mcs :
    1 ≤ (1#8).toNat ∧ (1#8).toNat ≤ 8 ∧ 1 ≤ (8#8).toNat ∧ (8#8).toNat ≤ 8 ∧ (0#8).toNat < 1 ∧ 8 < (9#8).toNat := by decide

theorem test_meets_lengthByte :
    (1#8) ≠ 0#8 ∧ (255#8) ≠ 0#8 ∧ ∀ k ∈ [ChunkCaller.command, .extractor, .drain],
      (running 1#4 (.nextChunk k) tiny).seq = .nextChunk k := by decide

/-- A payload byte to read, the input at end before the payload is, and the payload complete. -/
theorem test_meets_payload :
    (∃ s u : State, BlockMoves s s ∧ s.seq = .payload .drain ∧ s.reader.chunkLen.toNat < s.reader.chunkDecl.toNat ∧
      s.oper.inPtr.toNat < s.oper.inEnd.toNat ∧ s.oper.inPtr.toNat < s.inSpace.size ∧
      BlockMoves u u ∧ u.seq = .payload .extractor ∧ u.reader.chunkLen.toNat < u.reader.chunkDecl.toNat ∧
      u.oper.inEnd.toNat ≤ u.oper.inPtr.toNat) ∧
    ∀ k ∈ [ChunkCaller.command, .extractor, .drain],
      let s := { running 1#4 (.payload k) tiny with reader := { tiny.reader with chunkLen := 255#8, chunkDecl := 255#8 } }
      BlockMoves s s ∧ s.seq = .payload k ∧ s.reader.chunkDecl.toNat ≤ s.reader.chunkLen.toNat :=
  ⟨⟨{ running 1#4 (.payload .drain) abc with reader := { abc.reader with chunkDecl := 1#8 } },
    { running 1#4 (.payload .extractor) tiny with reader := { tiny.reader with chunkLen := 254#8, chunkDecl := 255#8 } },
    .noTurns rfl, rfl, by decide, by decide, by decide, .noTurns rfl, rfl, by decide, by decide⟩,
    fun _ _ => ⟨.noTurns rfl, rfl, Nat.le_refl _⟩⟩

theorem test_meets_nextChunkWithoutAByte :
    ∃ s u : State, BlockMoves s s ∧ s.seq = .nextChunk .extractor ∧ s.reader.sbTerm = true ∧
      BlockMoves u u ∧ u.seq = .nextChunk .drain ∧ u.reader.sbTerm = false ∧ u.oper.inEnd.toNat ≤ u.oper.inPtr.toNat :=
  ⟨{ running 1#4 (.nextChunk .extractor) tiny with reader := { tiny.reader with sbTerm := true } },
    running 1#4 (.nextChunk .drain) tiny, .noTurns rfl, rfl, rfl, .noTurns rfl, rfl, rfl, by decide⟩

theorem test_meets_streamBytesKeep :
    (∃ t, exec (.mcs 2#8) tiny = .next t) ∧ (∃ t, exec (.sbLen 3#8) tiny = .next t) ∧
      ∃ t, exec .sbTerminator tiny = .next t :=
  ⟨⟨_, rfl⟩, ⟨_, rfl⟩, ⟨_, rfl⟩⟩

/-- `mid` where its next code is due: DEPTH 2, RUNNING_CODE 8, RUNNING_BITS 3, with `held` bits in the accumulator. -/
def fetching (held : BitVec 6) : State :=
  { mid 0#12 with
    lzw := { (mid 0#12).lzw with runningCode := 8#13, runningBits := 3#4, maxCode1 := 8#13 }
    extr := { shiftAcc := 0#32, shiftState := held, curCode := 0#13 }
    reader := { (mid 0#12).reader with chunkPos := 1#8 }
    seq := .fetch }

/-- Below and at the growth of the width, and at the full table, with just the bits of the code held and with more. -/
theorem test_meets_fetch :
    ∀ x ∈ [(7, 3, 3), (8, 3, 3), (8, 3, 10), (4097, 12, 12), (4097, 12, 19)],
      let s : State :=
        { fetching (BitVec.ofNat 6 x.2.2) with
          lzw :=
            { (fetching 3#6).lzw with
              runningCode := BitVec.ofNat 13 x.1, runningBits := BitVec.ofNat 4 x.2.1
              maxCode1 := BitVec.ofNat 13 (2 ^ x.2.1) } }
      (s.agenda = [] ∧ s.seq = .fetch ∧ 2 ≤ s.lzw.runningBits.toNat ∧ s.lzw.runningBits.toNat ≤ 12 ∧
        s.lzw.maxCode1.toNat = 2 ^ s.lzw.runningBits.toNat ∧ s.lzw.runningCode.toNat ≤ 4097 ∧
        s.lzw.runningBits.toNat ≤ s.extr.shiftState.toNat) := by decide

/-- A byte to take (2 bits held) and a code to take (3 bits held). -/
theorem test_meets_lowestBitFirst :
    ∀ held ∈ [2#6, 3#6], let s := fetching held
      BlockMoves s s ∧ s.seq = .fetch ∧ s.lzw.runningBits.toNat ≤ 12 ∧ s.extr.shiftState.toNat ≤ 19 ∧
        s.extr.shiftAcc.toNat < 2 ^ s.extr.shiftState.toNat ∧ s.reader.chunkPos.toNat ≤ s.reader.chunkLen.toNat ∧
        (∃ t, step s = .next t) ∧
        (s.extr.shiftState.toNat < s.lzw.runningBits.toNat ∨ s.lzw.runningBits.toNat ≤ s.extr.shiftState.toNat) := by
  intro held h
  have hn : ends (step (fetching 2#6)) (fun _ => true) = true ∧ ends (step (fetching 3#6)) (fun _ => true) = true := by
    decide +kernel
  rcases List.mem_pair.1 h with rfl | rfl
  · exact ⟨.noTurns rfl, rfl, by decide, by decide, by decide, by decide, ends_next hn.1, .inl (by decide)⟩
  · exact ⟨.noTurns rfl, rfl, by decide, by decide, by decide, by decide, ends_next hn.2, .inr (by decide)⟩

/-- DEPTH 1 from k = 0 and DEPTH 8 at the last k, 3839. -/
theorem test_meets_widthSchedule :
    let r := acceptMcs 1#8 tiny.lzw
    let r' := acceptMcs 8#8 tiny.lzw
    (1 ≤ r.depth.toNat ∧ r.depth.toNat ≤ 8 ∧ r.endCode.toNat = 2 ^ r.depth.toNat + 1 ∧ 2 ^ r.depth.toNat + 2 + 0 ≤ 4097) ∧
      (1 ≤ r'.depth.toNat ∧ r'.depth.toNat ≤ 8 ∧ r'.endCode.toNat = 2 ^ r'.depth.toNat + 1 ∧
        2 ^ r'.depth.toNat + 2 + 3839 ≤ 4097) := by decide +kernel

/-! ### Hypotheses met: code classes -/

theorem test_meets_end_and_invalid : (mid 5#12).status.lastCmd = 1#4 := rfl

theorem test_meets_clear : (mid 4#12).lzw.depth.toNat ≤ 8 ∧ (mid 4#12).lzw.endCode.toNat ≤ 257 := by decide

/-- `mid` at a literal 3, with the given PREV_CODE, RUNNING_CODE and OUT. -/
def literalAt (prev running : CodeField) (out : Space) : State :=
  { mid 3#12 with lzw := { (mid 3#12).lzw with prevCode := prev, runningCode := running }, outSpace := out }

/-- No previous code; RUNNING_CODE 1 and 4098, out of range; 2 and 4097, its ends; and a write that is not admitted. -/
theorem test_meets_literal :
    (∀ x ∈ [(4098#13, 7#13), (2#13, 1#13), (2#13, 4098#13), (2#13, 2#13), (2#13, 4097#13)],
      let s := literalAt x.1 x.2 { size := 3, cells := [] }
      Memory.wf s ∧ (3#12).toNat < s.lzw.clearCode.toNat ∧ s.lzw.clearCode.toNat ≤ 256 ∧
        pixelOffset s < s.outSpace.size ∧
        (s.lzw.prevCode = 4098#13 ∨ s.lzw.runningCode.toNat < 2 ∨ 4097 < s.lzw.runningCode.toNat ∨
          2 ≤ s.lzw.runningCode.toNat ∧ s.lzw.runningCode.toNat ≤ 4097)) ∧
    (let s := literalAt 2#13 9#13 { size := 2, cells := [] };
      Memory.wf s ∧ (3#12).toNat < s.lzw.clearCode.toNat ∧ s.lzw.clearCode.toNat ≤ 256 ∧
        s.outSpace.size ≤ pixelOffset s) := by
  refine ⟨fun x hx => ?_, by decide, by decide, by decide, by decide⟩
  simp only [List.mem_cons, List.not_mem_nil, or_false] at hx
  rcases hx with rfl | rfl | rfl | rfl | rfl <;> exact ⟨by decide, by decide, by decide, by decide, by decide⟩

/-- The string of code 6 of `mid` is 1, 2. -/
theorem spells_six : Spells (mid 6#12).lzw 6#13 [1#8, 2#8] :=
  .of_entry (r := (mid 6#12).lzw) (w := [1#8]) (by decide) (by decide)
    (by
      have : (mid 6#12).lzw.prefixTab[(6#13).toNat] = 1#13 := by decide +kernel
      rw [this]
      exact .literal 1#13 (by decide))
    (by decide +kernel)

theorem test_meets_known :
    (mid 6#12).stk.stackPtr = 0#13 ∧ Spells (mid 6#12).lzw ((6#12).setWidth 13) [1#8, 2#8] ∧ [1#8, 2#8].length ≤ 4097 :=
  ⟨rfl, spells_six, by decide⟩

theorem test_meets_kwkwk :
    (mid 7#12).stk.stackPtr = 0#13 ∧ Spells (mid 7#12).lzw (mid 7#12).lzw.prevCode (2#8 :: []) ∧
      (2#8 :: []).length ≤ 4097 :=
  ⟨rfl, .literal 2#13 (by decide), by decide⟩

theorem test_meets_codeClassesKeep :
    ∀ i ∈ [Instr.lzwEnd 6#12, .lzwClear 6#12, .lzwLiteral 6#12, .lzwKnown 6#12, .lzwKwkwk 6#12, .lzwInvalid 6#12],
      Memory.wf (mid 6#12) ∧ ∃ t, exec i (mid 6#12) = .next t := by
  intro i hi
  have h : ([Instr.lzwEnd 6#12, .lzwClear 6#12, .lzwLiteral 6#12, .lzwKnown 6#12, .lzwKwkwk 6#12, .lzwInvalid 6#12].all
      fun i => ends (exec i (mid 6#12)) fun _ => true) = true := by decide +kernel
  exact ⟨by decide, ends_next (List.all_eq_true.1 h i hi)⟩

/-! ### Hypotheses met: walks and rows -/

/-- T-literal and T-chain: a literal's chain has no value above CLEAR_CODE, that of 8 falls three times. -/
theorem test_meets_acyclic :
    ∀ c ∈ [3#13, 8#13], c ≠ chainTable.clearCode ∧
      ∀ n, (∀ j, j ≤ n → chainTable.clearCode.toNat < (chainAt chainTable j c).toNat) →
        (chainAt chainTable n c).toNat ≤ 4095 ∧
          (chainAt chainTable (n + 1) c).toNat < (chainAt chainTable n c).toNat ∧
          chainAt chainTable (n + 1) c ≠ chainTable.clearCode := by
  intro c hc
  rcases List.mem_pair.1 hc with rfl | rfl
  · exact ⟨by decide, fun n h => absurd (h 0 (Nat.zero_le n)) (by decide)⟩
  refine ⟨by decide, fun n h => ?_⟩
  match n with
  | 0 => decide +kernel
  | 1 => decide +kernel
  | 2 => decide +kernel
  | n + 3 => exact absurd (h 3 (by omega)) (by decide +kernel)

/-- T-clearstart (no replacement), T-toclear (one) and T-chain (three): chains that end at CLEAR_CODE or below it. -/
theorem test_meets_walkEnds :
    (∀ x ∈ [(chainTable, 4#13, 0), ({ chainTable with prefixTab := chainTable.prefixTab.set 6 4#13 }, 6#13, 1),
        (chainTable, 8#13, 3)],
      x.2.2 ≤ 4096 ∧
        ∀ n, n < x.2.2 → x.1.clearCode.toNat < (chainAt x.1 n x.2.1).toNat ∧ (chainAt x.1 n x.2.1).toNat ≤ 4095) ∧
    chainAt chainTable 0 4#13 = 4#13 ∧
    chainAt { chainTable with prefixTab := chainTable.prefixTab.set 6 4#13 } 1 6#13 = 4#13 ∧
    (chainAt chainTable 3 8#13).toNat < chainTable.clearCode.toNat := by
  refine ⟨?_, ?_, ?_, ?_⟩ <;> decide +kernel

/-- `expand` from the empty stack and from KWKWK's one byte, over a walk that raises. -/
theorem test_meets_expandErrors :
    ∀ p ∈ [0#13, 1#13], ({ tiny.stk with stackPtr := p } : StackRegs).stackPtr.toNat ≤ 1 ∧
      traceRoot chainTable 4#13 = .error (.walkClear 4#13) :=
  fun p hp => ⟨by rcases List.mem_pair.1 hp with rfl | rfl <;> decide, test_walks.2.2⟩

/-- T-self4095's table: the chain stays at 4095. A table of NO_SUCH_CODE: the chain of 6 meets 4098 after one. -/
theorem test_meets_walkBound :
    (let r : LzwRegs := { (mid 0#12).lzw with prefixTab := Vector.replicate 4096 4095#13 }
      ∀ n, n ≤ 4096 → r.clearCode.toNat < (chainAt r n 4095#13).toNat ∧ (chainAt r n 4095#13).toNat ≤ 4095) ∧
    (let r : LzwRegs := { (mid 0#12).lzw with prefixTab := Vector.replicate 4096 4098#13 };
      (∀ n, n < 1 → r.clearCode.toNat < (chainAt r n 6#13).toNat ∧ (chainAt r n 6#13).toNat ≤ 4095) ∧
        r.clearCode.toNat < (chainAt r 1 6#13).toNat ∧ 4095 < (chainAt r 1 6#13).toNat) := by
  refine ⟨fun n _ => ?_, ?_⟩
  · have h : ∀ n, chainAt { (mid 0#12).lzw with prefixTab := Vector.replicate 4096 4095#13 } n 4095#13 = 4095#13 := by
      intro n
      induction n with
      | zero => rfl
      | succ n ih =>
        simp only [chainAt]
        rw [dif_pos (by decide), Vector.getElem_replicate, ih]
    rw [h n]
    decide
  · refine ⟨fun n hn => ?_, by decide +kernel, by decide +kernel⟩
    obtain rfl : n = 0 := by omega
    decide

theorem test_meets_rowIterator :
    (rowOrder true 8)[0]? = some (0, 0) ∧ (rowOrder true 8)[7]? = some (3, 7) ∧ (rowOrder false 3)[2]? = some (0, 2) := by
  decide

/-- The state V-rowcross is in after its last code's string is pushed. -/
def flushing : State :=
  { mid 6#12 with
    stk := { stackPtr := 2#13, stack := ((Vector.replicate 4098 0#8).set 0 2#8).set 1 1#8 }
    seq := .flush (.define 6#13 false) }

theorem test_meets_flush :
    flushing.agenda = [] ∧ Memory.wf flushing ∧ flushing.seq = .flush (.define 6#13 false) ∧
      0 < flushing.stk.stackPtr.toNat ∧ flushing.rows.col.toNat < flushing.oper.width.toNat ∧
      pixelOffset flushing < flushing.outSpace.size ∧ flushing.stk.stackPtr.toNat ≤ 4098 := by decide

theorem test_meets_rowLoop : ∃ s : State, BlockMoves s s ∧ s.seq = .rowLoop :=
  ⟨running 1#4 .rowLoop tiny, .noTurns rfl, rfl⟩

/-- V-drain-extra's rest: 02 AA BB 01 CC 00. -/
def restData : State :=
  { running 1#4 .startDrain (withInput [(0, 2#8), (1, 0xAA#8), (2, 0xBB#8), (3, 1#8), (4, 0xCC#8)] 6#32 tiny) with
    oper := { tiny.oper with inEnd := 6#32 } }

theorem restData_ends : SubBlocksAt restData.inSpace 0 6 :=
  .subBlock 0 6 (by decide) (.subBlock 3 6 (by decide) (.terminator 5 (by decide)))

theorem test_meets_drain :
    restData.agenda = [] ∧ restData.seq = .startDrain ∧ restData.reader.sbTerm = false ∧
      SubBlocksAt restData.inSpace restData.oper.inPtr.toNat 6 ∧ 6 ≤ restData.oper.inEnd.toNat ∧
      restData.oper.inEnd.toNat ≤ restData.inSpace.size :=
  ⟨rfl, rfl, rfl, restData_ends, by decide, by decide⟩

/-- V-zero (WIDTH 0, HEIGHT 5) and V-zero-h0 (WIDTH 3, HEIGHT 0), over 02 00. -/
theorem test_meets_emptyImage :
    ∀ x ∈ [(0#16, 5#16), (3#16, 0#16)],
      let s := withInput [(0, 2#8)] 2#32 tiny
      let o : OperandRegs := { s.oper with width := x.1, height := x.2 }
      s.status.busy = false ∧ s.agenda = [] ∧ (o.width.toNat = 0 ∨ o.height.toNat = 0) ∧
        o.inPtr.toNat < o.inEnd.toNat ∧ (s.inSpace.read o.inPtr.toNat).toNat = 2 ∧
        SubBlocksAt s.inSpace (o.inPtr.toNat + 1) 2 ∧ 2 ≤ o.inEnd.toNat ∧ o.inEnd.toNat ≤ s.inSpace.size := by
  intro x hx
  rcases List.mem_pair.1 hx with rfl | rfl
  · exact ⟨rfl, rfl, by decide, by decide, by decide, .terminator 1 (by decide), by decide, by decide⟩
  · exact ⟨rfl, rfl, by decide, by decide, by decide, .terminator 1 (by decide), by decide, by decide⟩

/-! ### Hypotheses met: errors -/

/-- The twelve causes of R115 and a value for each. -/
theorem test_meets_raise :
    ∀ e ∈ [BlockError.noMcsByte, .noLengthInDrain, .noLengthInNextChunk, .codeAtInputEnd, .codeAtTerminator,
        .invalidCode 7#13, .badMcs 9#8, .walkBound 6#13, .walkRange 4098#13, .walkClear 4#13, .defineRange 4098#13,
        .prematureEnd 5#13],
      BlockMoves (running 1#4 (.raising e) tiny) (running 1#4 (.raising e) tiny) ∧
      (running 1#4 (.raising e) tiny).seq = .raising e ∧
      ∃ (kind sub : BitVec 4) (value : CodeField),
        e = .noMcsByte ∧ kind = 2#4 ∧ sub = 1#4 ∧ value = 0#13 ∨
        e = .noLengthInDrain ∧ kind = 2#4 ∧ sub = 2#4 ∧ value = 0#13 ∨
        e = .noLengthInNextChunk ∧ kind = 2#4 ∧ sub = 3#4 ∧ value = 0#13 ∨
        e = .codeAtInputEnd ∧ kind = 3#4 ∧ sub = 1#4 ∧ value = 0#13 ∨
        e = .codeAtTerminator ∧ kind = 3#4 ∧ sub = 2#4 ∧ value = 0#13 ∨
        e = .invalidCode value ∧ kind = 5#4 ∧ sub = 1#4 ∨
        (∃ b : Byte, e = .badMcs b ∧ value = b.setWidth 13) ∧ kind = 6#4 ∧ sub = 1#4 ∨
        e = .walkBound value ∧ kind = 6#4 ∧ sub = 2#4 ∨ e = .walkRange value ∧ kind = 6#4 ∧ sub = 3#4 ∨
        e = .walkClear value ∧ kind = 6#4 ∧ sub = 4#4 ∨ e = .defineRange value ∧ kind = 6#4 ∧ sub = 5#4 ∨
        e = .prematureEnd value ∧ kind = 7#4 ∧ sub = 1#4 := by
  intro e he
  refine ⟨.noTurns rfl, rfl, e.err, e.sub, e.value, ?_⟩
  simp only [List.mem_cons, List.not_mem_nil, or_false] at he
  rcases he with rfl | rfl | rfl | rfl | rfl | rfl | rfl | rfl | rfl | rfl | rfl | rfl <;>
    simp [BlockError.err, BlockError.sub, BlockError.value]

/-! ### Hypotheses met: the invariant -/

/-- A table whose defined entries are 6 to `n − 1`, each with its predecessor, or a literal, before it. -/
theorem lzwInv_of {s : State} {c : Code} (hq : s.seq = .process c) (hd : s.lzw.depth = 2#4) (hc : s.lzw.clearCode = 4#13)
    (he : s.lzw.endCode = 5#13) (hm : s.lzw.maxCode1.toNat = 2 ^ s.lzw.runningBits.toNat)
    (hb : 3 ≤ s.lzw.runningBits.toNat ∧ s.lzw.runningBits.toNat ≤ 12)
    (hr : 8 ≤ s.lzw.runningCode.toNat ∧ s.lzw.runningCode.toNat ≤ 4098)
    (hx : s.lzw.runningBits.toNat < 12 → s.lzw.runningCode.toNat ≤ s.lzw.maxCode1.toNat)
    (hp : s.lzw.prevCode.toNat < 4) (hdef : ∀ c (h : c < 4096), s.lzw.prefixTab[c] ≠ Config.noSuchCode ↔
      5 < c ∧ c + 3 ≤ s.lzw.runningCode.toNat)
    (hlt : ∀ c (h : c < 4096), 5 < c → c + 3 ≤ s.lzw.runningCode.toNat →
      s.lzw.prefixTab[c].toNat < 4 ∨ 5 < s.lzw.prefixTab[c].toNat ∧ s.lzw.prefixTab[c].toNat < c)
    (hs : ∀ c (h : c < 4096), s.lzw.suffixTab[c].toNat < 4) : LzwInv s := by
  have hdebt : s.codeDebt = 1 := by unfold State.codeDebt; rw [hq]; rfl
  have hprev : s.lzw.prevCode ≠ Config.noSuchCode := by
    intro h
    rw [h] at hp
    revert hp
    decide
  constructor
  · rw [hd]; decide
  · rw [hc, hd]; decide
  · rw [he, hc]; decide
  · exact hm
  · rw [hd]; exact hb
  · rw [he, hdebt]; have e5 : (5#13).toNat = 5 := rfl; omega
  · rw [hdebt]; exact hr.2
  · exact hx
  · intro c h; rw [he, hdebt]; exact hdef c h
  · intro c h hne
    obtain ⟨h1, h2⟩ := (hdef c h).1 hne
    unfold hasString
    rw [hc, he, hdebt]
    have e4 : (4#13).toNat = 4 := rfl
    have e5 : (5#13).toNat = 5 := rfl
    rcases hlt c h h1 h2 with h3 | h3 <;> omega
  · intro c h _; rw [hc]; exact hs c h
  · rw [he, hdebt]
    have e5 : (5#13).toNat = 5 := rfl
    exact ⟨fun h => absurd h hprev, fun h => by omega⟩
  · intro _; unfold hasString; rw [hc]; exact .inl hp
  · intro code kw h
    rw [hq] at h
    simp at h

theorem lzwInv_mid (c : Code) : LzwInv (mid c) := by
  refine lzwInv_of (c := c) rfl rfl rfl rfl (by rw [show (mid c).lzw = (mid 0#12).lzw from rfl]; decide)
    (by rw [show (mid c).lzw = (mid 0#12).lzw from rfl]; decide)
    (by rw [show (mid c).lzw = (mid 0#12).lzw from rfl]; decide)
    (by rw [show (mid c).lzw = (mid 0#12).lzw from rfl]; decide)
    (by rw [show (mid c).lzw = (mid 0#12).lzw from rfl]; decide) ?_ ?_ ?_
  all_goals intro i h
  · have hr : (mid c).lzw.runningCode.toNat = 9 := rfl
    rw [hr]
    simp only [mid, Vector.getElem_set, Vector.getElem_replicate]
    split
    · next h6 => subst h6; decide
    · next h6 => exact ⟨fun hn => absurd rfl hn, fun hn => by omega⟩
  · intro h5 h9
    have hr : (mid c).lzw.runningCode.toNat = 9 := rfl
    rw [hr] at h9
    obtain rfl : i = 6 := by omega
    simp [mid]
  · simp only [mid, Vector.getElem_set, Vector.getElem_replicate]
    split <;> decide

theorem stackInv_empty {s : State} {c : Code} (hq : s.seq = .process c) (hz : s.stk.stackPtr = 0#13)
    (hx : s.extr.shiftAcc = 5#32) (hs : s.extr.shiftState = 4#6) : StackInv s := by
  constructor
  · intro _; rw [hz]; rfl
  · intro _; rw [hz]; exact .inl rfl
  · rw [hz]; decide
  · intro i _ h; rw [hz] at h; exact absurd h (Nat.not_lt_zero i)
  · intro v k h; rw [hq] at h; simp at h
  · rw [hx, hs]; decide
  · rw [hs]; decide

/-- `mid` meets the invariant, whatever the code fetched. -/
theorem inv_mid (c : Code) : Inv (mid c) where
  memory := by show Memory.wf (mid 0#12); decide
  status := ⟨by simp [mid], fun _ => ⟨rfl, rfl⟩, by simp [mid, tiny, State.reset, StatusRegs.zero],
    fun _ => ⟨rfl, rfl, rfl⟩, by simp [mid, tiny, State.reset, StatusRegs.zero]⟩
  command := by constructor <;> simp [mid, Seq.inRow]
  reader := ⟨by show (2#8).toNat ≤ (2#8).toNat; decide, by show (2#8).toNat ≤ (2#8).toNat; decide⟩
  lzw := fun _ => lzwInv_mid c
  stack := fun _ => stackInv_empty (c := c) rfl rfl rfl rfl
  rows := fun _ => by
    constructor
    · intro _; show (0, 1) ∈ rowOrder false 2; decide
    · intro _; show (0#16).toNat ≤ (2#16).toNat; decide
    · intro _; show (0#16).toNat < (2#16).toNat; decide
    · intro h; exact absurd h (by simp [mid])
    · intro h; exact absurd h (by simp [mid])
    · intro _
      show (2#32).toNat + (0#16).toNat = (2#16).toNat * (1 + rowsAfter false 2 0 1)
      decide
    · intro h; exact absurd h (by simp [mid])

/-- `fullTable` meets the invariant too. -/
theorem inv_fullTable (c : Code) : Inv (fullTable c) where
  memory := (inv_mid c).memory
  status := ⟨by simp [fullTable, mid], fun _ => ⟨rfl, rfl⟩, by simp [fullTable, mid, tiny, State.reset, StatusRegs.zero],
    fun _ => ⟨rfl, rfl, rfl⟩, by simp [fullTable, mid, tiny, State.reset, StatusRegs.zero]⟩
  command := by constructor <;> simp [fullTable, mid, Seq.inRow]
  reader := ⟨(inv_mid c).reader.pos_le, (inv_mid c).reader.len_le⟩
  lzw := fun _ => by
    have hr : (fullTable c).lzw.runningCode.toNat = 4098 := rfl
    refine lzwInv_of (c := c) rfl rfl rfl rfl (by show (4096#13).toNat = 2 ^ (12#4).toNat; decide)
      (by show 3 ≤ (12#4).toNat ∧ (12#4).toNat ≤ 12; decide) (by rw [hr]; decide)
      (fun h => absurd h (by show ¬(12#4).toNat < 12; decide)) (by show (2#13).toNat < 4; decide) ?_ ?_ ?_
    all_goals intro i h
    · rw [hr]
      simp only [fullTable, Vector.getElem_ofFn]
      split
      · next h6 => exact ⟨fun hn => absurd rfl hn, fun hn => by omega⟩
      · split
        · next h6 => subst h6; decide
        · next h6 h7 =>
          refine ⟨fun _ => ⟨by omega, by omega⟩, fun _ hn => ?_⟩
          have := congrArg BitVec.toNat hn
          rw [BitVec.toNat_ofNat, show Config.noSuchCode.toNat = 4098 from rfl] at this
          omega
    · intro h5 _
      simp only [fullTable, Vector.getElem_ofFn]
      rw [if_neg (by omega)]
      split
      · left; decide
      · right
        rw [BitVec.toNat_ofNat]
        omega
    · simp only [fullTable, Vector.getElem_replicate]
      decide
  stack := fun _ => stackInv_empty (c := c) rfl rfl rfl rfl
  rows := fun _ => by
    obtain ⟨h1, h2, h3, h4, h5, h6, h7⟩ := (inv_mid c).rows rfl
    exact ⟨h1, h2, h3, h4, h5, h6, h7⟩

theorem hostSizes_mid (c : Code) : HostSizes (mid c) ∧ HostSizes (fullTable c) :=
  ⟨⟨by show (5#32).toNat ≤ 64; decide, by show max ((2#16).toNat * (2#16).toNat) 255 ≤ 256; decide⟩,
    ⟨by show (5#32).toNat ≤ 64; decide, by show max ((2#16).toNat * (2#16).toNat) 255 ≤ 256; decide⟩⟩

/-- The full table of `fullTable` holds the longest walk of DEPTH 2, T-long's, and the first defined code. -/
theorem test_meets_definedCodesResolve :
    ∀ c ∈ [3#13, 6#13, 4095#13], Inv (fullTable 6#12) ∧ (fullTable 6#12).decoding = true ∧
      hasString (fullTable 6#12).lzw (fullTable 6#12).codeDebt c.toNat := by
  intro c hc
  refine ⟨inv_fullTable _, rfl, ?_⟩
  show c.toNat < 4 ∨ 5 < c.toNat ∧ c.toNat + 2 + 1 ≤ 4098
  revert c
  decide

/-- A KWKWK code: 7 is the code being defined, PREV_CODE is 2. -/
theorem test_meets_kwkwkCode :
    Inv (mid 7#12) ∧ HostSizes (mid 7#12) ∧ (mid 7#12).agenda = [] ∧ (mid 7#12).seq = .process 7#12 ∧
      decodeCode (mid 7#12).codeContext 7#12 = .lzwKwkwk 7#12 ∧ Spells (mid 7#12).lzw (mid 7#12).lzw.prevCode (2#8 :: []) :=
  ⟨inv_mid _, (hostSizes_mid _).1, rfl, rfl, by decide +kernel, test_meets_kwkwk.2.1⟩

/-- A table with room, and a full one. -/
theorem test_meets_knownCode :
    (Inv (mid 6#12) ∧ HostSizes (mid 6#12) ∧ (mid 6#12).agenda = [] ∧ (mid 6#12).seq = .process 6#12 ∧
      decodeCode (mid 6#12).codeContext 6#12 = .lzwKnown 6#12 ∧ Spells (mid 6#12).lzw ((6#12).setWidth 13) (1#8 :: [2#8]) ∧
      (mid 6#12).lzw.runningCode.toNat ≤ 4097) ∧
    (Inv (fullTable 6#12) ∧ HostSizes (fullTable 6#12) ∧ (fullTable 6#12).agenda = [] ∧
      (fullTable 6#12).seq = .process 6#12 ∧ decodeCode (fullTable 6#12).codeContext 6#12 = .lzwKnown 6#12 ∧
      Spells (fullTable 6#12).lzw ((6#12).setWidth 13) (0#8 :: [1#8]) ∧ 4097 < (fullTable 6#12).lzw.runningCode.toNat) := by
  refine ⟨⟨inv_mid _, (hostSizes_mid _).1, rfl, rfl, test_decode_known, spells_six, by decide⟩,
    inv_fullTable _, (hostSizes_mid _).2, rfl, rfl, ?_, ?_, by decide⟩
  · have h : (fullTable 6#12).codeContext.prefixTab[(6#12).toNat] ≠ Config.noSuchCode := by
      simp [State.codeContext, fullTable, Config.noSuchCode]
    unfold decodeCode
    rw [if_neg (by decide), if_neg (by decide), if_neg (by decide), if_pos h]
  · refine .of_entry (r := (fullTable 6#12).lzw) (c := 6#13) (w := [0#8]) (by decide) (by decide) ?_ (by simp [fullTable])
    have : (fullTable 6#12).lzw.prefixTab[(6#13).toNat] = 0#13 := by simp [fullTable]
    rw [this]
    exact .literal 0#13 (by decide)

/-- Two of four pixels are written; the literal 3 writes the third. -/
theorem test_meets_pixelsFollow :
    Inv (mid 3#12) ∧ (mid 3#12).oper.width.toNat * (mid 3#12).oper.height.toNat - (mid 3#12).rows.pixRemain.toNat = 2 ∧
      (mid 3#12).decoding = true ∧ (mid 3#12).seq.needsPixel = true ∧ (mid 3#12).status.lastCmd = 1#4 ∧
      ends (step (mid 3#12)) (fun t => t.history = .outWrite 2 3#8 :: (mid 3#12).history) = true :=
  ⟨inv_mid _, by decide, rfl, rfl, rfl, by decide +kernel⟩

theorem test_meets_invariantKept : Inv (mid 6#12) ∧ ∃ t, step (mid 6#12) = .next t :=
  ⟨inv_mid _, ends_next (p := fun _ => true) (by decide +kernel)⟩

theorem test_meets_memoryAndStatus :
    Memory.wf (mid 6#12) ∧ StatusInv (mid 6#12) ∧ ∃ t, step (mid 6#12) = .next t :=
  ⟨(inv_mid _).memory, (inv_mid _).status, test_meets_invariantKept.2⟩

theorem test_meets_noFault : Inv (mid 6#12) ∧ HostSizes (mid 6#12) ∧ TurnInRange (mid 6#12) :=
  ⟨inv_mid _, (hostSizes_mid _).1, fun _ _ h => by cases h⟩

theorem test_meets_everyCommandEnds : Inv (mid 6#12) ∧ HostSizes (mid 6#12) ∧ (mid 6#12).agenda = [] :=
  ⟨inv_mid _, (hostSizes_mid _).1, rfl⟩

theorem test_meets_operandsFixed :
    (mid 6#12).status.busy = true ∧ (∃ t, step (mid 6#12) = .next t) ∧ ∀ rest, (mid 6#12).agenda ≠ .reset :: rest :=
  ⟨rfl, test_meets_invariantKept.2, fun _ h => by cases h⟩

/-- A host write to IN, and the literal's write to OUT, change a byte. -/
theorem test_meets_memoryChanges :
    let s := { tiny with agenda := [.host (.inWrite 5 7#8)] }
    Memory.wf s ∧ ends (step s) (fun t => t.inSpace.read 5 ≠ s.inSpace.read 5) = true ∧
      ends (step (mid 3#12)) (fun t => t.outSpace.read 2 ≠ (mid 3#12).outSpace.read 2) = true := by decide +kernel

/-- A state of SB_NEXT_CHUNK's copy loop, one byte held. -/
def copying : State :=
  { running 3#4 (.copyOut 0) tiny with reader := { tiny.reader with chunkLen := 1#8, chunkDecl := 1#8 } }

theorem inv_copying : Inv copying where
  memory := by decide
  status := ⟨by simp [copying, running], fun _ => ⟨rfl, rfl⟩,
    by simp [copying, running, tiny, State.reset, StatusRegs.zero], fun _ => ⟨rfl, rfl, rfl⟩,
    by simp [copying, running, tiny, State.reset, StatusRegs.zero]⟩
  command := by constructor <;> simp [copying, running, Seq.inRow, State.decoding]
  reader := ⟨by decide, by decide⟩
  lzw := fun h => by cases h
  stack := fun h => by cases h
  rows := fun h => by cases h

/-- A write of DECODE_IMAGE, and one of SB_NEXT_CHUNK. -/
theorem test_meets_blockWrites :
    (Inv (mid 3#12) ∧ ends (step (mid 3#12)) (fun t => t.history = .outWrite 2 3#8 :: (mid 3#12).history) = true) ∧
      (Inv copying ∧ ends (step copying) (fun t => t.history = .outWrite 0 0x61#8 :: copying.history) = true) :=
  ⟨⟨inv_mid _, by decide +kernel⟩, inv_copying, by decide +kernel⟩

end Sys2Proof.Tests
end

section
/-! PROOFS. The statements on the step as a whole: every step keeps both byte spaces canonical (O54), and a step runs the
instruction decoded where an encoded input is due (O5). -/

namespace Sys2Proof.Machine

/-! ### What a step does to the byte spaces (R7, R37) -/

/-- `n` is the space `m`, with at most one byte written below its size. -/
def Space.WrittenOnce (m n : Space) : Prop := n = m ∨ ∃ a v, a < m.size ∧ n = m.write a v

theorem Space.WrittenOnce.unchanged (m : Space) : m.WrittenOnce m := .inl rfl

theorem Space.WrittenOnce.size_eq {m n : Space} (h : m.WrittenOnce n) : n.size = m.size := by
  obtain rfl | ⟨a, v, -, rfl⟩ := h
  · rfl
  · exact m.write_size a v

theorem Space.WrittenOnce.wf {m n : Space} (h : m.WrittenOnce n) (hm : m.wf) : n.wf := by
  obtain rfl | ⟨a, v, ha, rfl⟩ := h
  · exact hm
  · exact Space.write_wf hm v ha

/-- Taking its turn, the block finds both byte spaces as they were. -/
theorem BlockMoves.spaces {s s' : State} (h : BlockMoves s s') : s'.inSpace = s.inSpace ∧ s'.outSpace = s.outSpace := by
  rw [h.eq]
  exact ⟨rfl, rfl⟩

/-- A command word touches neither byte space: it is rejected or accepted (R70). -/
theorem exec_decodeCommand_spaces {w : Word} {s t : State} (h : exec (decodeCommand w) s = .next t) :
    t.inSpace = s.inSpace ∧ t.outSpace = s.outSpace := by
  rcases exec_decodeCommand w s with hr | ⟨-, c, ha⟩
  · cases hr.symm.trans h
    exact ⟨rfl, rfl⟩
  · cases ha.symm.trans h
    exact ⟨rfl, rfl⟩

/-- An access of the host writes at most one byte, of IN or of OUT, below its size (R37, R76). -/
theorem hostStep_spaces {a : HostAccess} {s t : State} (h : hostStep a s = .next t) :
    s.inSpace.WrittenOnce t.inSpace ∧ s.outSpace.WrittenOnce t.outSpace := by
  rcases hostStep_cases h with ⟨v, -, hx⟩ | ⟨_, _, -, -, -, -, -, rfl⟩ | ⟨_, _, -, -, -, -, -, rfl⟩ | ⟨_, rfl⟩ |
    ⟨off, b, -, ho, rfl⟩ | ⟨off, b, -, ho, rfl⟩
  · obtain ⟨hin, hout⟩ := exec_decodeCommand_spaces hx
    exact ⟨.inl hin, .inl hout⟩
  · exact ⟨.unchanged _, .unchanged _⟩
  · exact ⟨.unchanged _, .unchanged _⟩
  · exact ⟨.unchanged _, .unchanged _⟩
  · exact ⟨.inr ⟨off, b, ho, rfl⟩, .unchanged _⟩
  · exact ⟨.unchanged _, .inr ⟨off, b, ho, rfl⟩⟩

/-- A move of the block leaves IN and writes at most one byte of OUT, below its size (R37, R38). -/
theorem BlockMove.spaces {s t : State} (h : BlockMove s t) :
    s.inSpace.WrittenOnce t.inSpace ∧ s.outSpace.WrittenOnce t.outSpace := by
  obtain ⟨hin, hout | ⟨a, v, ha, hw, -⟩⟩ := h.memory
  · exact ⟨.inl hin, .inl hout⟩
  · exact ⟨.inl hin, .inr ⟨a, v, ha, hw⟩⟩

/-- Every step writes at most one byte of each space, below its size: the agents are the block and the host, and a wait or a
reset leaves memory alone (R128). -/
theorem step_spaces {s t : State} (h : step s = .next t) :
    s.inSpace.WrittenOnce t.inSpace ∧ s.outSpace.WrittenOnce t.outSpace := by
  rcases step_cases h with ⟨s', hm, hb⟩ | ⟨a, rest, -, -, ha⟩ | ⟨rest, -, -, rfl⟩ | ⟨rest, -, -, rfl⟩
  case inl =>
    obtain ⟨hin, hout⟩ := hm.spaces
    rw [← hin, ← hout]
    exact (blockStep_move hb).spaces
  case inr.inl => exact hostStep_spaces (s := { s with agenda := rest }) ha
  case inr.inr.inl => exact ⟨.unchanged _, .unchanged _⟩
  case inr.inr.inr => exact ⟨.unchanged _, .unchanged _⟩

/-! ### Where a step decodes -/

/-- At a boundary where the host's write to CMD is due, a step runs the command word's meaning (R70). -/
theorem step_cmdWrite {s : State} {w : Word} {rest : List Turn} (hb : s.atBoundary = true)
    (h : s.agenda = .host (.regWrite 32 0 w) :: rest) :
    step s = exec (decodeCommand w) { s with agenda := rest } := by
  rw [step_host hb h]
  exact wholeAccess_eq rfl (by decide) _

end Sys2Proof.Machine

namespace Sys2Proof

open Machine

/-- Settles O54: a step writes at most one byte of each space, below its size, and such a write keeps the canonical form and
the size. -/
theorem everyStepKeepsMemoryCanonical : Obligations.EveryStepKeepsMemoryCanonical := by
  intro s t ⟨hin, hout⟩ h
  obtain ⟨hi, ho⟩ := step_spaces h
  exact ⟨⟨hi.wf hin, ho.wf hout⟩, hi.size_eq, ho.size_eq⟩

/-- Settles O5: the step is the host's write to CMD, or the block's move at a position that decodes a code or a byte. -/
theorem stepRunsTheDecodedInstruction : Obligations.StepRunsTheDecodedInstruction := by
  refine ⟨fun s w rest hb h => step_cmdWrite hb h, ?code, ?nextChunk, ?startChunk, ?startDecode⟩
  case code =>
    intro s s' c hm hq
    rw [hm.step, blockStep_process hq]
  case nextChunk =>
    intro s s' k hm hq ht he hs
    rw [hm.step, blockStep_nextChunk_byte hq ht ((inAtEnd_false_iff s').2 he) hs]
  case startChunk =>
    intro s s' hm hq ht he hs
    rw [hm.step, blockStep_start_chunk_byte hq ht ((inAtEnd_false_iff s').2 he) hs]
  case startDecode =>
    intro s s' hm hq he hs
    rw [hm.step, blockStep_start_decode_byte hq ((inAtEnd_false_iff s').2 he) hs]
    rfl

end Sys2Proof
end

section
/-! PROOFS. The block's row iterator walks `row_order` (R106, R107), and how many rows come after each. -/

namespace Sys2Proof.Machine

/-! ### The iterator walks the row order (R106, R107) -/

/-- Every row below the height is taken, and taken once (R107). -/
theorem rowOrder_perm (il : Bool) (h : Nat) : ((rowOrder il h).map Prod.snd).Perm (List.range h) := by
  refine (List.perm_ext_iff_of_nodup (List.pairwise_map.2 (rowOrder_rows_nodup il h)) List.nodup_range).2 fun r => ?_
  simp only [List.mem_map, mem_rowOrder, List.mem_range, Prod.exists, exists_eq_right]
  constructor
  · rintro ⟨p, hr, -⟩
    exact hr
  · intro hr
    cases il with
    | false => exact ⟨0, hr, rfl⟩
    | true =>
      have hmod : r % 8 = 0 ∨ r % 8 = 4 ∨ r % 4 = 2 ∨ r % 2 = 1 := by omega
      rcases hmod with hm | hm | hm | hm
      · exact ⟨0, hr, .inl ⟨rfl, hm⟩⟩
      · exact ⟨1, hr, .inr (.inl ⟨rfl, hm⟩)⟩
      · exact ⟨2, hr, .inr (.inr (.inl ⟨rfl, hm⟩))⟩
      · exact ⟨3, hr, .inr (.inr (.inr ⟨rfl, hm⟩))⟩

theorem rowOrder_length (il : Bool) (h : Nat) : (rowOrder il h).length = h := by
  simpa using (rowOrder_perm il h).length_eq

/-- The rows of the passes from `p` on. -/
def passesFrom (height p : Nat) : Nat → List (Nat × Nat)
  | 0 => []
  | n + 1 => passRows p (passStep p) height height (passStart p) ++ passesFrom height (p + 1) n

theorem rowOrder_passes (h : Nat) : rowOrder true h = passesFrom h 0 4 := by
  simp [rowOrder, passesFrom, passStep, passStart]

theorem rowOrder_sequential (h : Nat) : rowOrder false h = passRows 0 1 h h 0 := rfl

/-- The first pass with a row gives the first pair of the passes left. -/
theorem firstOfPasses_eq (height n p : Nat) : firstOfPasses height n p = (passesFrom height p n)[0]? := by
  induction n generalizing p with
  | zero => rfl
  | succ n ih => rw [firstOfPasses, passesFrom, passRows_head _ _ _ _ _ _ (by omega), ih]

theorem passStep_pos (p : Nat) : 0 < passStep p := by
  unfold passStep
  split <;> omega

/-- Within the passes from `p` on, the iterator goes to the next pair. -/
theorem passesFrom_next {height n p : Nat} (hp : p + n = 4) (i : Nat) (x : Nat × Nat)
    (hx : (passesFrom height p n)[i]? = some x) :
    nextRowOf true height x.1 x.2 = (passesFrom height p n)[i + 1]? := by
  induction n generalizing p i x with
  | zero => simp [passesFrom] at hx
  | succ n ih =>
    refine next_append (nx := fun x => nextRowOf true height x.1 x.2) (fun j y hy => ?_)
      (fun j y hy => ih (p := p + 1) (by omega) j y hy) i x hx
    have hrows : height ≤ passStart p + height * passStep p :=
      Nat.le_trans (Nat.le_mul_of_pos_right _ (passStep_pos p)) (Nat.le_add_left _ _)
    have hpass : y.1 = p := (mem_passRows.1 (List.mem_of_getElem? hy)).1
    rw [passRows_next hrows j y hy, nextRowOf, if_pos rfl, hpass, firstOfPasses_eq, show 3 - p = n by omega]

theorem firstRowOf_eq (il : Bool) (h : Nat) : firstRowOf il h = (rowOrder il h)[0]? := by
  cases il with
  | false =>
    have hhead := passRows_head 0 1 h h 0 [] (by omega)
    rw [List.append_nil] at hhead
    rw [rowOrder_sequential, hhead]
    rfl
  | true => rw [rowOrder_passes, ← firstOfPasses_eq]; rfl

theorem nextRowOf_eq {il : Bool} {h i : Nat} {x : Nat × Nat} (hx : (rowOrder il h)[i]? = some x) :
    nextRowOf il h x.1 x.2 = (rowOrder il h)[i + 1]? := by
  cases il with
  | false =>
    have hnext := passRows_next (rest := []) (by omega) i x hx
    rw [List.append_nil] at hnext
    rw [rowOrder_sequential, hnext]
    rfl
  | true =>
    rw [rowOrder_passes] at hx ⊢
    exact passesFrom_next rfl i x hx

/-- The rows after the `i`-th pair are the rest of the order. -/
theorem rowsAfter_getElem {il : Bool} {h i : Nat} {x : Nat × Nat} (hx : (rowOrder il h)[i]? = some x) :
    i + 1 + rowsAfter il h x.1 x.2 = h := by
  obtain ⟨hi, rfl⟩ := List.getElem?_eq_some_iff.1 hx
  have hidx : (rowOrder il h).findIdx (fun y => !(y != (rowOrder il h)[i])) = i := by
    simpa [List.idxOf, bne] using (rowOrder_nodup il h).idxOf_getElem i hi
  rw [rowsAfter, List.dropWhile_eq_drop_findIdx_not, hidx, List.length_drop]
  rw [rowOrder_length] at hi ⊢
  omega

/-- The first row: all the others come after it. -/
theorem firstRowOf_some {il : Bool} {h : Nat} {x : Nat × Nat} (hx : firstRowOf il h = some x) :
    x ∈ rowOrder il h ∧ 1 + rowsAfter il h x.1 x.2 = h := by
  rw [firstRowOf_eq] at hx
  exact ⟨List.mem_of_getElem? hx, by simpa using rowsAfter_getElem hx⟩

theorem firstRowOf_none {il : Bool} {h : Nat} (hx : firstRowOf il h = none) : h = 0 := by
  rw [firstRowOf_eq, List.getElem?_eq_none_iff, rowOrder_length] at hx
  omega

/-- The next row: one row fewer comes after it. -/
theorem nextRowOf_some {il : Bool} {h : Nat} {x y : Nat × Nat} (hx : x ∈ rowOrder il h)
    (hy : nextRowOf il h x.1 x.2 = some y) :
    y ∈ rowOrder il h ∧ rowsAfter il h x.1 x.2 = 1 + rowsAfter il h y.1 y.2 := by
  obtain ⟨i, hi⟩ := List.mem_iff_getElem?.1 hx
  rw [nextRowOf_eq hi] at hy
  have hxa := rowsAfter_getElem hi
  have hya := rowsAfter_getElem hy
  exact ⟨List.mem_of_getElem? hy, by omega⟩

/-- The last row: no row comes after it. -/
theorem nextRowOf_none {il : Bool} {h : Nat} {x : Nat × Nat} (hx : x ∈ rowOrder il h)
    (hy : nextRowOf il h x.1 x.2 = none) : rowsAfter il h x.1 x.2 = 0 := by
  obtain ⟨i, hi⟩ := List.mem_iff_getElem?.1 hx
  rw [nextRowOf_eq hi, List.getElem?_eq_none_iff, rowOrder_length] at hy
  have := rowsAfter_getElem hi
  omega

/-- ROW and PASS hold every pair of the order of a height that HEIGHT holds (R29). -/
theorem rowOrder_fits {il : Bool} {h : BitVec 16} {x : Nat × Nat} (hx : x ∈ rowOrder il h.toNat) :
    (BitVec.ofNat 2 x.1).toNat = x.1 ∧ (BitVec.ofNat 16 x.2).toNat = x.2 := by
  obtain ⟨hrow, hpass⟩ := mem_rowOrder.1 hx
  have := h.isLt
  have hp : x.1 < 4 := by cases il <;> simp at hpass <;> omega
  simp only [BitVec.toNat_ofNat]
  omega

end Sys2Proof.Machine
end

section
/-! PROOFS. Every move of the block keeps the row registers as R36(h) has them, which completes `block_status`,
`block_reader`, `block_lzw`, `block_stack` and `block_command`. -/

namespace Sys2Proof.Machine

/-! ### The row registers through a move (R106 to R109, R36(h)) -/

/-- The two states decode one image: GEOM and MODE are the same. -/
def SameImage (s t : State) : Prop :=
  t.oper.width = s.oper.width ∧ t.oper.height = s.oper.height ∧ t.oper.interlace = s.oper.interlace

theorem SameImage.of_oper {s t : State} (h : t.oper = s.oper) : SameImage s t := by
  rw [SameImage, h]
  exact ⟨rfl, rfl, rfl⟩

/-- No move of the block changes GEOM or MODE (R78). -/
theorem BlockMove.sameImage {s t : State} (h : BlockMove s t) : SameImage s t := by
  rcases h.oper with he | ⟨he, -⟩
  · exact .of_oper he
  · rw [SameImage, he]
    exact ⟨rfl, rfl, rfl⟩

theorem Seq.inRow_of_needsPixel {q : Seq} (h : q.needsPixel = true) : q.inRow = true := by
  revert h
  unfold Seq.needsPixel
  split <;> simp [Seq.inRow]

/-- Before the first row. -/
theorem RowInv.first {t : State} (hq : t.seq = .firstRow)
    (hn : t.rows.pixRemain.toNat = t.oper.width.toNat * t.oper.height.toNat) : RowInv t := by
  constructor <;> simp [hq, Seq.inRow, Seq.needsPixel, hn]

/-- In a row. -/
theorem RowInv.within {t : State} (hq : t.seq.inRow = true)
    (hm : (t.rows.pass.toNat, t.rows.row.toNat) ∈ rowOrder t.oper.interlace t.oper.height.toNat)
    (hc : t.rows.col.toNat ≤ t.oper.width.toNat)
    (hn : t.seq.needsPixel = true → t.rows.col.toNat < t.oper.width.toNat)
    (he : t.seq = .nextRow → t.rows.col.toNat = t.oper.width.toNat)
    (hr : t.rows.pixRemain.toNat + t.rows.col.toNat = t.oper.width.toNat *
      (1 + rowsAfter t.oper.interlace t.oper.height.toNat t.rows.pass.toNat t.rows.row.toNat)) : RowInv t := by
  refine ⟨fun _ => hm, fun _ => hc, hn, he, ?_, fun _ => hr, ?_⟩
  · intro h; simp [h, Seq.inRow] at hq
  · rintro (h | h | h | ⟨h, -⟩) <;> simp [h, Seq.inRow] at hq

/-- After the last row. -/
theorem RowInv.after {t : State}
    (hq : t.seq = .startDrain ∨ t.seq = .nextChunk .drain ∨ t.seq = .payload .drain ∨ t.seq = .finish)
    (hz : t.rows.pixRemain.toNat = 0) : RowInv t := by
  refine ⟨?_, ?_, ?_, ?_, ?_, ?_, fun _ => hz⟩ <;> intro h <;> rcases hq with hq | hq | hq | hq <;>
    simp [hq, Seq.inRow, Seq.needsPixel] at h

/-- Moves within a row that write no pixel. -/
theorem RowInv.stay {s t : State} (h : RowInv s) (hs : s.seq.inRow = true) (hi : SameImage s t) (er : t.rows = s.rows)
    (hq : t.seq.inRow = true) (hn : t.seq.needsPixel = true → s.rows.col.toNat < s.oper.width.toNat)
    (he : t.seq = .nextRow → s.rows.col.toNat = s.oper.width.toNat) : RowInv t := by
  obtain ⟨ew, eh, ei⟩ := hi
  apply RowInv.within hq <;> rw [er]
  · rw [ei, eh]; exact h.member hs
  · rw [ew]; exact h.col_le hs
  · rw [ew]; exact hn
  · rw [ew]; exact he
  · rw [ew, eh, ei]; exact h.remain hs

/-- Moves of the drain. -/
theorem RowInv.drain {s t : State} (h : RowInv s)
    (hs : s.seq = .startDrain ∨ s.seq = .nextChunk .drain ∨ s.seq = .payload .drain) (er : t.rows = s.rows)
    (hq : t.seq = .startDrain ∨ t.seq = .nextChunk .drain ∨ t.seq = .payload .drain ∨ t.seq = .finish) : RowInv t := by
  refine .after hq ?_
  rw [er]
  exact h.drained (hs.imp_right (Or.imp_right .inl))

/-- A pixel is written: COL goes one on and PIX_REMAIN one down (R109). -/
theorem RowInv.pixel {s t : State} (h : RowInv s) (hn : s.seq.needsPixel = true) (hi : SameImage s t)
    (er : t.rows = { s.rows with col := s.rows.col + 1#16, pixRemain := s.rows.pixRemain - 1#32 })
    (hq : t.seq.inRow = true) (hnp : t.seq.needsPixel = false) (hne : t.seq ≠ .nextRow) : RowInv t := by
  obtain ⟨ew, eh, ei⟩ := hi
  have hs := Seq.inRow_of_needsPixel hn
  have hlt := h.col_lt hn
  have hrem := h.remain hs
  have hw := s.oper.width.isLt
  rw [Nat.mul_add, Nat.mul_one] at hrem
  have ec : (s.rows.col + 1#16).toNat = s.rows.col.toNat + 1 := by simp; omega
  have ep : (s.rows.pixRemain - 1#32).toNat = s.rows.pixRemain.toNat - 1 := by
    have := s.rows.pixRemain.isLt
    simp
    omega
  apply RowInv.within hq <;> rw [er]
  · rw [ei, eh]; exact h.member hs
  · rw [ew, ec]; omega
  · intro hp; rw [hnp] at hp; cases hp
  · intro he; exact absurd he hne
  · dsimp only
    rw [ew, eh, ei, ec, ep, Nat.mul_add, Nat.mul_one]
    omega

/-- A row of the order begins, with its own pixels and those of the rows after it to write, or the rows are done (R106). -/
theorem RowInv.begin {s : State} {next : Option (Nat × Nat)}
    (hsome : ∀ x, next = some x → x ∈ rowOrder s.oper.interlace s.oper.height.toNat ∧
      s.rows.pixRemain.toNat =
        s.oper.width.toNat * (1 + rowsAfter s.oper.interlace s.oper.height.toNat x.1 x.2))
    (hnone : next = none → s.rows.pixRemain.toNat = 0) : RowInv (beginRow next s) := by
  cases next with
  | none => exact .after (.inl rfl) (hnone rfl)
  | some x =>
    obtain ⟨hmem, hrem⟩ := hsome x rfl
    obtain ⟨ep, er⟩ := rowOrder_fits hmem
    refine .within rfl ?_ (Nat.zero_le _) (fun h => by cases h) (fun h => by cases h) ?_
    · show ((BitVec.ofNat 2 x.1).toNat, (BitVec.ofNat 16 x.2).toNat) ∈ _
      rw [ep, er]
      exact hmem
    · show s.rows.pixRemain.toNat + 0 = s.oper.width.toNat *
        (1 + rowsAfter s.oper.interlace s.oper.height.toNat (BitVec.ofNat 2 x.1).toNat (BitVec.ofNat 16 x.2).toNat)
      rw [ep, er]
      exact hrem

/-- The first row begins (R106). -/
theorem RowInv.beginFirst {s : State} (h : RowInv s) (hq : s.seq = .firstRow) :
    RowInv (beginRow (firstRowOf s.oper.interlace s.oper.height.toNat) s) := by
  have hall := h.before hq
  refine .begin (fun x hx => ?_) fun hx => ?_
  · obtain ⟨hmem, hcount⟩ := firstRowOf_some hx
    exact ⟨hmem, by rw [hcount, hall]⟩
  · rw [hall, firstRowOf_none hx, Nat.mul_zero]

/-- The next row begins (R106). -/
theorem RowInv.beginNext {s : State} (h : RowInv s) (hq : s.seq = .nextRow) :
    RowInv (beginRow (nextRowOf s.oper.interlace s.oper.height.toNat s.rows.pass.toNat s.rows.row.toNat) s) := by
  have hs : s.seq.inRow = true := by simp [hq, Seq.inRow]
  have hmem := h.member hs
  have hrem : s.rows.pixRemain.toNat = s.oper.width.toNat *
      rowsAfter s.oper.interlace s.oper.height.toNat s.rows.pass.toNat s.rows.row.toNat := by
    have := h.remain hs
    rw [h.col_end hq, Nat.mul_add, Nat.mul_one] at this
    omega
  refine .begin (fun x hx => ?_) fun hx => ?_
  · obtain ⟨hmem', hcount⟩ := nextRowOf_some hmem hx
    exact ⟨hmem', by rw [hrem, ← hcount]⟩
  · rw [hrem, nextRowOf_none hmem hx, Nat.mul_zero]

/-- A definition goes on with the row, or raises an error (R100). -/
theorem define_position (code : CodeField) (kw : Bool) (s : State) :
    (defineAndUpdate code kw s).seq = .rowLoop ∨ ∃ e, (defineAndUpdate code kw s).seq = .raising e := by
  simp only [defineAndUpdate]
  split
  · exact .inl rfl
  · split
    · exact .inr ⟨_, rfl⟩
    · split
      · exact .inr ⟨_, rfl⟩
      · exact .inl rfl

/-- Where a DECODE_IMAGE goes on after a definition, it is at the row's loop test. -/
theorem define_rowLoop {code : CodeField} {kw : Bool} {s : State} (h : (defineAndUpdate code kw s).decoding = true) :
    (defineAndUpdate code kw s).seq = .rowLoop := by
  rcases define_position code kw s with hq | ⟨e, hq⟩
  · exact hq
  · simp [State.decoding, hq] at h

/-- A row is decoded by a DECODE_IMAGE (R36). -/
theorem decoding_of_inRow {s : State} (h : s.seq.inRow = true) : s.decoding = true := by
  unfold Seq.inRow at h
  unfold State.decoding
  split at h <;> simp_all

/-- Every move keeps the row registers as they should be while a DECODE_IMAGE runs. -/
theorem block_rows {s t : State} (h : s.decoding = true → RowInv s) (hcmd : CommandInv s) (hm : BlockMove s t)
    (ht : t.decoding = true) : RowInv t := by
  have himg := hm.sameImage
  have need : s.seq.needsPixel = true → t.rows = s.rows → t.seq.inRow = true → t.seq ≠ .nextRow → RowInv t := by
    intro hn er hq hne
    have hs := Seq.inRow_of_needsPixel hn
    have hr := h (decoding_of_inRow hs)
    exact hr.stay hs himg er hq (fun _ => hr.col_lt hn) fun he => absurd he hne
  cases hm
  case idle hq => simp [State.decoding, hq] at ht
  case nop | sbOpen | chunkAtTerm | chunkAtEnd | decodeAtEnd | decodeIllegal | copyWrite | codeEnd | codeInvalid |
      codeKnownFailed | codeKwkwkNoRoot | codeKwkwkFailed | finish | raising => simp [State.decoding] at ht
  case chunkEndOfInput k _ _ _ => cases k <;> simp [returnEndOfInput, State.decoding] at ht
  case copyDone i hq _ =>
    have := hcmd.next_chunk (.inr (.inr ⟨i, hq⟩))
    simp [State.decoding, this] at ht
  case decodeLegal => exact .first rfl (by simpa using Nat.mod_eq_of_lt (pixels_lt s.oper))
  case terminator k hq _ _ _ _ =>
    cases k with
    | command =>
      have : s.status.lastCmd = 3#4 := by
        rcases hq with hq | ⟨-, hq⟩
        · exact hcmd.next_chunk (.inl hq)
        · exact hcmd.started _ hq
      simp [returnNone, State.decoding, afterRead, this] at ht
    | extractor => simp [returnNone, State.decoding] at ht
    | drain =>
      rcases hq with hq | ⟨hk, -⟩
      · exact (h (by simp [State.decoding, hq])).drain (.inr (.inl hq)) rfl (.inr (.inr (.inr rfl)))
      · cases hk
  case length k hq _ _ _ _ =>
    cases k with
    | command => simp [State.decoding] at ht
    | extractor =>
      rcases hq with hq | ⟨hk, -⟩
      · exact need (by simp [hq, Seq.needsPixel]) rfl rfl (by simp)
      · cases hk
    | drain =>
      rcases hq with hq | ⟨hk, -⟩
      · exact (h (by simp [State.decoding, hq])).drain (.inr (.inl hq)) rfl (.inr (.inr (.inl rfl)))
      · cases hk
  case chunkNone k hq _ =>
    cases k with
    | command =>
      have := hcmd.next_chunk (.inl hq)
      simp [returnNone, State.decoding, this] at ht
    | extractor => simp [returnNone, State.decoding] at ht
    | drain => exact (h (by simp [State.decoding, hq])).drain (.inr (.inl hq)) rfl (.inr (.inr (.inr rfl)))
  case payloadShort k hq _ _ | payloadWhole k hq _ =>
    cases k with
    | command => simp [returnChunk, State.decoding] at ht
    | extractor => exact need (by simp [hq, Seq.needsPixel]) rfl rfl (by simp [returnChunk])
    | drain => exact (h (by simp [State.decoding, hq])).drain (.inr (.inr hq)) rfl (.inr (.inl rfl))
  case payloadRead k hq _ _ _ =>
    cases k with
    | command => simp [State.decoding, hq] at ht
    | extractor => exact need (by simp [hq, Seq.needsPixel]) rfl (by simp [hq, Seq.inRow]) (by simp [hq])
    | drain => exact (h (by simp [State.decoding, hq])).drain (.inr (.inr hq)) rfl (.inr (.inr (.inl hq)))
  case firstRow hq => exact (h (by simp [State.decoding, hq])).beginFirst hq
  case nextRow hq => exact (h (by simp [State.decoding, hq])).beginNext hq
  case flushPop k hq _ _ hc =>
    exact (h (by simp [State.decoding, hq])).stay (by simp [hq, Seq.inRow]) himg rfl rfl (fun _ => hc) (by simp)
  case flushDone k hq _ =>
    have hr := h (by simp [State.decoding, hq])
    have hs : s.seq.inRow = true := by simp [hq, Seq.inRow]
    have hl : (afterFlush k s).seq = .rowLoop := by
      cases k with
      | rowStart => rfl
      | define code kw => exact define_rowLoop ht
    have er : (afterFlush k s).rows = s.rows := by
      cases k with
      | rowStart => rfl
      | define code kw => rw [afterFlush, define_frame]
    exact hr.stay hs himg er (by simp [hl, Seq.inRow]) (by simp [hl, Seq.needsPixel]) (by simp [hl])
  case emit v k hq _ =>
    exact (h (by simp [State.decoding, hq])).pixel (by simp [hq, Seq.needsPixel]) himg rfl rfl rfl (by simp)
  case rowLoop hq =>
    have hr := h (by simp [State.decoding, hq])
    have hs : s.seq.inRow = true := by simp [hq, Seq.inRow]
    have hle := hr.col_le hs
    by_cases hc : s.rows.col.toNat < s.oper.width.toNat
    · exact hr.stay hs himg rfl (by simp [hc, Seq.inRow]) (fun _ => hc) (by simp [hc])
    · exact hr.stay hs himg rfl (by simp [hc, Seq.inRow]) (by simp [hc, Seq.needsPixel]) fun _ => by omega
  case fetchByte hq _ _ _ => exact need (by simp [hq, Seq.needsPixel]) rfl (by simp [hq, Seq.inRow]) (by simp [hq])
  case fetchNext hq _ _ | fetchCode hq _ | codeClear c hq _ | codeKnown c k hq _ _ | codeKwkwk c root k k' hq _ _ _ _ =>
    exact need (by simp [hq, Seq.needsPixel]) rfl rfl (by simp)
  case codeLiteral c hq _ _ =>
    have hl := define_rowLoop ht
    refine (h (by simp [State.decoding, hq])).pixel (by simp [hq, Seq.needsPixel]) himg ?_ (by simp [hl, Seq.inRow])
      (by simp [hl, Seq.needsPixel]) (by simp [hl])
    rw [define_frame]
    rfl
  case drain hq => exact (h (by simp [State.decoding, hq])).drain (.inl hq) rfl (.inr (.inl rfl))

end Sys2Proof.Machine
end

section
/-! PROOFS. Every step keeps STATUS consistent (O55) and the whole invariant (O53), which holds after reset (O52). -/

namespace Sys2Proof.Machine

/-! ### STATUS through a step (R16, R18, R35) -/

/-- A rejection sets BADCMD, which no rule of STATUS speaks of (R70). -/
theorem StatusInv.congr {s t : State} (h : StatusInv s) (e : ∃ b, t.status = { s.status with badCmd := b })
    (hq : t.seq = s.seq) : StatusInv t := by
  obtain ⟨b, e⟩ := e
  obtain ⟨g1, g2, g3, g4, g5⟩ := h
  constructor <;> simp only [e, hq]
  all_goals assumption

theorem StatusInv.accepted (c : Command) (s : State) : StatusInv (acceptCommand c s) := by
  constructor <;> simp

/-- After reset STATUS is 0 and the block idle (R127, R130). -/
theorem StatusInv.zero {t : State} (e : t.status = StatusRegs.zero) (hq : t.seq = .idle) : StatusInv t := by
  constructor <;> simp [e, hq, StatusRegs.zero]

theorem exec_decodeCommand_status {w : Word} {s t : State} (h : StatusInv s)
    (hx : exec (decodeCommand w) s = .next t) : StatusInv t := by
  rcases exec_decodeCommand w s with hr | ⟨-, c, ha⟩
  · cases hr.symm.trans hx
    exact h.congr ⟨true, rfl⟩ rfl
  · cases ha.symm.trans hx
    exact .accepted c s

/-- Only a write to CMD touches STATUS (R67 to R70). -/
theorem hostStep_status {a : HostAccess} {s t : State} (h : StatusInv s) (hx : hostStep a s = .next t) :
    StatusInv t := by
  rcases hostStep_cases hx with ⟨v, -, hv⟩ | ⟨_, _, -, -, -, -, -, rfl⟩ | ⟨_, _, -, -, -, -, -, rfl⟩ | ⟨_, rfl⟩ |
    ⟨_, _, -, -, rfl⟩ | ⟨_, _, -, -, rfl⟩
  · exact exec_decodeCommand_status h hv
  · exact h
  all_goals exact h.congr ⟨s.status.badCmd, rfl⟩ rfl

theorem step_status {s t : State} (h : StatusInv s) (hx : step s = .next t) : StatusInv t := by
  have turn : ∀ rest, StatusInv { s with agenda := rest } := fun rest => h.congr ⟨s.status.badCmd, rfl⟩ rfl
  rcases step_cases hx with ⟨s', hm, hb⟩ | ⟨a, rest, -, -, ha⟩ | ⟨rest, -, -, rfl⟩ | ⟨rest, -, -, rfl⟩
  · rw [hm.eq] at hb
    exact block_status (turn _) (blockStep_move hb)
  · exact hostStep_status (turn rest) ha
  · exact turn rest
  · exact .zero rfl rfl

/-! ### The invariant through a step (R36) -/

/-- LAST_CMD and PHASE stay right where neither they nor the position change. -/
theorem CommandInv.congr {s t : State} (h : CommandInv s) (el : t.status.lastCmd = s.status.lastCmd)
    (ep : t.status.phase = s.status.phase) (hq : t.seq = s.seq) : CommandInv t := by
  have hd : t.decoding = s.decoding := by simp only [State.decoding, hq, el]
  obtain ⟨g1, g2, g3, g4, g5, g6, g7, g8, g9⟩ := h
  constructor <;> simp only [el, ep, hq, hd]
  all_goals assumption

theorem CommandInv.accepted (c : Command) (s : State) : CommandInv (acceptCommand c s) := by
  constructor <;> simp [State.decoding, Seq.inRow]

theorem RowInv.congr {s t : State} (h : RowInv s) (hi : SameImage s t) (er : t.rows = s.rows) (hq : t.seq = s.seq)
    (el : t.status.lastCmd = s.status.lastCmd) : RowInv t := by
  obtain ⟨ew, eh, ei⟩ := hi
  obtain ⟨g1, g2, g3, g4, g5, g6, g7⟩ := h
  constructor <;> simp only [er, hq, el, ew, eh, ei]
  all_goals assumption

/-- BADCMD, the byte spaces, the agenda and the observations are free, as long as the spaces are canonical. -/
theorem Inv.surroundings {s : State} (h : Inv s) (badCmd : Bool) {inSpace outSpace : Space} (agenda : List Turn)
    (observations : List Observation) (hm : inSpace.wf ∧ outSpace.wf) :
    Inv
      { s with
        status := { s.status with badCmd := badCmd }, inSpace := inSpace, outSpace := outSpace, agenda := agenda,
        observations := observations } where
  memory := hm
  status := h.status.congr ⟨badCmd, rfl⟩ rfl
  command := h.command.congr rfl rfl rfl
  reader := h.reader.congr rfl
  lzw hd := (h.lzw hd).congr rfl rfl (h.lzw hd).define_code
  stack hd := (h.stack hd).congr rfl rfl rfl (h.stack hd).empty (h.stack hd).row_end (h.stack hd).in_flight
  rows hd := (h.rows hd).congr ⟨rfl, rfl, rfl⟩ rfl rfl rfl

/-- Where no DECODE_IMAGE runs past its minimum code size, the decoder's registers are free (R36). -/
theorem Inv.outside {t : State} (hd : t.decoding = false) (memory : Memory.wf t) (status : StatusInv t)
    (command : CommandInv t) (reader : ReaderInv t) : Inv t where
  memory := memory
  status := status
  command := command
  reader := reader
  lzw h := by simp [hd] at h
  stack h := by simp [hd] at h
  rows h := by simp [hd] at h

/-- The registers as a reset leaves them (R127, R130). -/
theorem Inv.of_reset {t : State} (n : Nat) (hm : Memory.wf t) (hs : t.status = StatusRegs.zero)
    (hr : t.reader = ReaderRegs.afterReset n) (hq : t.seq = .idle) : Inv t :=
  .outside (by simp [State.decoding, hq]) hm (.zero hs hq) (.idle hq) (.empty (by rw [hr]; rfl) (by rw [hr]; rfl))

theorem Space.empty_wf (size : Nat) : Space.wf { size := size, cells := [] } := ⟨.nil, by simp⟩

/-- Every move of the block keeps the invariant. -/
theorem block_inv {s t : State} (h : Inv s) (hm : BlockMove s t) : Inv t where
  memory := ⟨hm.spaces.1.wf h.memory.1, hm.spaces.2.wf h.memory.2⟩
  status := block_status h.status hm
  command := block_command h.command h.lzw h.stack hm
  reader := block_reader h.reader hm
  lzw := block_lzw h.lzw h.command hm
  stack := block_stack h.stack h.lzw h.command hm
  rows := block_rows h.rows h.command hm

/-- A command word, accepted or rejected, keeps the invariant (R70). -/
theorem exec_decodeCommand_inv {w : Word} {s t : State} (h : Inv s) (hx : exec (decodeCommand w) s = .next t) :
    Inv t := by
  rcases exec_decodeCommand w s with hr | ⟨-, c, ha⟩
  · cases hr.symm.trans hx
    exact h.surroundings true s.agenda s.observations h.memory
  · cases ha.symm.trans hx
    exact .outside rfl h.memory (.accepted c s) (.accepted c s) ⟨h.reader.pos_le, h.reader.len_le⟩

/-- A write to an operand register while BUSY = 0 finds no command running (R35, R68). -/
theorem Inv.operand_write {s : State} (h : Inv s) (hb : s.status.busy = false) (o : OperandRegs) :
    Inv { s with oper := o } := by
  have hq : s.seq = .idle := by
    by_contra hne
    rw [h.status.busy_iff.2 hne] at hb
    cases hb
  exact .outside (by simp [State.decoding, hq]) h.memory (h.status.congr ⟨s.status.badCmd, rfl⟩ rfl) (.idle hq)
    (h.reader.congr rfl)

/-- Every access of the host keeps the invariant (R67 to R70, R76). -/
theorem hostStep_inv {a : HostAccess} {s t : State} (h : Inv s) (hx : hostStep a s = .next t) : Inv t := by
  rcases hostStep_cases hx with ⟨v, -, hv⟩ | ⟨_, _, -, -, -, -, -, rfl⟩ | ⟨_, _, -, -, -, -, hb, rfl⟩ | ⟨o, rfl⟩ |
    ⟨off, b, -, ho, rfl⟩ | ⟨off, b, -, ho, rfl⟩
  · exact exec_decodeCommand_inv h hv
  · exact h
  · exact h.operand_write hb _
  · exact h.surroundings s.status.badCmd s.agenda (o :: s.observations) h.memory
  · exact h.surroundings s.status.badCmd s.agenda s.observations ⟨Space.write_wf h.memory.1 b ho, h.memory.2⟩
  · exact h.surroundings s.status.badCmd s.agenda s.observations ⟨h.memory.1, Space.write_wf h.memory.2 b ho⟩

theorem step_inv {s t : State} (h : Inv s) (hx : step s = .next t) : Inv t := by
  have turn : ∀ rest, Inv { s with agenda := rest } := fun rest =>
    h.surroundings s.status.badCmd rest s.observations h.memory
  rcases step_cases hx with ⟨s', hm, hb⟩ | ⟨a, rest, -, -, ha⟩ | ⟨rest, -, -, rfl⟩ | ⟨rest, -, -, rfl⟩
  · rw [hm.eq] at hb
    exact block_inv (turn _) (blockStep_move hb)
  · exact hostStep_inv (turn rest) ha
  · exact turn rest
  · exact .of_reset (s.freeCount + 1) h.memory rfl rfl rfl

end Sys2Proof.Machine

namespace Sys2Proof

open Machine

/-- Settles O53: every move of the block keeps each component of the invariant, an access of the host changes nothing a
running decode reads, and a reset empties the registers. -/
theorem everyStepKeepsTheInvariant : Obligations.EveryStepKeepsTheInvariant := fun _ _ => step_inv

/-- Settles O55: a move of the block ends the command or goes on with it, a write to CMD starts one or sets BADCMD, and
nothing else but a reset touches STATUS. -/
theorem everyStepKeepsTheStatusConsistent : Obligations.EveryStepKeepsTheStatusConsistent := fun _ _ => step_status

/-- Settles O52: the registers are those of a reset, and no byte of IN or OUT is placed. -/
theorem invariantHoldsAfterReset : Obligations.InvariantHoldsAfterReset :=
  .of_reset 0 ⟨Space.empty_wf _, Space.empty_wf _⟩ rfl rfl rfl

end Sys2Proof
end

section
/-! PROOFS. The register window: the place of every field (O21), and the host's operand writes (O17). -/

namespace Sys2Proof.Machine

/-! ### The fields of each word (R14 to R30) -/

/-- The single bits of STATUS, and the one above PHASE. -/
theorem statusWord_flags (s : State) :
    (statusWord s).getLsbD 0 = s.status.busy ∧ (statusWord s).getLsbD 1 = s.status.done ∧
      (statusWord s).getLsbD 2 = s.status.error ∧ (statusWord s).getLsbD 3 = s.status.badCmd ∧
      (statusWord s).getLsbD 4 = s.reader.sbTerm ∧ (statusWord s).getLsbD 5 = s.reader.sbShort ∧
      (statusWord s).getLsbD 15 = false := by
  simp only [statusWord, BitVec.getLsbD_append]
  simp

theorem statusWord_fields (s : State) :
    (statusWord s).extractLsb' 6 2 = 0#2 ∧ (statusWord s).extractLsb' 8 4 = s.status.err ∧
      (statusWord s).extractLsb' 12 3 = s.status.phase.code ∧ (statusWord s).extractLsb' 16 4 = s.status.lastCmd ∧
      (statusWord s).extractLsb' 20 12 = 0#12 := by
  simp (disch := decide) only [statusWord, BitVec.extractLsb'_append_eq_of_le, BitVec.extractLsb'_append_eq_of_add_le]
  simp

theorem errInfoWord_fields (s : State) :
    (errInfoWord s).extractLsb' 0 13 = s.status.errValue ∧ (errInfoWord s).extractLsb' 13 3 = 0#3 ∧
      (errInfoWord s).extractLsb' 16 4 = s.status.errSub ∧ (errInfoWord s).extractLsb' 20 12 = 0#12 := by
  simp (disch := decide) only [errInfoWord, BitVec.extractLsb'_append_eq_of_le, BitVec.extractLsb'_append_eq_of_add_le]
  simp

theorem geomWord_fields (s : State) :
    (geomWord s).extractLsb' 0 16 = s.oper.width ∧ (geomWord s).extractLsb' 16 16 = s.oper.height := by
  simp (disch := decide) only [geomWord, BitVec.extractLsb'_append_eq_of_le, BitVec.extractLsb'_append_eq_of_add_le]
  simp

theorem chunkWord_fields (s : State) :
    (chunkWord s).extractLsb' 0 8 = s.reader.chunkLen ∧ (chunkWord s).extractLsb' 8 8 = s.reader.chunkDecl ∧
      (chunkWord s).extractLsb' 16 8 = s.reader.chunkPos ∧ (chunkWord s).extractLsb' 24 8 = 0#8 := by
  simp (disch := decide) only [chunkWord, BitVec.extractLsb'_append_eq_of_le, BitVec.extractLsb'_append_eq_of_add_le]
  simp

theorem lzwCfgWord_fields (s : State) :
    (lzwCfgWord s).extractLsb' 0 8 = s.lzw.mcs ∧ (lzwCfgWord s).extractLsb' 8 4 = s.lzw.depth ∧
      (lzwCfgWord s).extractLsb' 12 20 = 0#20 := by
  simp (disch := decide) only [lzwCfgWord, BitVec.extractLsb'_append_eq_of_le, BitVec.extractLsb'_append_eq_of_add_le]
  simp

theorem lzwCodesWord_fields (s : State) :
    (lzwCodesWord s).extractLsb' 0 13 = s.lzw.clearCode ∧ (lzwCodesWord s).extractLsb' 13 3 = 0#3 ∧
      (lzwCodesWord s).extractLsb' 16 13 = s.lzw.endCode ∧ (lzwCodesWord s).extractLsb' 29 3 = 0#3 := by
  simp (disch := decide) only [lzwCodesWord, BitVec.extractLsb'_append_eq_of_le, BitVec.extractLsb'_append_eq_of_add_le]
  simp

theorem lzwRunWord_fields (s : State) :
    (lzwRunWord s).extractLsb' 0 13 = s.lzw.runningCode ∧ (lzwRunWord s).extractLsb' 13 3 = 0#3 ∧
      (lzwRunWord s).extractLsb' 16 4 = s.lzw.runningBits ∧ (lzwRunWord s).extractLsb' 20 12 = 0#12 := by
  simp (disch := decide) only [lzwRunWord, BitVec.extractLsb'_append_eq_of_le, BitVec.extractLsb'_append_eq_of_add_le]
  simp

theorem lzwMaxWord_fields (s : State) :
    (lzwMaxWord s).extractLsb' 0 13 = s.lzw.maxCode1 ∧ (lzwMaxWord s).extractLsb' 13 19 = 0#19 := by
  simp (disch := decide) only [lzwMaxWord, BitVec.extractLsb'_append_eq_of_le, BitVec.extractLsb'_append_eq_of_add_le]
  simp

theorem lzwPrevWord_fields (s : State) :
    (lzwPrevWord s).extractLsb' 0 13 = s.lzw.prevCode ∧ (lzwPrevWord s).extractLsb' 13 3 = 0#3 ∧
      (lzwPrevWord s).extractLsb' 16 13 = s.extr.curCode ∧ (lzwPrevWord s).extractLsb' 29 3 = 0#3 := by
  simp (disch := decide) only [lzwPrevWord, BitVec.extractLsb'_append_eq_of_le, BitVec.extractLsb'_append_eq_of_add_le]
  simp

theorem stackWord_fields (s : State) :
    (stackWord s).extractLsb' 0 13 = s.stk.stackPtr ∧ (stackWord s).extractLsb' 13 19 = 0#19 := by
  simp (disch := decide) only [stackWord, BitVec.extractLsb'_append_eq_of_le, BitVec.extractLsb'_append_eq_of_add_le]
  simp

theorem shiftStateWord_fields (s : State) :
    (shiftStateWord s).extractLsb' 0 6 = s.extr.shiftState ∧ (shiftStateWord s).extractLsb' 6 26 = 0#26 := by
  simp (disch := decide) only [shiftStateWord, BitVec.extractLsb'_append_eq_of_le,
    BitVec.extractLsb'_append_eq_of_add_le]
  simp

theorem rowPosWord_fields (s : State) :
    (rowPosWord s).extractLsb' 0 16 = s.rows.row ∧ (rowPosWord s).extractLsb' 16 2 = s.rows.pass ∧
      (rowPosWord s).extractLsb' 18 14 = 0#14 := by
  simp (disch := decide) only [rowPosWord, BitVec.extractLsb'_append_eq_of_le, BitVec.extractLsb'_append_eq_of_add_le]
  simp

theorem colWord_fields (s : State) :
    (colWord s).extractLsb' 0 16 = s.rows.col ∧ (colWord s).extractLsb' 16 16 = 0#16 := by
  simp (disch := decide) only [colWord, BitVec.extractLsb'_append_eq_of_le, BitVec.extractLsb'_append_eq_of_add_le]
  simp

theorem modeWord_fields (s : State) :
    (modeWord s).getLsbD 0 = s.oper.interlace ∧ (modeWord s).extractLsb' 1 31 = 0#31 := by
  simp (disch := decide) only [modeWord, BitVec.getLsbD_append, BitVec.extractLsb'_append_eq_of_le]
  simp

/-! ### The operand registers (R19, R20, R21, R68) -/

/-- A word is its two halves, as GEOM holds them. -/
theorem halves_append (v : Word) : v.extractLsb' 16 16 ++ v.extractLsb' 0 16 = v :=
  (BitVec.extractLsb'_append_extractLsb'_eq_extractLsb' rfl).trans BitVec.extractLsb'_eq_self

/-- MODE keeps bit 0 of a word. -/
theorem lowBit_append (v : Word) : 0#31 ++ BitVec.ofBool (v.getLsbD 0) = v &&& 1#32 := by
  apply BitVec.eq_of_getLsbD_eq
  intro i hi
  rw [BitVec.getLsbD_append, BitVec.getLsbD_and, BitVec.getLsbD_one]
  by_cases h : i = 0
  · simp [h]
  · simp [h]

/-- A write goes to one of the four operand registers, or is ignored (R68). -/
theorem writeOperand_cases (off : Nat) :
    off = 0x0C ∨ off = 0x10 ∨ off = 0x14 ∨ off = 0x18 ∨
      (off ≠ 0x0C ∧ off ≠ 0x10 ∧ off ≠ 0x14 ∧ off ≠ 0x18) ∧ ∀ v o, writeOperand off v o = o := by
  by_cases hg : off = 0x0C
  · exact .inl hg
  by_cases hm : off = 0x10
  · exact .inr (.inl hm)
  by_cases hp : off = 0x14
  · exact .inr (.inr (.inl hp))
  by_cases he : off = 0x18
  · exact .inr (.inr (.inr (.inl he)))
  exact .inr (.inr (.inr (.inr ⟨⟨hg, hm, hp, he⟩, fun v o => by simp [writeOperand, hg, hm, hp, he]⟩)))

/-- Each operand register shows its own fields; the other words do not depend on them (R14). -/
theorem regWord_oper (s : State) (o : OperandRegs) (off : Nat)
    (hg : off = 0x0C → o.width = s.oper.width ∧ o.height = s.oper.height)
    (hm : off = 0x10 → o.interlace = s.oper.interlace) (hp : off = 0x14 → o.inPtr = s.oper.inPtr)
    (he : off = 0x18 → o.inEnd = s.oper.inEnd) : regWord { s with oper := o } off = regWord s off := by
  by_cases hgeom : off = 0x0C
  · obtain ⟨hw, hh⟩ := hg hgeom
    rw [hgeom, regWord_geom, regWord_geom, geomWord, geomWord, hw, hh]
  by_cases hmode : off = 0x10
  · rw [hmode, regWord_mode, regWord_mode, modeWord, modeWord, hm hmode]
  by_cases hptr : off = 0x14
  · rw [hptr, regWord_inPtr, regWord_inPtr, hp hptr]
  by_cases hend : off = 0x18
  · rw [hend, regWord_inEnd, regWord_inEnd, he hend]
  simp only [regWord, if_neg hgeom, if_neg hmode, if_neg hptr, if_neg hend]
  rfl

/-- What is written to an operand register reads back, MODE only in bit 0 (R19, R20, R21). -/
theorem regWord_writeOperand_same (s : State) (off : Nat) (v : Word) :
    regWord { s with oper := writeOperand off v s.oper } off =
      if off = 0x0C ∨ off = 0x14 ∨ off = 0x18 then v else if off = 0x10 then v &&& 1#32 else regWord s off := by
  rcases writeOperand_cases off with rfl | rfl | rfl | rfl | ⟨⟨hg, hm, hp, he⟩, hnone⟩
  · exact halves_append v
  · exact lowBit_append v
  · rfl
  · rfl
  · rw [hnone, if_neg (by simp [hg, hp, he]), if_neg hm]

/-- A write to one operand register leaves the other words (R68). -/
theorem regWord_writeOperand_other (s : State) {off other : Nat} (v : Word) (h : other ≠ off) :
    regWord { s with oper := writeOperand off v s.oper } other = regWord s other := by
  rcases writeOperand_cases off with rfl | rfl | rfl | rfl | ⟨-, hnone⟩
  · exact regWord_oper s _ other (fun e => absurd e h) (fun _ => rfl) (fun _ => rfl) fun _ => rfl
  · exact regWord_oper s _ other (fun _ => ⟨rfl, rfl⟩) (fun e => absurd e h) (fun _ => rfl) fun _ => rfl
  · exact regWord_oper s _ other (fun _ => ⟨rfl, rfl⟩) (fun _ => rfl) (fun e => absurd e h) fun _ => rfl
  · exact regWord_oper s _ other (fun _ => ⟨rfl, rfl⟩) (fun _ => rfl) (fun _ => rfl) fun e => absurd e h
  · rw [hnone]

/-- While BUSY = 0 a register write of the host, but to CMD, goes to the operand registers (R68). -/
theorem step_operandWrite {s : State} {off : Nat} {v : Word} {rest : List Turn} (hb : s.atBoundary = true)
    (hidle : s.status.busy = false) (h4 : off % 4 = 0) (hlt : off < 256) (h0 : off ≠ 0)
    (h : s.agenda = .host (.regWrite 32 off v) :: rest) :
    step s = .next { s with oper := writeOperand off v s.oper, agenda := rest } := by
  rw [step_host hb h, hostStep, wholeAccess_eq h4 hlt, regWrite, if_neg h0, if_neg (by simp [hidle])]

/-- The agenda shows in no register. -/
theorem regWord_agenda (s : State) (rest : List Turn) (off : Nat) :
    regWord { s with agenda := rest } off = regWord s off := rfl

end Sys2Proof.Machine

namespace Sys2Proof

open Machine

/-- Settles O21: each register's word is its fields, put together at their bits. -/
theorem registerMapPlacesTheFields : Obligations.RegisterMapPlacesTheFields := by
  intro s
  obtain ⟨busy, done, error, badCmd, sbTerm, sbShort, bit15⟩ := statusWord_flags s
  obtain ⟨status6, err, phase, lastCmd, status20⟩ := statusWord_fields s
  obtain ⟨errValue, errInfo13, errSub, errInfo20⟩ := errInfoWord_fields s
  obtain ⟨width, height⟩ := geomWord_fields s
  obtain ⟨interlace, mode1⟩ := modeWord_fields s
  obtain ⟨chunkLen, chunkDecl, chunkPos, chunk24⟩ := chunkWord_fields s
  obtain ⟨mcs, depth, cfg12⟩ := lzwCfgWord_fields s
  obtain ⟨clearCode, codes13, endCode, codes29⟩ := lzwCodesWord_fields s
  obtain ⟨runningCode, run13, runningBits, run20⟩ := lzwRunWord_fields s
  obtain ⟨maxCode1, max13⟩ := lzwMaxWord_fields s
  obtain ⟨prevCode, prev13, curCode, prev29⟩ := lzwPrevWord_fields s
  obtain ⟨stackPtr, stack13⟩ := stackWord_fields s
  obtain ⟨shiftState, shift6⟩ := shiftStateWord_fields s
  obtain ⟨row, pass, rowPos18⟩ := rowPosWord_fields s
  obtain ⟨col, col16⟩ := colWord_fields s
  have reserved : ∀ off, off = 0 ∨ 0x4C ≤ off → regWord s off = 0#32 := by
    rintro off (rfl | h)
    · exact regWord_cmd s
    · exact regWord_reserved s h
  rw [regWord_status, regWord_errInfo, regWord_geom, regWord_mode, regWord_chunk, regWord_lzwCfg, regWord_lzwCodes,
    regWord_lzwRun, regWord_lzwMax, regWord_lzwPrev, regWord_stack, regWord_shiftState, regWord_rowPos, regWord_col]
  exact ⟨busy, done, error, badCmd, sbTerm, sbShort, status6, err, phase, bit15, lastCmd, status20,
    errValue, errSub, errInfo13, errInfo20, width, height, interlace, mode1, regWord_inPtr s, regWord_inEnd s,
    chunkLen, chunkDecl, chunkPos, chunk24, mcs, depth, cfg12, clearCode, endCode, runningCode, runningBits, maxCode1,
    prevCode, curCode, stackPtr, regWord_shiftAcc s, shiftState, row, pass, col, regWord_pixRemain s,
    codes13, codes29, run13, run20, max13, prev13, prev29, stack13, shift6, rowPos18, col16, reserved⟩

/-- Settles O17: the write is one of the four operand registers', which read back, or it is ignored. -/
theorem operandWritesReadBackWhenIdle : Obligations.OperandWritesReadBackWhenIdle := by
  intro s off v rest hb hidle h4 hlt h0 h
  have words := regWord_agenda { s with oper := writeOperand off v s.oper } rest
  refine ⟨_, step_operandWrite hb hidle h4 hlt h0 h, rfl, ?same, fun other hne => ?other, rfl⟩
  case same => exact (words off).trans (regWord_writeOperand_same s off v)
  case other => exact (words other).trans (regWord_writeOperand_other s v hne)

end Sys2Proof
end

section
/-! PROOFS. `flush` moves the top byte of the stack to the row (O46). -/

namespace Sys2Proof

open Machine

/-- Settles O46: one step pops the byte, the next one writes it at the pixel. -/
theorem flushMovesTheTopByteToTheRow : Obligations.FlushMovesTheTopByteToTheRow := by
  intro s k hagenda hmem hq hpos hcol hsize hle
  have hpop := (step_noTurns hagenda).trans (blockStep_flush_pop hq hpos hle hcol)
  have hwrite := (step_noTurns (s := { s with
    stk := { s.stk with stackPtr := s.stk.stackPtr - 1#13 }
    seq := .emit s.stk.stack[s.stk.stackPtr.toNat - 1] k }) hagenda).trans (blockStep_emit rfl hsize)
  refine ⟨_, _, hpop, hwrite, rfl, ?pointer, rfl, ?bytes, rfl, ?frame⟩
  case pointer =>
    show (s.stk.stackPtr - 1#13).toNat = _
    exact BitVec.toNat_sub_of_le (BitVec.le_def.2 hpos)
  case bytes =>
    intro a
    simp only [eq_comm (a := a)]
    exact Space.read_write hmem.2 (pixelOffset s) _ a
  case frame => rw [hq]; rfl

end Sys2Proof
end

section
/-! PROOFS. The host's register reads (O19) and the register accesses the model refuses (O20). -/

namespace Sys2Proof.Machine

/-- A register access that is not 32 bits wide at a multiple of 4 is refused (R43). -/
theorem wholeAccess_partial {width off : Nat} (h : width ≠ 32 ∨ off % 4 ≠ 0) (r : Result) :
    wholeAccess width off r = .refused (.regAccessNotWhole width off) := if_pos h

/-- A whole, aligned register read in the window observes the register's word (R67). -/
theorem hostStep_regRead {off : Nat} (h4 : off % 4 = 0) (hlt : off < 256) (s : State) :
    hostStep (.regRead 32 off) s = .next (observe (.reg off (regWord s off)) s) := wholeAccess_eq h4 hlt _

end Sys2Proof.Machine

namespace Sys2Proof

open Machine

/-- Settles O19: a read only adds to the observations, and neither CMD nor a reserved offset holds a word. -/
theorem hostReadsHaveNoSideEffect : Obligations.HostReadsHaveNoSideEffect := by
  intro s off rest hb h4 hlt h
  refine ⟨?read, ?zero⟩
  case read =>
    rw [step_host hb h, hostStep_regRead h4 hlt, regWord_agenda]
    rfl
  case zero =>
    rintro (rfl | hres)
    · exact regWord_cmd s
    · exact regWord_reserved s hres

/-- Settles O20: writes and reads alike pass the check for a whole access first. -/
theorem partialRegisterAccessesAreRefused : Obligations.PartialRegisterAccessesAreRefused := by
  intro s width off v rest hb hpart h
  rcases h with h | h
  · exact (step_host hb h).trans (wholeAccess_partial hpart _)
  · exact (step_host hb h).trans (wholeAccess_partial hpart _)

end Sys2Proof
end

section
/-! PROOFS. The accesses to memory: within the host's sizes no step faults (O56), every changed byte has its write (O59), and
the block writes only in place (O60). -/

namespace Sys2Proof.Machine

/-! ### No fault (R37, R38) -/

/-- Within the host's sizes a move of the block is no fault (R38, R102, R103). -/
theorem blockStep_ne_fault {s : State} (h : Inv s) (hs : HostSizes s) (f : Fault) : blockStep s ≠ .fault f := by
  obtain ⟨t, ht⟩ := block_progress h hs
  rw [ht]
  exact nofun

/-- A command word is accepted or rejected, never a fault (R70). -/
theorem exec_decodeCommand_ne_fault (w : Word) (s : State) (f : Fault) : exec (decodeCommand w) s ≠ .fault f := by
  rcases exec_decodeCommand w s with h | ⟨-, c, h⟩ <;> rw [h] <;> exact nofun

/-- A register access that is no whole one is refused, which is no fault (R43). -/
theorem wholeAccess_ne_fault {r : Result} {f : Fault} (h : r ≠ .fault f) (width off : Nat) :
    wholeAccess width off r ≠ .fault f := by
  unfold wholeAccess
  split
  · exact nofun
  · split
    · exact nofun
    · exact h

/-- An access to a byte the space has is no fault (R37). -/
theorem admitted_ne_fault {off size : Nat} (h : off < size) (t : State) (f g : Fault) :
    (if off < size then .next t else .fault g : Result) ≠ .fault f := by
  rw [if_pos h]
  exact nofun

/-- An access of the host within the spaces is no fault (R37). -/
theorem hostStep_ne_fault {a : HostAccess} {s : State} (h : a.inRange s) (f : Fault) : hostStep a s ≠ .fault f := by
  cases a with
  | regWrite width off v =>
    refine wholeAccess_ne_fault ?_ width off
    unfold regWrite
    split
    · exact exec_decodeCommand_ne_fault v s f
    · split <;> exact nofun
  | regRead width off =>
    refine wholeAccess_ne_fault ?_ width off
    exact nofun
  | inWrite off b => exact admitted_ne_fault h _ _ _
  | inRead off => exact admitted_ne_fault h _ _ _
  | outWrite off b => exact admitted_ne_fault h _ _ _
  | outRead off => exact admitted_ne_fault h _ _ _

/-- The turns still pending are no part of the invariant. -/
theorem Inv.with_agenda {s : State} (h : Inv s) (rest : List Turn) : Inv { s with agenda := rest } :=
  h.surroundings s.status.badCmd rest s.observations h.memory

/-- Whichever agent takes the turn, it does not fault. -/
theorem takeTurn_ne_fault {s : State} (h : Inv s) (hs : HostSizes s) (ht : TurnInRange s) (f : Fault) :
    takeTurn s ≠ .fault f := by
  unfold takeTurn
  split
  · exact blockStep_ne_fault h hs f
  · next rest _ => exact blockStep_ne_fault (h.with_agenda rest) hs f
  · next a rest ha =>
    have hr : a.inRange { s with agenda := rest } := by
      have := ht a rest ha
      cases a <;> exact this
    exact hostStep_ne_fault hr f
  · split
    · exact blockStep_ne_fault h hs f
    · exact nofun
  · exact nofun

/-! ### Changed bytes (R37, R48) -/

/-- A byte that a write changed is the written one. -/
theorem Space.read_changed {m n : Space} (hm : m.wf) {off : Nat} {v : Byte} (hn : n = m.write off v) {a : Nat}
    (h : n.read a ≠ m.read a) : off = a ∧ v = n.read a := by
  subst hn
  rw [Space.read_write hm] at h ⊢
  split at h
  · next e => exact ⟨e, (if_pos e).symm⟩
  · exact absurd rfl h

/-- A move of the block changes no byte of IN, and a byte of OUT only by a write it records (R37, R48). -/
theorem BlockMove.changes {s t : State} (h : BlockMove s t) (hm : Memory.wf s) (a : Nat) :
    (t.outSpace.read a ≠ s.outSpace.read a → t.history = .outWrite a (t.outSpace.read a) :: s.history) ∧
      t.inSpace.read a = s.inSpace.read a := by
  obtain ⟨hin, hout⟩ := h.memory
  refine ⟨fun hne => ?_, by rw [hin]⟩
  obtain heq | ⟨off, v, -, hw, hh⟩ := hout
  · exact absurd (by rw [heq]) hne
  · obtain ⟨rfl, rfl⟩ := Space.read_changed hm.2 hw hne
    exact hh

/-- An access of the host leaves each space, or is the write of a byte to it (R37). -/
theorem hostStep_writes {x : HostAccess} {s t : State} (h : hostStep x s = .next t) :
    (t.outSpace = s.outSpace ∨ ∃ off v, x = .outWrite off v ∧ t.outSpace = s.outSpace.write off v) ∧
      (t.inSpace = s.inSpace ∨ ∃ off v, x = .inWrite off v ∧ t.inSpace = s.inSpace.write off v) := by
  rcases hostStep_cases h with ⟨v, -, hx⟩ | ⟨_, _, -, -, -, -, -, rfl⟩ | ⟨_, _, -, -, -, -, -, rfl⟩ | ⟨_, rfl⟩ |
    ⟨off, v, rfl, -, rfl⟩ | ⟨off, v, rfl, -, rfl⟩
  · exact ⟨.inl (exec_decodeCommand_spaces hx).2, .inl (exec_decodeCommand_spaces hx).1⟩
  · exact ⟨.inl rfl, .inl rfl⟩
  · exact ⟨.inl rfl, .inl rfl⟩
  · exact ⟨.inl rfl, .inl rfl⟩
  · exact ⟨.inl rfl, .inr ⟨off, v, rfl, rfl⟩⟩
  · exact ⟨.inr ⟨off, v, rfl, rfl⟩, .inl rfl⟩

/-- An access of the host changes a byte only where it writes that byte (R37). -/
theorem hostStep_changes {x : HostAccess} {s t : State} (h : hostStep x s = .next t) (hm : Memory.wf s) (a : Nat) :
    (t.outSpace.read a ≠ s.outSpace.read a → x = .outWrite a (t.outSpace.read a)) ∧
      (t.inSpace.read a ≠ s.inSpace.read a → x = .inWrite a (t.inSpace.read a)) := by
  obtain ⟨hout, hin⟩ := hostStep_writes h
  refine ⟨fun hne => ?_, fun hne => ?_⟩
  · obtain heq | ⟨off, v, rfl, hw⟩ := hout
    · exact absurd (by rw [heq]) hne
    · obtain ⟨rfl, rfl⟩ := Space.read_changed hm.2 hw hne
      rfl
  · obtain heq | ⟨off, v, rfl, hw⟩ := hin
    · exact absurd (by rw [heq]) hne
    · obtain ⟨rfl, rfl⟩ := Space.read_changed hm.1 hw hne
      rfl

/-! ### The block's writes (R39) -/

/-- `BlockWrites s a v`: the block's move from `s` writes the byte `v` to OUT at `a`: in the copy loop (R74), as a pixel of
`flush` (R110) or as a literal's pixel (R94). -/
inductive BlockWrites (s : State) : Nat → Byte → Prop where
  | copied (i : Nat) (h : s.seq = .copyOut i) (hi : i < s.reader.chunkLen.toNat) (h255 : i < 255) :
      BlockWrites s i s.reader.chunkBuf[i]
  | flushed (v : Byte) (k : FlushCaller) (h : s.seq = .emit v k) : BlockWrites s (pixelOffset s) v
  | literal (c : Code) (h : s.seq = .process c) (hc : decodeCode s.codeContext c = .lzwLiteral c) :
      BlockWrites s (pixelOffset s) (c.setWidth 8)

/-- A write the block's move records is one of `BlockWrites` (R48). -/
theorem BlockMove.recorded {s t : State} (h : BlockMove s t) {a : Nat} {v : Byte}
    (hh : t.history = .outWrite a v :: s.history) : BlockWrites s a v := by
  cases h
  case copyWrite i hq hi h255 _ => cases hh; exact .copied _ hq hi h255
  case emit v k hq _ => cases hh; exact .flushed v k hq
  case codeLiteral c hq hc _ =>
    rw [define_frame] at hh
    cases hh
    exact .literal c hq hc
  case flushDone k _ _ =>
    cases k
    · simp [afterFlush] at hh
    · simp only [afterFlush] at hh
      rw [define_frame] at hh
      simp at hh
  all_goals simp at hh

/-- No access of the host is recorded in the history (R48). -/
theorem hostStep_history {x : HostAccess} {s t : State} (h : hostStep x s = .next t) : t.history = s.history := by
  rcases hostStep_cases h with ⟨v, -, hx⟩ | ⟨_, _, -, -, -, -, -, rfl⟩ | ⟨_, _, -, -, -, -, -, rfl⟩ | ⟨_, rfl⟩ |
    ⟨_, _, -, -, rfl⟩ | ⟨_, _, -, -, rfl⟩
  · rcases exec_decodeCommand v s with hr | ⟨-, c, ha⟩
    · cases hr.symm.trans hx; rfl
    · cases ha.symm.trans hx; rfl
  all_goals rfl

/-- What the block writes does not depend on the turns pending. -/
theorem BlockWrites.of_agenda {s : State} {rest : List Turn} {a : Nat} {v : Byte}
    (h : BlockWrites { s with agenda := rest } a v) : BlockWrites s a v := by
  cases h with
  | copied _ hq hi h255 => exact .copied (s := s) _ hq hi h255
  | flushed v k hq => exact .flushed v k hq
  | literal c hq hc => exact .literal c hq hc

/-- A write a step records is one of the block's: no other agent records one. -/
theorem step_recorded {s t : State} (h : step s = .next t) {a : Nat} {v : Byte}
    (hh : t.history = .outWrite a v :: s.history) : BlockWrites s a v := by
  rcases step_cases h with ⟨s', hm, hb⟩ | ⟨x, rest, -, -, hx⟩ | ⟨rest, -, -, rfl⟩ | ⟨rest, -, -, rfl⟩
  · rw [hm.eq] at hb
    exact ((blockStep_move hb).recorded hh).of_agenda
  · rw [hostStep_history hx] at hh
    simp at hh
  · simp at hh
  · simp at hh

/-- A pixel of a DECODE_IMAGE in a reachable state lies in a row and a column of the image (R109). -/
theorem Inv.pixel_inPlace {s : State} (h : Inv s) (hn : s.seq.needsPixel = true) :
    s.status.lastCmd = 1#4 ∧ s.rows.row.toNat < s.oper.height.toNat ∧ s.rows.col.toNat < s.oper.width.toNat :=
  have hin := Seq.inRow_of_needsPixel hn
  have hd := decoding_of_inRow hin
  ⟨h.command.decode hd, (mem_rowOrder.1 ((h.rows hd).member hin)).1, (h.rows hd).col_lt hn⟩

end Sys2Proof.Machine

namespace Sys2Proof

open Machine

/-- Settles O56: the block always has a move, the host's turn is in range, and waits and resets are no accesses. -/
theorem noStepFaultsWithinTheHostSizes : Obligations.NoStepFaultsWithinTheHostSizes := by
  intro s h hs ht f
  unfold step
  split
  · exact takeTurn_ne_fault h hs ht f
  · exact blockStep_ne_fault h hs f

/-- Settles O59: a move of the block records its one write to OUT, and the host's write is the turn it takes. -/
theorem memoryChangesAreAccountedFor : Obligations.MemoryChangesAreAccountedFor := by
  intro s t a hm h
  rcases step_cases h with ⟨s', hb, hx⟩ | ⟨x, rest, -, ha, hx⟩ | ⟨rest, -, -, rfl⟩ | ⟨rest, -, -, rfl⟩
  · rw [hb.eq] at hx
    obtain ⟨hout, hin⟩ := (blockStep_move hx).changes hm a
    exact ⟨fun hne => .inl (hout hne), fun hne => absurd hin hne⟩
  · obtain ⟨hout, hin⟩ := hostStep_changes hx hm a
    exact ⟨fun hne => .inr ⟨rest, hout hne ▸ ha⟩, fun hne => ⟨rest, hin hne ▸ ha⟩⟩
  · exact ⟨fun hne => absurd rfl hne, fun hne => absurd rfl hne⟩
  · exact ⟨fun hne => absurd rfl hne, fun hne => absurd rfl hne⟩

/-- Settles O60: the three positions that write, each with what the invariant says there. -/
theorem blockWritesStayInPlace : Obligations.BlockWritesStayInPlace := by
  intro s t a v h hx hh
  cases step_recorded hx hh with
  | copied _ hq hi h255 => exact .inr ⟨h.command.next_chunk (.inr (.inr ⟨_, hq⟩)), hi, h255, rfl⟩
  | flushed v k hq =>
    have hd : s.decoding = true := by simp [State.decoding, hq]
    obtain ⟨hcmd, hrow, hcol⟩ := h.pixel_inPlace (by simp [hq, Seq.needsPixel])
    exact .inl ⟨hcmd, rfl, hrow, hcol, (h.stack hd).in_flight v k hq⟩
  | literal c hq hc =>
    obtain ⟨hcmd, hrow, hcol⟩ := h.pixel_inPlace (by simp [hq, Seq.needsPixel])
    have hlt : c.toNat < s.lzw.clearCode.toNat := decodeCode_literal hc
    have hbyte : (c.setWidth 8).toNat ≤ c.toNat := by
      rw [BitVec.toNat_setWidth]
      exact Nat.mod_le _ _
    exact .inl ⟨hcmd, rfl, hrow, hcol, Nat.lt_of_le_of_lt hbyte hlt⟩

end Sys2Proof
end

section
/-! PROOFS. Codes are packed least significant bit first (O32). -/

namespace Sys2Proof.Machine

/-- The next byte of the chunk stands first among the untaken ones (R22, R40). -/
theorem untakenBytes_next {s t : State} (hpos : s.reader.chunkPos.toNat < s.reader.chunkLen.toNat)
    (h255 : s.reader.chunkPos.toNat < 255)
    (ht : t.reader = { s.reader with chunkPos := s.reader.chunkPos + 1#8 }) :
    untakenBytes s = s.reader.chunkBuf[s.reader.chunkPos.toNat] :: untakenBytes t := by
  have hsucc : (s.reader.chunkPos + 1#8).toNat = s.reader.chunkPos.toNat + 1 :=
    BitVec.toNat_add_of_lt (by simp; omega)
  rw [untakenBytes, untakenBytes, ht, hsucc, List.drop_eq_getElem_cons (by simp; omega)]
  simp

/-- Taking a byte of the chunk moves it from the chunk to the accumulator: the unread bits stay (R40, R83). -/
theorem pendingBits_takeByte {s t : State} (hheld : s.extr.shiftState.toNat < 12)
    (hacc : s.extr.shiftAcc.toNat < 2 ^ s.extr.shiftState.toNat)
    (hpos : s.reader.chunkPos.toNat < s.reader.chunkLen.toNat) (h255 : s.reader.chunkPos.toNat < 255)
    (hx : t.extr = takeByte s.extr s.reader.chunkBuf[s.reader.chunkPos.toNat])
    (hr : t.reader = { s.reader with chunkPos := s.reader.chunkPos + 1#8 }) : pendingBits t = pendingBits s := by
  obtain ⟨eacc, eheld⟩ := takeByte_values s.extr s.reader.chunkBuf[s.reader.chunkPos.toNat] hheld hacc
  rw [pendingBits, pendingBits, untakenBytes_next hpos h255 hr, bytesValue, hx, eacc, eheld]
  ring

/-- Taking a code of width `w` takes the `w` lowest unread bits (R40, R83). -/
theorem pendingBits_dropCode {s t : State} {w : Nat} (hw : w ≤ s.extr.shiftState.toNat) (h12 : w ≤ 12)
    (hx : t.extr = dropCode s.extr w) (hr : t.reader = s.reader) :
    pendingBits s = (codeBits s.extr w).toNat + 2 ^ w * pendingBits t := by
  obtain ⟨eacc, eheld⟩ := dropCode_values s.extr w hw
  have hbytes : untakenBytes t = untakenBytes s := by rw [untakenBytes, untakenBytes, hr]
  have hsplit : 2 ^ s.extr.shiftState.toNat = 2 ^ w * 2 ^ (s.extr.shiftState.toNat - w) := by
    rw [← pow_add, Nat.add_sub_cancel' hw]
  calc pendingBits s
      = s.extr.shiftAcc.toNat % 2 ^ w + 2 ^ w * (s.extr.shiftAcc.toNat / 2 ^ w)
          + 2 ^ w * 2 ^ (s.extr.shiftState.toNat - w) * bytesValue (untakenBytes s) := by
        rw [Nat.mod_add_div, ← hsplit, pendingBits]
    _ = (codeBits s.extr w).toNat + 2 ^ w * pendingBits t := by
        rw [codeBits_toNat _ h12, pendingBits, hbytes, hx, eacc, eheld]
        ring

end Sys2Proof.Machine

namespace Sys2Proof

open Machine

/-- Settles O32: short of the width the fetch takes a byte, or goes for the next chunk with the bits as they are; else it takes
the code. -/
theorem codesAreTakenLowestBitFirst : Obligations.CodesAreTakenLowestBitFirst := by
  intro s s' t hm hq h12 _ hacc hpos hx
  rw [hm.step] at hx
  refine ⟨fun hw => ?byte, fun hw => ?code⟩
  case byte =>
    by_cases hp : s'.reader.chunkPos = s'.reader.chunkLen
    · cases (blockStep_fetch_next hq hw hp).symm.trans hx
      rfl
    · have hlt : s'.reader.chunkPos.toNat < s'.reader.chunkLen.toNat :=
        Nat.lt_of_le_of_ne hpos fun e => hp (BitVec.eq_of_toNat_eq e)
      have h255 : s'.reader.chunkPos.toNat < 255 := by omega
      cases (blockStep_fetch_byte hq hw hp h255).symm.trans hx
      exact pendingBits_takeByte (by omega) hacc hlt h255 rfl rfl
  case code =>
    cases (blockStep_fetch_code hq hw).symm.trans hx
    exact ⟨_, rfl, pendingBits_dropCode hw h12 rfl rfl⟩

end Sys2Proof
end

section
/-! PROOFS. The decoder and the encoder agree (O1, O2), the classes of codes (O4), and the words written out from the spec
(O3). -/

namespace Sys2Proof

/-! ### The classes of codes (R61) -/

theorem CodeContext.wf_iff (cc : CodeContext) : cc.wf = true ↔ cc.endCode.toNat = cc.clearCode.toNat + 1 :=
  decide_eq_true_iff

/-- The class the decoder gives a code is one whose condition in R61's table the code meets. -/
theorem decodeCode_readableAt {cc : CodeContext} (hcc : cc.wf = true) (c : Code) :
    (decodeCode cc c).readableAt (.code cc) = true := by
  have hend := cc.wf_iff.1 hcc
  unfold decodeCode
  split
  · next he => exact decide_eq_true he
  split
  · next hc => exact decide_eq_true hc
  split
  · next hl => exact decide_eq_true hl
  have habove : cc.endCode.toNat < c.toNat := by omega
  split
  · next hk => exact decide_eq_true ⟨habove, hk⟩
  · next hk =>
    have hnone := not_ne_iff.1 hk
    split
    · next hw => exact decide_eq_true ⟨habove, hnone, hw⟩
    · next hw => exact decide_eq_true ⟨habove, hnone, hw⟩

/-- A code that meets a class's condition in R61's table is decoded to that class: the conditions exclude each other. -/
theorem decodeCode_of_readableAt {cc : CodeContext} (hcc : cc.wf = true) {c : Code} {i : Instr}
    (hi : encode i = .lzwCode c) (h : i.readableAt (.code cc) = true) : decodeCode cc c = i := by
  have hend := cc.wf_iff.1 hcc
  unfold decodeCode
  cases i with
  | lzwEnd =>
    cases hi
    rw [if_pos (of_decide_eq_true h)]
  | lzwClear =>
    cases hi
    have hc : c.toNat = cc.clearCode.toNat := of_decide_eq_true h
    rw [if_neg (by omega), if_pos hc]
  | lzwLiteral =>
    cases hi
    have hl : c.toNat < cc.clearCode.toNat := of_decide_eq_true h
    rw [if_neg (by omega), if_neg (by omega), if_pos hl]
  | lzwKnown =>
    cases hi
    obtain ⟨habove, hk⟩ := of_decide_eq_true h
    rw [if_neg (by omega), if_neg (by omega), if_neg (by omega), if_pos hk]
  | lzwKwkwk =>
    cases hi
    obtain ⟨habove, hnone, hw⟩ := of_decide_eq_true h
    rw [if_neg (by omega), if_neg (by omega), if_neg (by omega), if_neg (not_ne_iff.2 hnone), if_pos hw]
  | lzwInvalid =>
    cases hi
    obtain ⟨habove, hnone, hw⟩ := of_decide_eq_true h
    rw [if_neg (by omega), if_neg (by omega), if_neg (by omega), if_neg (not_ne_iff.2 hnone), if_neg hw]
  | _ => cases hi

/-- A code is decoded to a class exactly when it meets the class's condition `p` in R61's table. -/
theorem decodeCode_eq_iff {cc : CodeContext} (hcc : cc.wf = true) {c : Code} {i : Instr} {p : Prop} [Decidable p]
    (hi : encode i = .lzwCode c) (hp : i.readableAt (.code cc) = decide p) : decodeCode cc c = i ↔ p := by
  rw [← decide_eq_true_iff (p := p), ← hp]
  exact ⟨fun h => h ▸ decodeCode_readableAt hcc c, decodeCode_of_readableAt hcc hi⟩

/-! ### What each slot holds (R52) -/

/-- An instruction a CMD write can hold is the one its command word decodes to (R53, R54). -/
theorem encode_of_readableAt_command {i : Instr} (h : i.readableAt .command = true) :
    ∃ word, encode i = .cmdw word ∧ decodeCommand word = i := by
  cases i
  case lzwEnd | lzwClear | lzwLiteral | lzwKnown | lzwKwkwk | lzwInvalid | mcs | sbLen | sbTerminator => cases h
  all_goals exact ⟨_, rfl, decodeCommand_cmdWord _ _⟩

/-- The first byte of an image's data is a minimum code size (R56). -/
theorem eq_mcs_of_readableAt {i : Instr} (h : i.readableAt .firstByte = true) : ∃ byte, i = .mcs byte := by
  cases i
  case mcs byte => exact ⟨byte, rfl⟩
  all_goals cases h

/-- A byte where a length byte is due decodes to the instruction it encodes, unless that announces no byte (R57). -/
theorem encode_of_readableAt_lengthByte {i : Instr} (hw : i.lenInRange = true) (h : i.readableAt .lengthByte = true) :
    ∃ byte, encode i = .streamByte byte ∧ decodeLength byte = i := by
  cases i
  case sbLen len => exact ⟨len, rfl, decodeLength_of_ne (by simpa [Instr.lenInRange] using hw)⟩
  case sbTerminator => exact ⟨0#8, rfl, rfl⟩
  all_goals cases h

/-- What the bitstream can hold is encoded as a code (R58). -/
theorem encode_of_readableAt_code {i : Instr} {cc : CodeContext} (h : i.readableAt (.code cc) = true) :
    ∃ c, encode i = .lzwCode c := by
  cases i
  case lzwEnd c | lzwClear c | lzwLiteral c | lzwKnown c | lzwKwkwk c | lzwInvalid c => exact ⟨c, rfl⟩
  all_goals cases h

theorem lenInRange_of_wellFormed {i : Instr} (h : WellFormed i = true) : i.lenInRange = true := by
  simp only [WellFormed, Bool.and_eq_true] at h
  obtain ⟨⟨⟨⟨hlen, -⟩, -⟩, -⟩, -⟩ := h
  exact hlen

/-! ### Encoding what was decoded -/

@[simp] theorem encode_decodeCommand (word : Word) : encode (decodeCommand word) = .cmdw word := by
  rw [decodeCommand, encode_commandOf, cmdWord_fields]

@[simp] theorem encode_decodeLength (byte : Byte) : encode (decodeLength byte) = .streamByte byte := by
  unfold decodeLength
  split
  · next h => rw [h]; rfl
  · rfl

@[simp] theorem encode_decodeCode (cc : CodeContext) (c : Code) : encode (decodeCode cc c) = .lzwCode c := by
  have h := decodeCode_class cc c
  simp only [List.mem_cons, List.not_mem_nil, or_false] at h
  rcases h with h | h | h | h | h | h <;> rw [h] <;> rfl

/-- Settles O1, slot by slot: each slot's decoder reads back what it can hold. -/
theorem decodeOfEncodeGivesTheInstruction : Obligations.DecodeOfEncodeGivesTheInstruction := by
  intro i slot hw h hcc
  cases slot with
  | command =>
    obtain ⟨word, he, hd⟩ := encode_of_readableAt_command h
    rw [he, decode, hd]
  | firstByte =>
    obtain ⟨byte, rfl⟩ := eq_mcs_of_readableAt h
    rfl
  | lengthByte =>
    obtain ⟨byte, he, hd⟩ := encode_of_readableAt_lengthByte (lenInRange_of_wellFormed hw) h
    rw [he, decode, hd]
  | code cc =>
    obtain ⟨c, he⟩ := encode_of_readableAt_code h
    rw [he, decode, decodeCode_of_readableAt (hcc cc rfl) he h]

/-- Settles O2: a slot accepts its own format only, and that format's decoder keeps every bit. -/
theorem encodeOfDecodeGivesTheInput : Obligations.EncodeOfDecodeGivesTheInput := by
  intro slot input i h
  cases slot with
  | command =>
    cases input <;> cases h
    exact encode_decodeCommand _
  | firstByte =>
    cases input <;> cases h
    rfl
  | lengthByte =>
    cases input <;> cases h
    exact encode_decodeLength _
  | code cc =>
    cases input <;> cases h
    exact encode_decodeCode _ _

/-- Settles O4: each class's clause is its condition in R61's table, and every code has a class. -/
theorem codeClassesPartitionTheCodes : Obligations.CodeClassesPartitionTheCodes := fun cc c hcc =>
  ⟨decodeCode_eq_iff hcc rfl rfl, decodeCode_eq_iff hcc rfl rfl, decodeCode_eq_iff hcc rfl rfl,
    decodeCode_eq_iff hcc rfl rfl, decodeCode_eq_iff hcc rfl rfl, decodeCode_eq_iff hcc rfl rfl, decodeCode_class cc c⟩

/-- Settles O3: after initialisation no entry is defined and RUNNING_CODE − 2 is the end code, so every code above it is
invalid; the other words are decoded one by one. -/
theorem decodesTheWordsOfTheSpec : Obligations.DecodesTheWordsOfTheSpec := by
  have hcc : freshContext.wf = true := rfl
  have hnone : ∀ c : Code, freshContext.prefixTab[c.toNat] = Config.noSuchCode := fun c => by simp [freshContext]
  have invalid : ∀ c : Code, 5 < c.toNat → decodeCode freshContext c = .lzwInvalid c := fun c hc =>
    (decodeCode_eq_iff hcc rfl rfl).2 ⟨hc, hnone c, show c.toNat + 2 ≠ 7 by omega⟩
  exact ⟨fun c hc => (decodeCode_eq_iff hcc rfl rfl).2 hc, decodeCode_of_readableAt hcc rfl rfl,
    decodeCode_of_readableAt hcc rfl rfl, invalid _ (by decide), invalid _ (by decide), rfl, rfl, rfl, rfl, rfl⟩

end Sys2Proof
end

section
/-! PROOFS. What a write to CMD does, by the code in its low four bits (O16, O7, O9). -/

namespace Sys2Proof.Machine

/-! ### Commands and reserved codes (R53, R54) -/

theorem cmdCode_toNat (word : Word) : (cmdCode word).toNat = word.toNat % 16 := by
  simp [cmdCode]

/-- A code is one of the four commands' or reserved. -/
theorem commandCode_or_reserved (n : Nat) : (∃ c : Command, n = c.code.toNat) ∨ 4 ≤ n := by
  by_cases h : 4 ≤ n
  · exact .inr h
  · have hn : n = 0 ∨ n = 1 ∨ n = 2 ∨ n = 3 := by omega
    rcases hn with rfl | rfl | rfl | rfl
    · exact .inl ⟨.nop, rfl⟩
    · exact .inl ⟨.decodeImage, rfl⟩
    · exact .inl ⟨.sbOpen, rfl⟩
    · exact .inl ⟨.sbNextChunk, rfl⟩

/-- A command's word presents the command. -/
theorem exec_commandOf_command (c : Command) (g : BitVec 28) (s : State) :
    exec (commandOf c.code.toNat g) s = .next (presentCommand c s) := by
  cases c <;> rfl

/-- A reserved code is rejected. -/
theorem exec_commandOf_reserved {n : Nat} (h : 4 ≤ n) (g : BitVec 28) (s : State) :
    exec (commandOf n g) s = .next (rejectCommand s) := by
  unfold commandOf
  split
  case h_1 | h_2 | h_3 | h_4 => omega
  all_goals rfl

/-- Every word written to CMD is rejected, because BUSY = 1 or its code is reserved, or its command is accepted. -/
theorem exec_decodeCommand_cases (w : Word) (s : State) :
    ((s.status.busy = true ∨ 4 ≤ w.toNat % 16) ∧ exec (decodeCommand w) s = .next (rejectCommand s)) ∨
    (∃ c : Command, s.status.busy = false ∧ w.toNat % 16 = c.code.toNat ∧
      exec (decodeCommand w) s = .next (acceptCommand c s)) := by
  rw [decodeCommand, cmdCode_toNat]
  rcases commandCode_or_reserved (w.toNat % 16) with ⟨c, hc⟩ | hr
  · rw [hc, exec_commandOf_command]
    cases hb : s.status.busy with
    | true => exact .inl ⟨.inl rfl, by rw [presentCommand_busy c hb]⟩
    | false => exact .inr ⟨c, rfl, rfl, by rw [presentCommand_idle c hb]⟩
  · exact .inl ⟨.inr hr, exec_commandOf_reserved hr _ s⟩

/-- Only DECODE_IMAGE writes PHASE at its acceptance (R17). -/
theorem acceptedPhase_eq (c : Command) (p : Phase) :
    c.acceptedPhase p = if c.code.toNat = 1 then .initialized else p := by
  cases c <;> rfl

/-- Only SB_OPEN writes SB_TERM at its acceptance (R82). -/
theorem acceptedTerm_eq (c : Command) (b : Bool) : c.acceptedTerm b = if c.code.toNat = 2 then false else b := by
  cases c <;> rfl

end Sys2Proof.Machine

namespace Sys2Proof

open Machine

/-- Settles O16: a rejection sets BADCMD alone; an acceptance writes PHASE and SB_TERM as its command says. -/
theorem commandWordsKeepTheRest : Obligations.CommandWordsKeepTheRest := by
  intro w s t h
  rcases exec_decodeCommand_cases w s with ⟨hr, hx⟩ | ⟨c, hb, hc, hx⟩
  · cases hx.symm.trans h
    have hphase : ¬(s.status.busy = false ∧ w.toNat % 16 = 1) := by
      rintro ⟨hb, hw⟩
      simp [hb, hw] at hr
    have hterm : ¬(s.status.busy = false ∧ w.toNat % 16 = 2) := by
      rintro ⟨hb, hw⟩
      simp [hb, hw] at hr
    rw [if_neg hphase, if_neg hterm]
    exact ⟨rfl, rfl, rfl, rfl, rfl, rfl, rfl, rfl, fun _ => rfl, fun _ => rfl, rfl, rfl, rfl, rfl, rfl, rfl⟩
  · cases hx.symm.trans h
    refine ⟨rfl, rfl, rfl, rfl, rfl, rfl, ?phase, ?term, fun _ => rfl, fun _ => rfl, rfl, rfl, rfl, rfl, rfl, rfl⟩
    case phase => simp [hb, hc, acceptedPhase_eq]
    case term => simp [hb, hc, acceptedTerm_eq]

/-- Settles O7: while BUSY = 0 each command's word is accepted, which PHASE and SB_TERM see in one command each. -/
theorem commandsAreAcceptedWhenIdle : Obligations.CommandsAreAcceptedWhenIdle := by
  intro s g hb i c n hmem
  have accepted : exec (commandOf c.code.toNat g) s = .next (acceptCommand c s) := by
    rw [exec_commandOf_command, presentCommand_idle c hb]
  simp only [List.mem_cons, List.not_mem_nil, or_false, Prod.mk.injEq] at hmem
  rcases hmem with ⟨rfl, rfl, rfl⟩ | ⟨rfl, rfl, rfl⟩ | ⟨rfl, rfl, rfl⟩ | ⟨rfl, rfl, rfl⟩ <;> exact accepted

/-- Settles O9: the twelve are the codes 4 to 15. -/
theorem reservedCodesAreRejected : Obligations.ReservedCodesAreRejected := by
  intro s g i hi
  obtain ⟨n, hn, rfl⟩ := List.mem_map.1 (show i ∈ (List.range' 4 12).map (commandOf · g) from hi)
  exact exec_commandOf_reserved (List.mem_range'_1.1 hn).1 g s

end Sys2Proof
end

section
/-! PROOFS. The width schedule of code fetches (O33). -/

namespace Sys2Proof.Machine

/-- The width at hand is the one R60 gives for the running code: at least `d` + 1 bits, at most 12, and otherwise the
fewest that hold it. -/
structure WidthFits (d : Nat) (r : LzwRegs) : Prop where
  low : d + 1 ≤ r.runningBits.toNat
  high : r.runningBits.toNat ≤ 12
  max_eq : r.maxCode1.toNat = 2 ^ r.runningBits.toNat
  fits : r.runningBits.toNat < 12 → r.runningCode.toNat ≤ 2 ^ r.runningBits.toNat
  needed : d + 1 < r.runningBits.toNat → 2 ^ (r.runningBits.toNat - 1) < r.runningCode.toNat

/-- The width at hand is R60's formula. -/
theorem WidthFits.bits_eq {d : Nat} {r : LzwRegs} (h : WidthFits d r) (hd : d ≤ 8) :
    r.runningBits.toNat = min 12 (max (d + 1) (Nat.clog 2 r.runningCode.toNat)) := by
  have hlow := h.low
  have hhigh := h.high
  have hfits : r.runningBits.toNat < 12 → Nat.clog 2 r.runningCode.toNat ≤ r.runningBits.toNat :=
    fun hb => Nat.clog_le_of_le_pow (h.fits hb)
  have hneeded : d + 1 < r.runningBits.toNat → r.runningBits.toNat - 1 < Nat.clog 2 r.runningCode.toNat :=
    fun hb => (Nat.lt_clog_iff_pow_lt one_lt_two).2 (h.needed hb)
  omega

/-- A table reset leaves the width of its first code (R89). -/
theorem WidthFits.resetTable {r : LzwRegs} (h1 : 1 ≤ r.depth.toNat) (h8 : r.depth.toNat ≤ 8)
    (he : r.endCode.toNat = 2 ^ r.depth.toNat + 1) : WidthFits r.depth.toNat (resetTable r) := by
  have h256 : 2 ^ r.depth.toNat ≤ 2 ^ 8 := Nat.pow_le_pow_right two_pos h8
  have h2 : 2 ^ 1 ≤ 2 ^ r.depth.toNat := Nat.pow_le_pow_right two_pos h1
  obtain ⟨hcode, hbits, hmax⟩ := resetTable_values r h8 (by omega)
  refine ⟨hbits.ge, by omega, by rw [hmax, hbits], fun _ => ?fits, fun hlt => by omega⟩
  case fits =>
    rw [hcode, hbits, he, pow_succ]
    omega

/-- A fetch keeps the width fitting: it grows by the one bit that the new running code needs (R90). -/
theorem WidthFits.advance {d : Nat} {r : LzwRegs} (h : WidthFits d r) (hrc : r.runningCode.toNat < 8191) :
    WidthFits d (advanceRunning r) := by
  obtain ⟨hlow, hhigh, hmax, hfits, hneeded⟩ := h
  have hcode := advanceRunning_code r hrc
  by_cases hg : r.maxCode1.toNat < r.runningCode.toNat + 1 ∧ r.runningBits.toNat < 12
  case pos =>
    have h4096 : r.maxCode1.toNat < 4096 := hmax ▸ Nat.pow_lt_pow_right one_lt_two hg.2
    obtain ⟨emax, ebits⟩ := advanceRunning_grow r hrc hg.1 hg.2 h4096
    have hdouble : 2 ^ (advanceRunning r).runningBits.toNat = 2 * 2 ^ r.runningBits.toNat := by
      rw [ebits, pow_succ']
    have hpos : 0 < 2 ^ r.runningBits.toNat := Nat.two_pow_pos _
    refine ⟨by omega, by omega, by rw [emax, hmax, hdouble], fun _ => ?fits, fun _ => ?needed⟩
    case fits =>
      have := hfits hg.2
      omega
    case needed =>
      rw [ebits, Nat.add_sub_cancel, hcode, ← hmax]
      exact hg.1
  case neg =>
    obtain ⟨emax, ebits⟩ := advanceRunning_same r hrc hg
    refine ⟨?_, ?_, ?_, fun hb => ?fits, fun hb => ?needed⟩ <;> rw [ebits] at *
    · exact hlow
    · exact hhigh
    · rw [emax, hmax]
    case fits => omega
    case needed =>
      have := hneeded hb
      omega

/-- After a table reset and `k` fetches the width fits the running code, which has gone up by `k` (R89, R90). -/
theorem WidthFits.fetches {r : LzwRegs} (h1 : 1 ≤ r.depth.toNat) (h8 : r.depth.toNat ≤ 8)
    (he : r.endCode.toNat = 2 ^ r.depth.toNat + 1) (k : Nat) (hk : 2 ^ r.depth.toNat + 2 + k ≤ 4097) :
    WidthFits r.depth.toNat (advanceRunning^[k] (Machine.resetTable r)) ∧
      (advanceRunning^[k] (Machine.resetTable r)).runningCode.toNat = 2 ^ r.depth.toNat + 2 + k := by
  induction k with
  | zero =>
    have h256 : 2 ^ r.depth.toNat ≤ 2 ^ 8 := Nat.pow_le_pow_right two_pos h8
    refine ⟨.resetTable h1 h8 he, ?_⟩
    rw [Function.iterate_zero_apply, (resetTable_values r h8 (by omega)).1, he]
  | succ k ih =>
    obtain ⟨hfit, hcode⟩ := ih (by omega)
    rw [Function.iterate_succ_apply']
    refine ⟨hfit.advance (by omega), ?_⟩
    rw [advanceRunning_code _ (by omega), hcode]
    rfl

end Sys2Proof.Machine

namespace Sys2Proof

open Machine

/-- Settles O33: after `k` fetches the width fits the running code, which is what R60's formula says of it. -/
theorem widthScheduleFollowsTheFormula : Obligations.WidthScheduleFollowsTheFormula := by
  intro r k h1 h8 he hk
  obtain ⟨hfit, hcode⟩ := WidthFits.fetches h1 h8 he k hk
  rw [hfit.bits_eq h8, hcode]

end Sys2Proof
end

section
/-! PROOFS. The stream bytes: an illegal minimum code size, the length byte and the terminator (O25, O26, O27). -/

namespace Sys2Proof.Machine

/-- A length byte in `next_chunk` announces its payload to the same caller (R57, R80). -/
theorem exec_sbLen {s : State} {k : ChunkCaller} (h : s.seq = .nextChunk k) (len : Byte) :
    exec (.sbLen len) s = .next
      { s with
        reader := { s.reader with chunkDecl := len, chunkLen := 0#8, chunkPos := 0#8, sbShort := false }
        seq := .payload k } := by
  rw [exec, execSbLen, h, Seq.chunkCaller]

/-- The terminator in `next_chunk` returns None to its caller from the terminal state (R57, R80). -/
theorem exec_sbTerminator {s : State} {k : ChunkCaller} (h : s.seq = .nextChunk k) :
    exec .sbTerminator s = .next (returnNone k
      { s with
        reader :=
          { s.reader with sbTerm := true, sbShort := false, chunkLen := 0#8, chunkDecl := 0#8, chunkPos := 0#8 } }) := by
  rw [exec, execSbTerminator, h, Seq.chunkCaller]

/-- Where each caller of `next_chunk` goes on from None (R74, R84, R111). -/
theorem returnNone_eq (k : ChunkCaller) (s : State) :
    returnNone k s =
      { s with
        status := if k = .drain then { s.status with phase := .done } else s.status
        seq := if k = .extractor then .raising .codeAtTerminator else .finish } := by
  cases k <;> rfl

end Sys2Proof.Machine

namespace Sys2Proof

open Machine

/-- Settles O25: MCS is written before its range is tested (R88). -/
theorem illegalMcsLeavesTheRegisters : Obligations.IllegalMcsLeavesTheRegisters :=
  fun s _ h => exec_mcs_illegal s h

/-- Settles O26: the payload loop is that of the caller who read the length byte. -/
theorem lengthByteAnnouncesThePayload : Obligations.LengthByteAnnouncesThePayload :=
  fun _ _ len _ hq => exec_sbLen hq len

/-- Settles O27: the reader enters its terminal state, and None goes back to the caller. -/
theorem terminatorEntersTheTerminalState : Obligations.TerminatorEntersTheTerminalState := by
  intro s k hq
  rw [exec_sbTerminator hq, returnNone_eq]

end Sys2Proof
end

section
/-! PROOFS. A write to CMD is accepted or rejected (O8), and what the host may not change while BUSY = 1 (O58, O18). -/

namespace Sys2Proof.Machine

/-- While BUSY = 0 a command's word is the acceptance of the command (R70). -/
theorem exec_commandOf_idle (c : Command) (g : BitVec 28) {s : State} (h : s.status.busy = false) :
    exec (commandOf c.code.toNat g) s = .next (acceptCommand c s) := by
  rw [exec_commandOf_command, presentCommand_idle c h]

/-- While BUSY = 1 an access of the host leaves the operand registers (R69, R78). -/
theorem hostStep_oper_busy {a : HostAccess} {s t : State} (hb : s.status.busy = true) (h : hostStep a s = .next t) :
    t.oper = s.oper := by
  rcases hostStep_cases h with ⟨v, -, hx⟩ | ⟨_, _, -, -, -, -, -, rfl⟩ | ⟨_, _, -, -, -, -, hidle, -⟩ | ⟨_, rfl⟩ |
    ⟨_, _, -, -, rfl⟩ | ⟨_, _, -, -, rfl⟩
  case inl =>
    cases (exec_decodeCommand_busy v hb).symm.trans hx
    rfl
  case inr.inr.inl => simp [hb] at hidle
  all_goals rfl

/-- While BUSY = 1 a step that is no reset leaves the operand registers, or advances IN_PTR by one recorded read (R78). -/
theorem step_oper_busy {s t : State} (hb : s.status.busy = true) (h : step s = .next t)
    (hr : ∀ rest, s.agenda ≠ .reset :: rest) :
    t.oper = s.oper ∨ t.oper = { s.oper with inPtr := s.oper.inPtr + 1#32 } ∧
      t.history = .inRead s.oper.inPtr.toNat (s.inSpace.read s.oper.inPtr.toNat) :: s.history := by
  rcases step_cases h with ⟨s', hm, hx⟩ | ⟨a, rest, -, -, hx⟩ | ⟨rest, -, hidle, -⟩ | ⟨rest, -, ha, -⟩
  · rw [hm.eq] at hx
    exact (blockStep_move hx).oper
  · exact .inl (hostStep_oper_busy (s := { s with agenda := rest }) hb hx)
  · simp [hb] at hidle
  · exact absurd ha (hr rest)

end Sys2Proof.Machine

namespace Sys2Proof

open Machine

/-- Settles O8: BUSY or a reserved code rejects the write; any other code is that of the command it starts. -/
theorem cmdWritesAreAcceptedOrRejected : Obligations.CmdWritesAreAcceptedOrRejected := by
  intro s w
  refine ⟨?rejected, fun hb c hc => ?accepted⟩
  case rejected =>
    rintro (hb | hres)
    · exact exec_decodeCommand_busy w hb
    · rw [decodeCommand, cmdCode_toNat]
      exact exec_commandOf_reserved hres _ s
  case accepted =>
    have hx : exec (decodeCommand w) s = .next (acceptCommand c s) := by
      rw [decodeCommand, cmdCode_toNat, hc, exec_commandOf_idle c _ hb]
    exact ⟨_, hx, rfl, rfl, rfl, rfl, rfl, rfl, rfl, hc.symm, rfl⟩

/-- Settles O58: of the agents that move while BUSY = 1, only the block changes an operand register, by a read. -/
theorem operandsAreFixedWhileBusy : Obligations.OperandsAreFixedWhileBusy := by
  intro s t hb h hr
  rcases step_oper_busy hb h hr with ho | ⟨ho, hh⟩ <;> rw [ho]
  · exact ⟨rfl, rfl, rfl, rfl, .inl rfl⟩
  · exact ⟨rfl, rfl, rfl, rfl, .inr ⟨rfl, hh⟩⟩

/-- Settles O18: the write to CMD is rejected, and any other is dropped. -/
theorem hostWritesAreIgnoredWhileBusy : Obligations.HostWritesAreIgnoredWhileBusy := by
  intro s off v rest hbound hb h4 hlt ha
  by_cases h0 : off = 0
  · subst h0
    rw [step_cmdWrite hbound ha]
    exact exec_decodeCommand_busy v hb
  · rw [step_host hbound ha, hostStep, wholeAccess_eq h4 hlt, regWrite, if_neg h0, if_neg h0]
    exact if_pos hb

end Sys2Proof
end

section
/-! PROOFS. Commands that end at once or at the input's first byte, from their acceptance to their end (O10, O11, O12,
O14, O15). -/

namespace Sys2Proof.Machine

/-- `finish_ok` with no turn pending (R71). -/
theorem step_finish {s : State} (ha : s.agenda = []) (hq : s.seq = .finish) : step s = .next (finishOk s) :=
  (step_noTurns ha).trans (blockStep_finish hq)

/-- A `raise` with no turn pending (R116). -/
theorem step_raising {s : State} {e : BlockError} (ha : s.agenda = []) (hq : s.seq = .raising e) :
    step s = .next (raiseError e s) :=
  (step_noTurns ha).trans (blockStep_raising hq)

/-- A block read records the byte it read (R48, R79). -/
theorem afterRead_eq {s : State} {b : Byte} (h : s.inSpace.read s.oper.inPtr.toNat = b) :
    afterRead s =
      { s with
        oper := { s.oper with inPtr := s.oper.inPtr + 1#32 }
        history := .inRead s.oper.inPtr.toNat b :: s.history } := by
  rw [afterRead, h]

/-- SB_NEXT_CHUNK's first micro-step at the terminator (R74, R80). -/
theorem step_chunk_terminator {s : State} (ha : s.agenda = []) (hq : s.seq = .start .sbNextChunk)
    (ht : s.reader.sbTerm = false) (he : s.oper.inPtr.toNat < s.oper.inEnd.toNat)
    (hs : s.oper.inPtr.toNat < s.inSpace.size) (hb : s.inSpace.read s.oper.inPtr.toNat = 0#8) :
    step s = .next { afterRead s with reader := s.reader.terminal, seq := .finish } := by
  rw [step_noTurns ha, blockStep_start_chunk_byte hq ht ((inAtEnd_false_iff s).2 he) hs, hb]
  exact exec_sbTerminator (k := .command) (s := afterRead { s with seq := .nextChunk .command }) rfl

/-- SB_NEXT_CHUNK's first micro-step at a length byte (R74, R80). -/
theorem step_chunk_length {s : State} (ha : s.agenda = []) (hq : s.seq = .start .sbNextChunk)
    (ht : s.reader.sbTerm = false) (he : s.oper.inPtr.toNat < s.oper.inEnd.toNat)
    (hs : s.oper.inPtr.toNat < s.inSpace.size) (hb : s.inSpace.read s.oper.inPtr.toNat ≠ 0#8) :
    step s = .next
      { afterRead s with
        reader := s.reader.announced (s.inSpace.read s.oper.inPtr.toNat), seq := .payload .command } := by
  rw [step_noTurns ha, blockStep_start_chunk_byte hq ht ((inAtEnd_false_iff s).2 he) hs, decodeLength_of_ne hb]
  exact exec_sbLen rfl _

/-- DECODE_IMAGE's first micro-step at an illegal minimum code size (R75, R88). -/
theorem step_decode_illegal {s : State} (ha : s.agenda = []) (hq : s.seq = .start .decodeImage)
    (he : s.oper.inPtr.toNat < s.oper.inEnd.toNat) (hs : s.oper.inPtr.toNat < s.inSpace.size) {m : Byte}
    (hb : s.inSpace.read s.oper.inPtr.toNat = m) (hm : m.toNat < 1 ∨ 8 < m.toNat) :
    step s = .next
      { afterRead (beginDecode s) with lzw := { s.lzw with mcs := m }, seq := .raising (.badMcs m) } := by
  rw [step_noTurns ha, blockStep_start_decode_byte hq ((inAtEnd_false_iff s).2 he) hs, hb]
  exact exec_mcs_illegal _ hm

end Sys2Proof.Machine

namespace Sys2Proof

open Machine

/-- Settles O10: the acceptance clears the error, and the one micro-step is `finish_ok`. -/
theorem nopEndsAndClearsTheError : Obligations.NopEndsAndClearsTheError := by
  intro s g hb ha
  exact ⟨_, exec_commandOf_idle .nop g hb,
    (step_noTurns (s := acceptCommand .nop s) ha).trans (blockStep_start_nop rfl)⟩

/-- Settles O11: the one micro-step resets the reader and ends the command. -/
theorem sbOpenResetsTheReader : Obligations.SbOpenResetsTheReader := by
  intro s g hb ha
  exact ⟨_, exec_commandOf_idle .sbOpen g hb,
    (step_noTurns (s := acceptCommand .sbOpen s) ha).trans (blockStep_start_sbOpen rfl)⟩

/-- Settles O12: the first micro-step meets the terminal state, or the end of the input, before any read. -/
theorem sbNextChunkEndsAtOnceWithoutAByte : Obligations.SbNextChunkEndsAtOnceWithoutAByte := by
  intro s g hb ha
  have hstep := step_noTurns (s := acceptCommand .sbNextChunk s) ha
  refine ⟨fun ht => ?terminal, fun ht he => ?atEnd⟩
  case terminal =>
    exact ⟨_, exec_commandOf_idle .sbNextChunk g hb, hstep.trans (blockStep_start_chunk_term rfl ht)⟩
  case atEnd =>
    exact ⟨_, exec_commandOf_idle .sbNextChunk g hb,
      hstep.trans (blockStep_start_chunk_end rfl ht ((inAtEnd_iff _).2 he))⟩

/-- Settles O14: one step reads the terminator, the next one ends the command. -/
theorem sbNextChunkReadsTheTerminator : Obligations.SbNextChunkReadsTheTerminator := by
  intro s g hb ha ht he hs hbyte
  have hread := step_chunk_terminator (s := acceptCommand .sbNextChunk s) ha rfl ht he hs hbyte
  refine ⟨_, _, exec_commandOf_idle .sbNextChunk g hb, .head hread (.single (step_finish ha rfl)), ?_⟩
  rw [afterRead_eq (s := acceptCommand .sbNextChunk s) hbyte]
  rfl

/-- Settles O15: the first micro-step raises at the end of the input; an illegal byte is read first and raises in the
next. -/
theorem decodeImageRejectsABadStart : Obligations.DecodeImageRejectsABadStart := by
  intro s g hb ha
  refine ⟨fun he => ?atEnd, fun m he hs hbyte hm => ?illegal⟩
  case atEnd =>
    exact ⟨_, exec_commandOf_idle .decodeImage g hb,
      (step_noTurns (s := acceptCommand .decodeImage s) ha).trans
        (blockStep_start_decode_end rfl ((inAtEnd_iff _).2 he))⟩
  case illegal =>
    have hread := step_decode_illegal (s := acceptCommand .decodeImage s) ha rfl he hs hbyte hm
    refine ⟨_, _, exec_commandOf_idle .decodeImage g hb, .head hread (.single (step_raising ha rfl)), ?_⟩
    rw [afterRead_eq (s := beginDecode (acceptCommand .decodeImage s)) hbyte]
    rfl

end Sys2Proof
end

section
/-! PROOFS. SB_NEXT_CHUNK reads a sub-block and copies it to OUT (O13). -/

namespace Sys2Proof.Machine

/-- The payload loop from its start, wherever the run began: it reads the `n` bytes that the length byte announces or the
input still has, and returns the chunk, short when the input ended first (R80, R81). -/
theorem payload_chunk {r s : State} {k : ChunkCaller} {p n : Nat} (hr : Reaches r s) (ha : s.agenda = [])
    (hq : s.seq = .payload k) (h0 : s.reader.chunkLen = 0#8) (hp : s.oper.inPtr.toNat = p)
    (hle : p ≤ s.oper.inEnd.toNat) (hs : s.oper.inEnd.toNat ≤ s.inSpace.size)
    (hn : n = min s.reader.chunkDecl.toNat (s.oper.inEnd.toNat - p)) :
    ∃ buf : Vector Byte 255,
      Reaches r (returnChunk k
        { s with
          reader :=
            { s.reader with
              sbShort := if n < s.reader.chunkDecl.toNat then true else s.reader.sbShort
              chunkLen := BitVec.ofNat 8 n
              chunkBuf := buf }
          oper := { s.oper with inPtr := s.oper.inPtr + BitVec.ofNat 32 n }
          history := ((List.range n).map fun i =>
            Access.inRead (p + i) (s.inSpace.read (p + i))).reverse ++ s.history }) ∧
      ∀ i (h : i < 255), i < n → buf[i] = s.inSpace.read (p + i) := by
  subst hp
  have hlen : s.reader.chunkLen.toNat = 0 := by rw [h0]; rfl
  obtain ⟨t, hreach, ht, htlen, htptr, htadd, hthist, htbuf⟩ :=
    payload_loop n ha hq (by omega) (by omega) hs
  have hchunk : t.reader.chunkLen = BitVec.ofNat 8 n := by
    rw [← Nat.zero_add n, ← hlen, ← htlen, BitVec.ofNat_toNat, BitVec.setWidth_eq]
  refine ⟨t.reader.chunkBuf, hr.trans (hreach.trans (.single ?_)), fun i h hi => ?buf⟩
  case buf => rw [htbuf i h, hlen, if_pos (by omega), Nat.sub_zero]
  have hat : t.agenda = [] := by rw [ht]; exact ha
  have hqt : t.seq = .payload k := by rw [ht]; exact hq
  have hdecl : t.reader.chunkDecl = s.reader.chunkDecl := by rw [ht]
  have hend : t.oper.inEnd = s.oper.inEnd := by rw [ht]
  rw [hchunk, htadd, hthist] at ht
  rw [step_noTurns hat]
  by_cases hshort : n < s.reader.chunkDecl.toNat
  · rw [blockStep_payload_short hqt (by rw [hdecl]; omega) ((inAtEnd_iff t).2 (by rw [hend]; omega)),
      if_pos hshort, ht]
  · rw [blockStep_payload_whole hqt (by rw [hdecl]; omega), if_neg hshort, ht]

/-- The copy loop from its start, wherever the run began: the chunk goes to OUT from offset 0 on, and the command
ends (R74). -/
theorem copy_chunk {r s : State} {n : Nat} (hr : Reaches r s) (f : Nat → Byte) (hm : Memory.wf s)
    (ha : s.agenda = []) (hq : s.seq = .copyOut 0) (hlen : s.reader.chunkLen.toNat = n) (hpos : s.reader.chunkPos = 0#8)
    (hs : n ≤ s.outSpace.size) (hf : ∀ i (h : i < 255), i < n → s.reader.chunkBuf[i] = f i) :
    ∃ out : Space,
      Reaches r (finishOk
        { s with
          reader := { s.reader with chunkPos := s.reader.chunkLen }
          outSpace := out
          history := ((List.range n).map fun i => Access.outWrite i (f i)).reverse ++ s.history }) ∧
      out.size = s.outSpace.size ∧ (∀ i, i < n → out.read i = f i) ∧ ∀ a, n ≤ a → out.read a = s.outSpace.read a := by
  have hlt := s.reader.chunkLen.isLt
  obtain ⟨t, hreach, htseq, ht, htpos, -, htsize, hthist, htrest, htcopy⟩ :=
    copy_loop n hm ha hq (by omega) (by omega)
  specialize hthist f fun i h _ hi => (hf i h (by omega)).symm
  simp only [Nat.zero_add] at htseq hthist htrest htcopy
  have hposlen : t.reader.chunkPos = s.reader.chunkLen := by
    apply BitVec.eq_of_toNat_eq
    rw [htpos, hpos, hlen]
    split
    · next h0 => exact h0.symm
    · exact Nat.zero_add n
  have hat : t.agenda = [] := by rw [ht]; exact ha
  have hdone : t.reader.chunkLen.toNat ≤ n := by rw [ht]; exact hlen.le
  have hcopied := (step_noTurns hat).trans (blockStep_copy_done htseq hdone)
  rw [hposlen, hthist] at ht
  refine ⟨t.outSpace, hr.trans (hreach.trans (.head hcopied (.single ?finish))), htsize, fun i hi => ?byte,
    fun a h => htrest a (.inr h)⟩
  case finish =>
    refine (step_finish (s := { t with seq := .finish }) hat rfl).trans ?_
    rw [ht]
    rfl
  case byte => rw [htcopy i (by omega) (Nat.zero_le i) hi, hf i (by omega) hi]

end Sys2Proof.Machine

namespace Sys2Proof

open Machine

/-- Settles O13: the length byte, the payload loop and the copy loop, one after the other. -/
theorem sbNextChunkCopiesTheChunk : Obligations.SbNextChunkCopiesTheChunk := by
  intro s g L k hb ha hm ht he hs hL hpos hk hout
  have hlen := (s.inSpace.read s.oper.inPtr.toNat).isLt
  have hptr := inPtr_succ he
  have hne : s.inSpace.read s.oper.inPtr.toNat ≠ 0#8 := by
    intro h
    rw [h] at hL
    exact absurd hL hpos.ne'
  have hread := step_chunk_length (s := acceptCommand .sbNextChunk s) ha rfl ht he (Nat.lt_of_lt_of_le he hs) hne
  have hcount : (BitVec.ofNat 8 k).toNat = k := by
    rw [BitVec.toNat_ofNat, Nat.mod_eq_of_lt (by omega)]
  obtain ⟨buf, hpayload, hbuf⟩ := payload_chunk (n := k) (.single hread) ha rfl rfl hptr he hs (by rw [hk, hL]; rfl)
  obtain ⟨out, hcopy, hsize, hcopied, hrest⟩ := copy_chunk hpayload
    (fun i => s.inSpace.read (s.oper.inPtr.toNat + 1 + i)) hm ha rfl hcount rfl hout hbuf
  refine ⟨_, _, exec_commandOf_idle .sbNextChunk g hb, hcopy, rfl, rfl, hcopied, hrest, rfl, ht, ?short, hcount, hL.symm,
    hcount, ?history, rfl, rfl, rfl, rfl, rfl, hsize, ha, rfl⟩
  case short =>
    show (if k < (s.inSpace.read s.oper.inPtr.toNat).toNat then true else false) = true ↔ k < L
    rw [← hL]
    simp
  case history => rw [List.append_assoc]; rfl

end Sys2Proof
end

section
/-! PROOFS. The sub-block reader and the code fetch: the payload loop and `next_chunk` without a byte (O28, O29), the frame of
the stream bytes (O30) and the fetch of a code (O31). -/

namespace Sys2Proof.Machine

/-- A payload byte goes to CHUNK_BUF[CHUNK_LEN], and no other entry changes (R80). -/
theorem storePayload_chunkBuf (b : Byte) (s : State) (i : Nat) (h : i < 255) :
    (storePayload b s).reader.chunkBuf[i] =
      if i = s.reader.chunkLen.toNat then b else s.reader.chunkBuf[i] := by
  simp only [storePayload, Vector.getElem_setIfInBounds, eq_comm (a := i)]

/-- Below CHUNK_DECL a payload byte advances CHUNK_LEN without a wrap (R22, R80). -/
theorem storePayload_chunkLen (b : Byte) {s : State} (h : s.reader.chunkLen.toNat < s.reader.chunkDecl.toNat) :
    (storePayload b s).reader.chunkLen.toNat = s.reader.chunkLen.toNat + 1 := by
  have hdecl := s.reader.chunkDecl.isLt
  exact BitVec.toNat_add_of_lt (by simp; omega)

/-- MCS writes LZW registers other than SUFFIX, and PIX_REMAIN (R88, R89). -/
theorem exec_mcs_frame {m : Byte} {s t : State} (h : exec (.mcs m) s = .next t) :
    ∃ r p q, t = { s with lzw := r, rows := { s.rows with pixRemain := p }, seq := q } ∧
      r.suffixTab = s.lzw.suffixTab := by
  by_cases hm : 1 ≤ m.toNat ∧ m.toNat ≤ 8
  case pos =>
    cases (exec_mcs_legal s hm.1 hm.2).symm.trans h
    exact ⟨_, _, _, rfl, rfl⟩
  case neg =>
    cases (exec_mcs_illegal s (by omega)).symm.trans h
    exact ⟨_, s.rows.pixRemain, _, rfl, rfl⟩

/-- SB_LEN and SB_TERMINATOR write the sub-block reader other than CHUNK_BUF, and PHASE (R80, R111). -/
theorem exec_subBlockByte_frame {len : Byte} {s t : State}
    (h : exec (.sbLen len) s = .next t ∨ exec .sbTerminator s = .next t) :
    ∃ r p q, t = { s with reader := r, status := { s.status with phase := p }, seq := q } ∧
      r.chunkBuf = s.reader.chunkBuf := by
  rcases h with h | h <;> cases h
  case inl => exact ⟨_, s.status.phase, _, rfl, rfl⟩
  case inr =>
    rw [returnNone_eq]
    split
    · exact ⟨_, .done, _, rfl, rfl⟩
    · exact ⟨_, s.status.phase, _, rfl, rfl⟩

/-- The width growth of a fetch (R90): MAX_CODE1 doubles and RUNNING_BITS goes up by 1 when RUNNING_CODE passes MAX_CODE1
below 12 bits; else both stay. -/
theorem advanceRunning_width {r : LzwRegs} (hmax : r.maxCode1.toNat = 2 ^ r.runningBits.toNat)
    (hrc : r.runningCode.toNat < 8191) :
    if r.maxCode1.toNat < r.runningCode.toNat + 1 ∧ r.runningBits.toNat < 12 then
      (advanceRunning r).maxCode1.toNat = 2 * r.maxCode1.toNat ∧
        (advanceRunning r).runningBits.toNat = r.runningBits.toNat + 1
    else (advanceRunning r).maxCode1 = r.maxCode1 ∧ (advanceRunning r).runningBits = r.runningBits := by
  split
  next hg => exact advanceRunning_grow r hrc hg.1 hg.2 (hmax ▸ Nat.pow_lt_pow_right one_lt_two hg.2)
  next hg => exact advanceRunning_same r hrc hg

end Sys2Proof.Machine

namespace Sys2Proof

open Machine

/-- Settles O28: the three ways through the payload loop; a return sets only the sequencer, to where its caller goes on. -/
theorem payloadLoopReadsOrReturnsShort : Obligations.PayloadLoopReadsOrReturnsShort := by
  intro s s' k hm hq
  rw [hm.step]
  refine ⟨fun hl he hs => ?read, fun hl he => ?short, fun hl => ?whole⟩
  case read =>
    exact ⟨_, blockStep_payload_read hq hl ((inAtEnd_false_iff s').2 he) hs,
      storePayload_chunkLen _ (s := afterRead s') hl, storePayload_chunkBuf _ (afterRead s'), rfl⟩
  case short =>
    rw [blockStep_payload_short hq hl ((inAtEnd_iff s').2 he)]
    cases k <;> rfl
  case whole =>
    rw [blockStep_payload_whole hq hl]
    cases k <;> rfl

/-- Settles O29: a terminal reader returns None, the end of the input EndOfInput, each to its caller. -/
theorem nextChunkWithoutAByte : Obligations.NextChunkWithoutAByte := by
  intro s s' k hm hq
  rw [hm.step]
  refine ⟨fun ht => ?terminal, fun ht he => ?atEnd⟩
  case terminal => rw [blockStep_nextChunk_term hq ht, returnNone_eq]
  case atEnd =>
    rw [blockStep_nextChunk_end hq ht ((inAtEnd_iff s').2 he)]
    cases k <;> rfl

/-- Settles O30: each clause is read off the fields that the stream byte writes. -/
theorem streamBytesKeepTheRest : Obligations.StreamBytesKeepTheRest := by
  intro s t b
  refine ⟨fun h => ?mcs, fun h => ?subBlock, fun h => ?outside⟩
  case mcs =>
    obtain ⟨_, _, _, rfl, hsuffix⟩ := exec_mcs_frame h
    exact ⟨rfl, rfl, rfl, rfl, rfl, hsuffix⟩
  case subBlock =>
    obtain ⟨_, _, _, rfl, hbuf⟩ := exec_subBlockByte_frame h
    exact ⟨rfl, rfl, rfl, hbuf⟩
  case outside =>
    rcases h with h | h
    · obtain ⟨_, _, _, rfl, -⟩ := exec_mcs_frame h
      simp
    · obtain ⟨_, _, _, rfl, -⟩ := exec_subBlockByte_frame h
      simp

/-- Settles O31: the accumulator's part is the extraction of R83, the decoder's part the advance of R90. -/
theorem fetchTakesTheCodeAndGrowsTheWidth : Obligations.FetchTakesTheCodeAndGrowsTheWidth := by
  intro s s' hm hq _ h12 hmax hrc hheld
  obtain ⟨hacc, hstate⟩ := dropCode_values s'.extr _ hheld
  have hlt : s'.lzw.runningCode.toNat < 8191 := by omega
  refine ⟨_, _, hm.step.trans (blockStep_fetch_code hq hheld), rfl, codeBits_toNat _ h12, toNat_code13 _, hacc, hstate,
    advanceRunning_code _ hlt, advanceRunning_width hmax hlt, ?rest⟩
  case rest => rw [advanceRunning_rest s'.lzw]

end Sys2Proof
end

section
/-! PROOFS. The minimum code size and the code classes that push no string, each run by `exec` (O24, O34, O35, O36), and the
frame of all six classes (O39). -/

namespace Sys2Proof.Machine

/-- A `raise` under DECODE_IMAGE ends it FAILED (R116). -/
theorem raiseError_decode (e : BlockError) {s : State} (h : s.status.lastCmd = 1#4) :
    raiseError e s =
      { s with
        status := { s.status with
          err := e.err, errSub := e.sub, errValue := e.value, phase := .failed, busy := false, error := true }
        seq := .idle } := by
  rw [raiseError, if_pos h]

/-- A LITERAL's pixel is its code (R94). -/
theorem setWidth8_code13 (c : Code) : (c.setWidth 13 : CodeField).setWidth 8 = c.setWidth 8 :=
  BitVec.setWidth_setWidth_of_le c (by decide)

/-- A code below CLEAR_CODE is defined as PREV_CODE followed by itself: its suffix walk ends at once (R94, R100). -/
theorem define_literal {s : State} {code : CodeField} (hlit : code.toNat < s.lzw.clearCode.toNat)
    (h : s.lzw.prevCode ≠ Config.noSuchCode) (h2 : 2 ≤ s.lzw.runningCode.toNat) (h4 : s.lzw.runningCode.toNat ≤ 4097) :
    defineAndUpdate code false s =
      { s with
        lzw :=
          { s.lzw with
            prefixTab := s.lzw.prefixTab.setIfInBounds (s.lzw.runningCode.toNat - 2) s.lzw.prevCode
            suffixTab := s.lzw.suffixTab.setIfInBounds (s.lzw.runningCode.toNat - 2) (code.setWidth 8)
            prevCode := code }
        seq := .rowLoop } :=
  define_entry h h2 h4 (traceFrom_literal _ hlit)

/-- The entry a definition writes is RUNNING_CODE − 2 (R100). -/
theorem getElem_setIfInBounds_define {α : Type} (v : Vector α 4096) {rc : Nat} (h2 : 2 ≤ rc) (x : α) (i : Nat)
    (h : i < 4096) : (v.setIfInBounds (rc - 2) x)[i] = if i + 2 = rc then x else v[i] := by
  rw [Vector.getElem_setIfInBounds]
  exact if_congr (by omega) rfl rfl

/-- The state after a LITERAL's pixel, before its definition (R94, R109). -/
def literalDrawn (c : Code) (s : State) : State :=
  pixelDone
    { s with
      outSpace := s.outSpace.write (pixelOffset s) (c.setWidth 8)
      history := .outWrite (pixelOffset s) (c.setWidth 8) :: s.history }

/-- A LITERAL's pixel is the one byte of OUT it writes (R94, R109). -/
theorem literalDrawn_read (c : Code) {s : State} (hm : Memory.wf s) (a : Nat) :
    (literalDrawn c s).outSpace.read a = if a = pixelOffset s then c.setWidth 8 else s.outSpace.read a := by
  simp only [eq_comm (a := a)]
  exact Space.read_write hm.2 _ _ a

/-- A LITERAL whose write is admitted draws its pixel and makes its definition (R94). -/
theorem exec_literal_drawn {s : State} {c : Code} (h : pixelOffset s < s.outSpace.size) :
    exec (.lzwLiteral c) s = .next (defineAndUpdate (c.setWidth 13) false (literalDrawn c s)) := exec_literal h

/-- A LITERAL whose write is not admitted has no step (R38, R94). -/
theorem exec_literal_fault {s : State} {c : Code} (h : s.outSpace.size ≤ pixelOffset s) :
    exec (.lzwLiteral c) s = .fault (.outNotAdmitted (pixelOffset s)) := by
  simp [exec, execLzwLiteral, emitPixel, outWrite, Nat.not_lt.2 h, andThen]

theorem exec_literal_next {s t : State} {c : Code} (h : exec (.lzwLiteral c) s = .next t) :
    t = defineAndUpdate (c.setWidth 13) false (literalDrawn c s) := by
  obtain ⟨u, hu, hk⟩ := andThen_next h
  obtain ⟨-, rfl⟩ := emitPixel_next hu
  cases hk
  rfl

/-- What follows an `expand` writes the stack and the sequencer (R95, R96). -/
theorem afterExpand_next {code : CodeField} {kw : Bool} {s t : State} {x : Expansion}
    (h : afterExpand code kw s x = .next t) : ∃ k q, t = { s with stk := k, seq := q } := by
  cases x with
  | pushed k => cases h; exact ⟨_, _, rfl⟩
  | failed k e => cases h; exact ⟨_, _, rfl⟩
  | overflow => cases h

/-- A KWKWK code writes the stack and the sequencer (R96). -/
theorem exec_kwkwk_next {s t : State} {c : Code} (h : exec (.lzwKwkwk c) s = .next t) :
    ∃ k q, t = { s with stk := k, seq := q } := by
  simp only [exec, execLzwKwkwk] at h
  split at h
  · cases h; exact ⟨s.stk, _, rfl⟩
  · split at h
    · cases h
    · exact afterExpand_next h

/-- Everything a code of the six classes can do (R92 to R97): an error, a table reset, a pixel and a definition, or a string
on the stack. -/
theorem exec_code_cases {s t : State} {c : Code} {i : Instr}
    (hi : i ∈ [Instr.lzwEnd c, .lzwClear c, .lzwLiteral c, .lzwKnown c, .lzwKwkwk c, .lzwInvalid c])
    (h : exec i s = .next t) :
    ((i = .lzwEnd c ∨ i = .lzwInvalid c) ∧ ∃ e, t = raiseError e s) ∨
    (i = .lzwClear c ∧
      t = { s with lzw := resetTable s.lzw, status := { s.status with phase := .cleared }, seq := .rowLoop }) ∨
    (i = .lzwLiteral c ∧ t = defineAndUpdate (c.setWidth 13) false (literalDrawn c s)) ∨
    ((i = .lzwKnown c ∨ i = .lzwKwkwk c) ∧ ∃ k q, t = { s with stk := k, seq := q }) := by
  simp only [List.mem_cons, List.not_mem_nil, or_false] at hi
  rcases hi with rfl | rfl | rfl | rfl | rfl | rfl
  · cases h; exact .inl ⟨.inl rfl, _, rfl⟩
  · cases h; exact .inr (.inl ⟨rfl, rfl⟩)
  · exact .inr (.inr (.inl ⟨rfl, exec_literal_next h⟩))
  · exact .inr (.inr (.inr ⟨.inl rfl, afterExpand_next h⟩))
  · exact .inr (.inr (.inr ⟨.inr rfl, exec_kwkwk_next h⟩))
  · cases h; exact .inl ⟨.inr rfl, _, rfl⟩

end Sys2Proof.Machine

namespace Sys2Proof

open Machine

/-- Settles O24: `acceptMcs` gives the values, and a pixel count fits PIX_REMAIN. -/
theorem legalMcsInitialisesTheDecoder : Obligations.LegalMcsInitialisesTheDecoder := by
  intro s m h1 h8
  obtain ⟨hdepth, hclear, hend, hcode, hbits, hmax⟩ := acceptMcs_values m s.lzw h1 h8
  refine ⟨_, exec_mcs_legal s h1 h8, rfl, hdepth, hclear, hend, hcode, hbits, hmax, rfl, fun c h => ?entry, rfl, ?pixels,
    rfl⟩
  case entry => exact resetTable_entry _ c h
  case pixels => exact (BitVec.toNat_ofNat _ _).trans (Nat.mod_eq_of_lt (pixels_lt s.oper))

/-- Settles O34: both are a `raise` under DECODE_IMAGE. -/
theorem endAndInvalidCodesRaise : Obligations.EndAndInvalidCodesRaise := fun _ _ h =>
  ⟨congrArg Host.Outcome.next (raiseError_decode (.prematureEnd _) h),
    congrArg Host.Outcome.next (raiseError_decode (.invalidCode _) h)⟩

/-- Settles O35: CLEAR is `reset_table` and its PHASE. -/
theorem clearResetsTheTable : Obligations.ClearResetsTheTable := by
  intro s c hd he
  obtain ⟨hcode, hbits, hmax⟩ := resetTable_values s.lzw hd he
  exact ⟨_, rfl, resetTable_entry s.lzw, rfl, hcode, hbits, hmax, rfl⟩

/-- Settles O36: the pixel is drawn first, which leaves the LZW registers; then come the three ways of a definition. -/
theorem literalWritesAPixelAndDefines : Obligations.LiteralWritesAPixelAndDefines := by
  intro s c hm hlit _
  refine ⟨fun hs => ⟨_, exec_literal_drawn hs, fun a => ?byte, ?history, ?rows, fun hp => ?first, fun hp hr => ?full,
    fun hp h2 h4 => ?entry, ?frame, ?size⟩, exec_literal_fault⟩
  case byte => rw [defineAndUpdate_outSpace]; exact literalDrawn_read c hm a
  case history => rw [defineAndUpdate_history]; rfl
  case rows => rw [defineAndUpdate_rows]; rfl
  case first => rw [define_none (s := literalDrawn c s) _ _ hp]; exact ⟨rfl, rfl⟩
  case full => rw [define_range (s := literalDrawn c s) _ _ hp hr]; exact ⟨rfl, rfl⟩
  case entry =>
    have hlit' : (c.setWidth 13 : CodeField).toNat < s.lzw.clearCode.toNat := by rw [toNat_code13]; exact hlit
    rw [define_literal (s := literalDrawn c s) hlit' hp h2 h4, setWidth8_code13]
    exact ⟨rfl, getElem_setIfInBounds_define _ h2 _, getElem_setIfInBounds_define _ h2 _, rfl⟩
  case frame => rw [define_frame]; rfl
  case size => rw [defineAndUpdate_outSpace]; rfl

/-- Settles O39: an error, a table reset and a pushed string write no byte; a LITERAL writes its pixel. -/
theorem codeClassesKeepTheRest : Obligations.CodeClassesKeepTheRest := by
  intro s t c i hm hi h
  rcases exec_code_cases hi h with ⟨hc, e, rfl⟩ | ⟨rfl, rfl⟩ | ⟨rfl, rfl⟩ | ⟨hc, k, q, rfl⟩
  case inl => rcases hc with rfl | rfl <;> simp
  case inr.inl => simp
  case inr.inr.inl =>
    have hread : ∀ a, a ≠ pixelOffset s → (literalDrawn c s).outSpace.read a = s.outSpace.read a := fun a ha => by
      rw [literalDrawn_read c hm, if_neg ha]
    rw [define_frame]
    simpa [literalDrawn] using hread
  case inr.inr.inr => rcases hc with rfl | rfl <;> simp

end Sys2Proof
end

section
/-! PROOFS. Chain walks (O41, O42) and the strings that KNOWN and KWKWK codes push (O37, O38). -/

namespace Sys2Proof.Machine

/-! ### How a walk ends (R98, R99) -/

/-- The first `k` values of the chain from `c` are entries: above CLEAR_CODE and in the table (R98). -/
def EntriesUpTo (r : LzwRegs) (c : CodeField) (k : Nat) : Prop :=
  ∀ j, j < k → r.clearCode.toNat < (chainAt r j c).toNat ∧ (chainAt r j c).toNat ≤ 4095

/-- `trace_root` goes along the entries of its chain (R98). -/
theorem EntriesUpTo.traceRoot {r : LzwRegs} {c : CodeField} {k : Nat} (h : EntriesUpTo r c k) (hk : k ≤ 4096) :
    Machine.traceRoot r c = traceFrom r.clearCode r.prefixTab (4096 - k) (chainAt r k c) := traceFrom_chain r hk h

/-- `expand` ends with the walk's error (R99). -/
theorem expandTail_failed {clear c : CodeField} {e : BlockError} (h : walkTail clear c = .error e) (k : StackRegs) :
    expandTail clear c k = .failed k e := by
  rw [expandTail, h]

/-- `expand` with room on the stack for every byte it may push fails where the walk does, with the same error (R99). -/
theorem expandFrom_failed {clear c : CodeField} {ptab : Vector CodeField 4096} (stab : Vector Byte 4096) {n : Nat}
    {k : StackRegs} {e : BlockError} (hk : k.stackPtr.toNat + n ≤ 4098)
    (h : traceFrom clear ptab n c = .error e) : ∃ k', expandFrom clear ptab stab n c k = .failed k' e := by
  induction n generalizing c k with
  | zero =>
    simp only [traceFrom, expandFrom] at h ⊢
    split
    next hle => exact ⟨k, expandTail_failed (by rwa [if_pos hle] at h) k⟩
    next hgt =>
      rw [if_neg hgt] at h
      split at h <;> cases h
      next hr => exact ⟨k, if_pos hr⟩
      next hr => exact ⟨k, if_neg hr⟩
  | succ n ih =>
    by_cases hle : c.toNat ≤ clear.toNat
    · simp only [traceFrom, expandFrom, if_pos hle] at h ⊢
      exact ⟨k, expandTail_failed h k⟩
    by_cases hb : c.toNat < 4096
    · rw [traceFrom_entry n (Nat.not_le.1 hle) hb] at h
      obtain ⟨k1, hpush, hptr, -⟩ := StackRegs.push_eq (k := k) stab[c.toNat] (by omega)
      obtain ⟨k', hx⟩ := ih (k := k1) (by omega) h
      exact ⟨k', by simp only [expandFrom, if_neg hle, dif_pos hb, hpush, hx]⟩
    · rw [traceFrom_range _ (Nat.not_le.1 hle) (by omega)] at h
      cases h
      exact ⟨k, by simp only [expandFrom, if_neg hle, dif_neg hb]⟩

/-! ### Chains that come to a literal (R102) -/

/-- The chain from `c` comes to a literal in `n` replacements, all of entries (R98, R102). -/
structure EndsAt (r : LzwRegs) (c : CodeField) (n : Nat) : Prop where
  entries : EntriesUpTo r c n
  literal : (chainAt r n c).toNat < r.clearCode.toNat

theorem EndsAt.of_literal {r : LzwRegs} {c : CodeField} (h : c.toNat < r.clearCode.toNat) : EndsAt r c 0 :=
  ⟨fun _ hj => absurd hj (Nat.not_lt_zero _), h⟩

/-- The chain from an entry is the chain from its PREFIX value, one replacement on. -/
theorem EndsAt.of_entry {r : LzwRegs} {c : CodeField} {n : Nat} (hc : r.clearCode.toNat < c.toNat)
    (hb : c.toNat < 4096) (h : EndsAt r r.prefixTab[c.toNat] n) : EndsAt r c (n + 1) := by
  refine ⟨fun j hj => ?entries, ?literal⟩
  case literal => rw [chainAt_entry r n hb]; exact h.literal
  case entries =>
    cases j with
    | zero => exact ⟨hc, Nat.le_of_lt_succ hb⟩
    | succ j => rw [chainAt_entry r j hb]; exact h.entries j (Nat.lt_of_succ_lt_succ hj)

/-- A walk answers the literal its chain comes to within the bound (R98). -/
theorem EndsAt.traceRoot {r : LzwRegs} {c : CodeField} {n : Nat} (h : EndsAt r c n) (hn : n ≤ 4096) :
    Machine.traceRoot r c = .ok (chainAt r n c) :=
  (h.entries.traceRoot hn).trans (traceFrom_literal _ h.literal)

/-- The chain from `c` falls at each value above CLEAR_CODE as long as it has not come below it, stays in the table there
and does not meet CLEAR_CODE (R102). -/
def FallingChain (r : LzwRegs) (c : CodeField) : Prop :=
  ∀ n, (∀ j, j ≤ n → r.clearCode.toNat < (chainAt r j c).toNat) →
    (chainAt r n c).toNat ≤ 4095 ∧ (chainAt r (n + 1) c).toNat < (chainAt r n c).toNat ∧
      chainAt r (n + 1) c ≠ r.clearCode

/-- Past an entry a falling chain falls on, from a lower value that is not CLEAR_CODE. -/
theorem FallingChain.next {r : LzwRegs} {c : CodeField} (h : FallingChain r c) (hc : r.clearCode.toNat < c.toNat) :
    ∃ hb : c.toNat < 4096, r.prefixTab[c.toNat].toNat < c.toNat ∧ r.prefixTab[c.toNat] ≠ r.clearCode ∧
      FallingChain r r.prefixTab[c.toNat] := by
  obtain ⟨hle, hlt, hne⟩ := h 0 fun j hj => by rwa [Nat.le_zero.1 hj]
  have hb : c.toNat < 4096 := Nat.lt_succ_of_le hle
  rw [chainAt_entry r 0 hb] at hlt hne
  refine ⟨hb, hlt, hne, fun n hn => ?_⟩
  rw [← chainAt_entry r n hb, ← chainAt_entry r (n + 1) hb]
  refine h (n + 1) fun j hj => ?_
  cases j with
  | zero => exact hc
  | succ j => rw [chainAt_entry r j hb]; exact hn j (Nat.le_of_succ_le_succ hj)

/-- A falling chain comes to a literal before its values run out. -/
theorem FallingChain.endsAt {r : LzwRegs} {c : CodeField} (h : FallingChain r c) (hc : c ≠ r.clearCode) :
    ∃ n, n ≤ 4095 ∧ n ≤ c.toNat ∧ EndsAt r c n := by
  generalize hv : c.toNat = v
  induction v using Nat.strongRecOn generalizing c with
  | ind v ih =>
    subst hv
    by_cases hlit : c.toNat < r.clearCode.toNat
    · exact ⟨0, Nat.zero_le _, Nat.zero_le _, .of_literal hlit⟩
    · have hne : c.toNat ≠ r.clearCode.toNat := fun e => hc (BitVec.eq_of_toNat_eq e)
      have habove : r.clearCode.toNat < c.toNat := by omega
      obtain ⟨hb, hlt, hne, hnext⟩ := h.next habove
      obtain ⟨n, -, hn, hend⟩ := ih _ hlt hnext hne rfl
      exact ⟨n + 1, by omega, by omega, .of_entry habove hb hend⟩

/-- In a reachable decode the chain of a literal or of a defined code comes to a literal, in at most as many replacements as
the code is above END_CODE (R36(e), R102). -/
theorem LzwInv.endsAt {s : State} (h : LzwInv s) {c : CodeField} (hc : hasString s.lzw s.codeDebt c.toNat) :
    ∃ n, n ≤ c.toNat - s.lzw.endCode.toNat ∧ n ≤ 4096 ∧ EndsAt s.lzw c n := by
  generalize hv : c.toNat = v at hc
  induction v using Nat.strongRecOn generalizing c with
  | ind v ih =>
    subst hv
    rcases hc with hlit | ⟨hgt, hle⟩
    · exact ⟨0, Nat.zero_le _, Nat.zero_le _, .of_literal hlit⟩
    · have hhigh := h.running_high
      have hend := h.end_eq
      have hb : c.toNat < 4096 := by omega
      obtain ⟨hlt, hprefix⟩ := h.prefix_lt c.toNat hb ((h.defined_iff c.toNat hb).2 ⟨hgt, hle⟩)
      obtain ⟨n, hn, -, hends⟩ := ih _ hlt rfl hprefix
      exact ⟨n + 1, by omega, by omega, .of_entry (by omega) hb hends⟩

/-! ### Strings on the stack (R95, R96, R101) -/

/-- `expand` over a string, onto the empty stack or over the one byte of KWKWK (R99). -/
theorem Spells.expand_onto {r : LzwRegs} {c : CodeField} {w v : List Byte} (h : Spells r c w) {k : StackRegs}
    (hw : w.length ≤ 4097) (hk : k.stackPtr.toNat = v.length) (hv : v.length ≤ 1)
    (hbytes : k.stack.toList.take k.stackPtr.toNat = v) :
    ∃ k', Machine.expand r c k = .pushed k' ∧ k'.stackPtr.toNat = w.length + v.length ∧
      (k'.stack.toList.take (w.length + v.length)).reverse = w ++ v.reverse := by
  obtain ⟨k', hx, hptr, htake⟩ := h.expand (k := k) hw (by omega)
  have hlen : k'.stackPtr.toNat = w.length + v.length := by omega
  refine ⟨k', hx, hlen, ?_⟩
  rw [← hlen, htake, hbytes, List.reverse_append, List.reverse_reverse]

end Sys2Proof.Machine

namespace Sys2Proof

open Machine

/-- Settles O42: the walk goes along its entries and ends at the first value that is none; `expand` does the same, with room
for its 4096 pushes. -/
theorem walkBoundAndRangeAreChecked : Obligations.WalkBoundAndRangeAreChecked := by
  intro r c
  refine ⟨fun h => ?bound, fun k hk h => ⟨fun hc hr => ?range, fun hc => ?clear, fun hc => ?literal⟩, fun k e hk he => ?_⟩
  case bound =>
    have hent : EntriesUpTo r c 4096 := fun j hj => h j (Nat.le_of_lt hj)
    obtain ⟨hc, hb⟩ := h 4096 (Nat.le_refl _)
    exact (hent.traceRoot (Nat.le_refl _)).trans (traceFrom_bound hc hb)
  case range => exact (EntriesUpTo.traceRoot h hk).trans (traceFrom_range _ hc hr)
  case clear => rw [EntriesUpTo.traceRoot h hk, hc, traceFrom_clear]
  case literal => exact (EndsAt.mk h hc).traceRoot hk
  exact expandFrom_failed r.suffixTab (show k.stackPtr.toNat + 4096 ≤ 4098 by omega) he

/-- Settles O41: what a walk answers is a literal, and a falling chain comes to one, as a defined code's does. -/
theorem acyclicChainsResolveToALiteral : Obligations.AcyclicChainsResolveToALiteral := by
  refine ⟨fun r c v h => traceFrom_ok h, fun r c hc h => ?falling, fun s c hinv hd hc => ?defined⟩
  case falling =>
    obtain ⟨n, hn, -, hend⟩ := FallingChain.endsAt h hc
    exact ⟨n, fun j hj => (hend.entries j hj).1, hend.literal, hend.traceRoot (by omega)⟩
  case defined =>
    obtain ⟨n, hn, hbound, hend⟩ := (hinv.lzw hd).endsAt hc
    exact ⟨n, hn, fun j hj => (hend.entries j hj).1, hend.literal, hend.traceRoot hbound⟩

/-- Settles O37: `expand` pushes the code's string onto the empty stack. -/
theorem knownCodePushesItsString : Obligations.KnownCodePushesItsString := by
  intro s c w hempty hw hlen
  have hptr : s.stk.stackPtr.toNat = 0 := by rw [hempty]; rfl
  obtain ⟨k, hx, hk, htake⟩ := hw.expand_onto (v := []) hlen hptr (Nat.zero_le _) (by rw [hptr]; rfl)
  exact ⟨_, exec_known hx, hk, htake.trans (List.append_nil w), rfl⟩

/-- Settles O38: the root of the previous code is its string's first byte, pushed first, and `expand` goes over it. -/
theorem kwkwkCodePushesThePreviousString : Obligations.KwkwkCodePushesThePreviousString := by
  intro s c b w hempty hw hlen
  have hptr : s.stk.stackPtr.toNat = 0 := by rw [hempty]; rfl
  obtain ⟨root, hroot, rfl⟩ := hw.traceRoot (Nat.le_of_succ_le_succ hlen)
  obtain ⟨k, hpush, hk, htake⟩ := StackRegs.push_eq (k := s.stk) (root.setWidth 8) (by omega)
  rw [hptr] at hk htake
  obtain ⟨k', hx, hk', htake'⟩ := hw.expand_onto (v := [root.setWidth 8]) hlen hk (Nat.le_refl _) htake
  exact ⟨_, exec_kwkwk hroot hpush hx, hk', htake', rfl⟩

end Sys2Proof
end

section
/-! PROOFS. A KNOWN or KWKWK code from its fetch to the end of its definition (O40). -/

namespace Sys2Proof.Machine

/-- The string on the stack is `w`, its first byte on top (R33, R101). -/
def StackRegs.Holds (k : StackRegs) (w : List Byte) : Prop :=
  k.stackPtr.toNat = w.length ∧ (k.stack.toList.take k.stackPtr.toNat).reverse = w

/-- A stack's string is its entries from the top down. -/
theorem StackRegs.Holds.getElem {k : StackRegs} {w : List Byte} (h : k.Holds w) {i : Nat} (hi : i < w.length)
    (hb : k.stackPtr.toNat - 1 - i < 4098) : k.stack[k.stackPtr.toNat - 1 - i] = w[i] := by
  obtain ⟨hptr, rfl⟩ := h
  simp only [List.length_reverse, List.length_take, Vector.length_toList] at hi hptr
  simp [List.getElem_reverse, Nat.min_eq_left (show k.stackPtr.toNat ≤ 4098 by omega)]

/-- A stack that holds a string is within its capacity (R33). -/
theorem StackRegs.Holds.bound {k : StackRegs} {w : List Byte} (h : k.Holds w) : k.stackPtr.toNat ≤ 4098 := by
  obtain ⟨hptr, rfl⟩ := h
  simp only [List.length_reverse, List.length_take, Vector.length_toList] at hptr
  omega

/-- What is left of a stack's string after `m` pops. -/
theorem StackRegs.Holds.drop {k : StackRegs} {w : List Byte} (h : k.Holds w) {m : Nat} {p : BitVec 13}
    (hp : p.toNat = w.length - m) : StackRegs.Holds { k with stackPtr := p } (w.drop m) := by
  have hbound := h.bound
  obtain ⟨hptr, rfl⟩ := h
  refine ⟨by rw [hp, List.length_drop], ?_⟩
  simp only [List.length_reverse, List.length_take, Vector.length_toList] at hp hptr
  simp only [hp, List.drop_reverse, List.take_take, List.length_take, Vector.length_toList]
  congr 2
  omega

/-- Code `c` writes the string `w` and its definition takes the byte `b` (R95, R96): the string of a KNOWN code, or, with
`kw`, that of PREV_CODE and its first byte again. -/
structure WritesString (s : State) (c : Code) (kw : Bool) (b : Byte) (v w : List Byte) : Prop where
  decoded : decodeCode s.codeContext c = if kw then .lzwKwkwk c else .lzwKnown c
  spells : Spells s.lzw (if kw then s.lzw.prevCode else c.setWidth 13) (b :: v)
  string : w = if kw then b :: v ++ [b] else b :: v

/-- The string goes onto the stack, and `flush` follows (R95, R96, R99). -/
theorem WritesString.pushed {s : State} {c : Code} {kw : Bool} {b : Byte} {v w : List Byte}
    (h : WritesString s c kw b v w) (hz : LzwInv s) (hq : s.seq = .process c) (hempty : s.stk.stackPtr.toNat = 0) :
    ∃ k, blockStep s = .next { s with stk := k, seq := .flush (.define (c.setWidth 13) kw) } ∧ k.Holds w := by
  have hd : s.codeDebt = 1 := by simp [State.codeDebt, hq, Seq.midCode]
  obtain ⟨hc, hs, rfl⟩ := h
  cases kw with
  | false =>
    obtain ⟨k, w, hx, hw, -, -, hptr, htake⟩ := hz.known_expand hd hc hempty
    obtain rfl := hw.unique hs
    refine ⟨k, by rw [blockStep_process hq, hc]; exact exec_known hx, hptr, ?_⟩
    rw [htake, List.reverse_reverse]
    rfl
  | true =>
    obtain ⟨root, k, k', b', w, hr, hp, hx, hw, -, -, hptr, htake⟩ := hz.kwkwk_expand hd hc hempty
    cases hw.unique hs
    refine ⟨k', by rw [blockStep_process hq, hc]; exact exec_kwkwk hr hp hx, by simpa using hptr, ?_⟩
    rw [htake, List.reverse_cons, List.reverse_reverse]
    rfl

/-- The definition after the string, from a state with the same LZW registers (R100). -/
theorem WritesString.define {s u : State} {c : Code} {kw : Bool} {b : Byte} {v w : List Byte}
    (h : WritesString s c kw b v w) (hz : LzwInv s) (hd : s.codeDebt = 1) (hu : u.lzw = s.lzw) :
    (s.lzw.runningCode.toNat ≤ 4097 → defineAndUpdate (c.setWidth 13) kw u =
      { u with
        lzw :=
          { s.lzw with
            prefixTab := s.lzw.prefixTab.setIfInBounds (s.lzw.runningCode.toNat - 2) s.lzw.prevCode
            suffixTab := s.lzw.suffixTab.setIfInBounds (s.lzw.runningCode.toNat - 2) b
            prevCode := c.setWidth 13 }
        seq := .rowLoop }) ∧
    (4097 < s.lzw.runningCode.toNat → defineAndUpdate (c.setWidth 13) kw u =
      { u with seq := .raising (.defineRange s.lzw.runningCode) }) := by
  obtain ⟨hc, hs, -⟩ := h
  cases kw with
  | false =>
    obtain ⟨hstr, hp⟩ := hz.known hd hc
    exact hz.define_eq (kw := false) hd hu hp rfl hstr hs
  | true =>
    have hp := (hz.kwkwk hd hc).1
    exact hz.define_eq (kw := true) hd hu hp rfl (hd ▸ hz.prev_string hp) hs

/-- The pixels left in a row fit OUT and are counted in PIX_REMAIN (R106, R113). -/
theorem RowInv.room {s : State} (h : RowInv s) (hn : s.seq.needsPixel = true) {m : Nat}
    (hm : s.rows.col.toNat + m ≤ s.oper.width.toNat) :
    pixelOffset s + m ≤ s.oper.width.toNat * s.oper.height.toNat ∧ m ≤ s.rows.pixRemain.toNat := by
  have hin := Seq.inRow_of_needsPixel hn
  have hrow : s.rows.row.toNat + 1 ≤ s.oper.height.toNat := (mem_rowOrder.1 (h.member hin)).1
  have hrem := h.remain hin
  rw [Nat.mul_add, Nat.mul_one] at hrem
  refine ⟨?_, by omega⟩
  calc pixelOffset s + m = s.rows.row.toNat * s.oper.width.toNat + (s.rows.col.toNat + m) := Nat.add_assoc _ _ _
    _ ≤ (s.rows.row.toNat + 1) * s.oper.width.toNat := by rw [Nat.add_mul, Nat.one_mul]; omega
    _ ≤ s.oper.width.toNat * s.oper.height.toNat := by rw [Nat.mul_comm]; exact Nat.mul_le_mul_left _ hrow

/-- A whole `flush` of a string: the row takes as many bytes as it needs, in order, and the rest stays on the stack (R110). -/
theorem flush_string {s : State} {k : FlushCaller} {w : List Byte} {m : Nat} (hmem : Memory.wf s) (ha : s.agenda = [])
    (hq : s.seq = .flush k) (hw : s.stk.Holds w) (hcol : s.rows.col.toNat ≤ s.oper.width.toNat)
    (hm : m = min w.length (s.oper.width.toNat - s.rows.col.toNat)) (hout : pixelOffset s + m ≤ s.outSpace.size)
    (hrem : m ≤ s.rows.pixRemain.toNat) :
    ∃ t, Reaches s (afterFlush k t) ∧
      t = { s with
        stk := { s.stk with stackPtr := t.stk.stackPtr }
        rows := { s.rows with col := t.rows.col, pixRemain := t.rows.pixRemain }
        outSpace := t.outSpace, history := t.history } ∧
      t.stk.Holds (w.drop m) ∧ t.rows.col.toNat = s.rows.col.toNat + m ∧
      t.rows.pixRemain.toNat = s.rows.pixRemain.toNat - m ∧
      (∀ a, a < pixelOffset s ∨ pixelOffset s + m ≤ a → t.outSpace.read a = s.outSpace.read a) ∧
      ∀ i (h : i < w.length), i < m → t.outSpace.read (pixelOffset s + i) = w[i] := by
  have hlen : s.stk.stackPtr.toNat = w.length := hw.1
  have hbound := hw.bound
  obtain ⟨t, hreach, ht, hptr, hc, hr, hrest, hread⟩ :=
    flush_loop m hmem ha hq hbound (by omega) (by omega) hout hrem
  have hat : t.agenda = [] := by rw [ht]; exact ha
  have hqt : t.seq = .flush k := by rw [ht]; exact hq
  have hwidth : t.oper.width = s.oper.width := by rw [ht]
  have hdone : step t = .next (afterFlush k t) :=
    (step_noTurns hat).trans (blockStep_flush_done hqt (by rw [hwidth]; omega))
  refine ⟨t, hreach.trans (.single hdone), ht, ?left, hc, hr, hrest, fun i hi him => ?byte⟩
  case left =>
    rw [ht]
    exact hw.drop (by rw [hptr, hlen])
  case byte => rw [hread i him (by omega), hw.getElem hi]

end Sys2Proof.Machine

namespace Sys2Proof

open Machine

/-- Settles O40: one step pushes the string, `flush` writes what the row takes of it, and the definition follows. -/
theorem knownCodeWritesItsStringAndDefines : Obligations.KnownCodeWritesItsStringAndDefines := by
  intro s c b v w m hinv hsizes ha hq hclass hm
  obtain ⟨kw, hw⟩ : ∃ kw, WritesString s c kw b v w := by
    rcases hclass with ⟨hc, hs, rfl⟩ | ⟨hc, hs, rfl⟩
    · exact ⟨false, hc, hs, rfl⟩
    · exact ⟨true, hc, hs, rfl⟩
  have hd : s.decoding = true := by simp [State.decoding, hq]
  have hdebt : s.codeDebt = 1 := by simp [State.codeDebt, hq, Seq.midCode]
  have hneeds : s.seq.needsPixel = true := by simp [hq, Seq.needsPixel]
  have hcol := (hinv.rows hd).col_lt hneeds
  obtain ⟨hout, hrem⟩ := (hinv.rows hd).room hneeds (m := m) (by omega)
  obtain ⟨k, hpush, hk⟩ := hw.pushed (hinv.lzw hd) hq ((hinv.stack hd).empty (by simp [hq, Seq.needsEmptyStack]))
  obtain ⟨t, hflush, ht, hleft, htcol, htrem, hrest, hread⟩ :=
    flush_string (s := { s with stk := k, seq := .flush (.define (c.setWidth 13) kw) }) hinv.memory ha rfl hk
      (Nat.le_of_lt hcol) hm (Nat.le_trans hout (Nat.le_trans (Nat.le_max_left _ _) hsizes.2)) hrem
  obtain ⟨hdefine, hfull⟩ := hw.define (u := t) (hinv.lzw hd) hdebt (by rw [ht])
  refine ⟨_, .head ((step_noTurns ha).trans hpush) hflush, ?_⟩
  simp only [afterFlush, defineAndUpdate_outSpace, defineAndUpdate_rows, defineAndUpdate_stk, defineAndUpdate_oper,
    defineAndUpdate_reader, defineAndUpdate_extr, defineAndUpdate_status]
  refine ⟨hread, hrest, htcol, htrem, by rw [hleft.1, List.length_drop], hleft.2, fun hc => ?kwkwk, fun hr => ?defined,
    fun hr => ?full, ?_, ?_, ?_, ?_⟩
  case kwkwk =>
    obtain ⟨-, hrc⟩ := (hinv.lzw hd).kwkwk hdebt hc
    have hlt := c.isLt
    rw [toNat_code13] at hrc
    omega
  case defined => rw [hdefine hr]; exact ⟨rfl, rfl⟩
  case full => rw [hfull hr]; exact ⟨rfl, by rw [ht]⟩
  all_goals rw [ht]

end Sys2Proof
end

section
/-! PROOFS. Every command ends: each move of the block brings it closer to its end (O57). -/

namespace Sys2Proof.Machine

/-! ### How far the block is from the end of its command (R104) -/

/-- The stages of a command, counted down: its start, the first row, the rows, the drain or a chunk, the copy of the chunk,
its end. -/
def Seq.stage : Seq → Nat
  | .idle => 0
  | .finish | .raising _ => 1
  | .copyOut _ => 2
  | .nextChunk .command | .payload .command | .nextChunk .drain | .payload .drain => 3
  | .startDrain => 4
  | .nextRow | .flush _ | .emit _ _ | .rowLoop | .fetch | .process _ | .nextChunk .extractor | .payload .extractor => 5
  | .firstRow => 6
  | .start _ => 7

/-- What a decode uses up: the input, as bytes not read, bytes of the chunk not taken and bits held, weighed so that each
move of a byte costs; and the rows to come. -/
def State.supply (s : State) : Nat :=
  10 * (s.oper.inEnd.toNat - s.oper.inPtr.toNat) + 9 * (s.reader.chunkLen.toNat - s.reader.chunkPos.toNat)
    + s.extr.shiftState.toNat + rowsAfter s.oper.interlace s.oper.height.toNat s.rows.pass.toNat s.rows.row.toNat

/-- What the stage at hand uses up; the copy loop uses up the chunk. -/
def State.fuel (s : State) : Nat :=
  match s.seq with
  | .copyOut i => s.reader.chunkLen.toNat - i
  | _ => s.supply

/-- The positions between two uses of fuel, counted down; `flush` goes down with its stack. -/
def State.rank (s : State) : Nat :=
  match s.seq with
  | .process _ => 8202
  | .emit _ _ => 2 * s.stk.stackPtr.toNat + 5
  | .flush _ => 2 * s.stk.stackPtr.toNat + 4
  | .rowLoop | .payload _ => 3
  | .fetch | .nextRow => 2
  | _ => 1

/-- The distance to the end of the command: the stage, in it the fuel, and between two uses of fuel the position. -/
def State.distance (s : State) : ℕ ×ₗ ℕ ×ₗ ℕ := toLex (s.seq.stage, toLex (s.fuel, s.rank))

/-- `t` is closer to the end of the command than `s`. -/
def Closer (t s : State) : Prop := t.distance < s.distance

theorem Closer.of_stage {s t : State} {p : Seq} (hp : s.seq = p) (h : t.seq.stage < p.stage) : Closer t s :=
  Prod.Lex.toLex_lt_toLex.2 (.inl (hp ▸ h))

theorem Closer.of_fuel {s t : State} (hs : t.seq.stage = s.seq.stage) (h : t.fuel < s.fuel) : Closer t s :=
  Prod.Lex.toLex_lt_toLex.2 (.inr ⟨hs, Prod.Lex.toLex_lt_toLex.2 (.inl h)⟩)

/-- Outside the copy loop the fuel is the supply. -/
theorem State.fuel_eq_supply {s : State} (h : s.seq.stage ≠ 2) : s.fuel = s.supply := by
  unfold State.fuel
  split
  next i hq => exact absurd (congrArg Seq.stage hq) h
  next => rfl

theorem Closer.of_supply {s t : State} {p q : Seq} (hp : s.seq = p) (hq : t.seq = q) (hs : q.stage = p.stage)
    (hc : p.stage ≠ 2) (h : t.supply < s.supply) : Closer t s := by
  subst hp hq
  exact .of_fuel hs (by rwa [State.fuel_eq_supply hc, State.fuel_eq_supply (hs ▸ hc)])

theorem Closer.of_rank {s t : State} {p q : Seq} (hp : s.seq = p) (hq : t.seq = q) (hs : q.stage = p.stage)
    (hc : p.stage ≠ 2) (hf : t.supply = s.supply) (h : t.rank < s.rank) : Closer t s := by
  subst hp hq
  refine Prod.Lex.toLex_lt_toLex.2 (.inr ⟨hs, Prod.Lex.toLex_lt_toLex.2 (.inr ⟨?_, h⟩)⟩)
  exact (State.fuel_eq_supply (hs ▸ hc)).trans (hf.trans (State.fuel_eq_supply hc).symm)

/-! ### The moves, by what they use up -/

/-- Reading a byte uses supply, even when the byte goes to the chunk (R79). -/
theorem supply_read {s t : State} (he : s.inAtEnd = false)
    (ho : t.oper = { s.oper with inPtr := s.oper.inPtr + 1#32 })
    (hc : t.reader.chunkLen.toNat - t.reader.chunkPos.toNat ≤ s.reader.chunkLen.toNat - s.reader.chunkPos.toNat + 1)
    (hx : t.extr = s.extr) (hr : t.rows = s.rows) : t.supply < s.supply := by
  have hlt := (inAtEnd_false_iff s).1 he
  have hptr := inPtr_succ hlt
  rw [State.supply, State.supply, ho, hx, hr]
  dsimp only
  omega

/-- Taking a byte of the chunk into the accumulator uses supply (R83). -/
theorem supply_takeByte {s t : State} {b : Byte} (ho : t.oper = s.oper) (hr : t.rows = s.rows)
    (hpos : s.reader.chunkPos.toNat < s.reader.chunkLen.toNat)
    (ht : t.reader = { s.reader with chunkPos := s.reader.chunkPos + 1#8 }) (hx : t.extr = takeByte s.extr b)
    (hheld : s.extr.shiftState.toNat < 12) : t.supply < s.supply := by
  have hsucc : (s.reader.chunkPos + 1#8).toNat = s.reader.chunkPos.toNat + 1 :=
    BitVec.toNat_add_of_lt (by simp; omega)
  have hadd : (takeByte s.extr b).shiftState.toNat = s.extr.shiftState.toNat + 8 := by simp [takeByte]; omega
  rw [State.supply, State.supply, ho, hr, ht, hx]
  dsimp only
  omega

/-- Taking a code uses supply: its bits (R83). -/
theorem supply_dropCode {s t : State} {w : Nat} (ho : t.oper = s.oper) (hr : t.rows = s.rows) (ht : t.reader = s.reader)
    (hx : t.extr = dropCode s.extr w) (hw : 0 < w) (hle : w ≤ s.extr.shiftState.toNat) : t.supply < s.supply := by
  have hdrop := (dropCode_values s.extr w hle).2
  rw [State.supply, State.supply, ho, hr, ht, hx]
  omega

/-- Going on to the next row uses supply: fewer rows come after it (R106, R107). -/
theorem supply_nextRow {s : State} {x : Nat × Nat} (h : RowInv s) (hq : s.seq = .nextRow)
    (hx : nextRowOf s.oper.interlace s.oper.height.toNat s.rows.pass.toNat s.rows.row.toNat = some x) :
    (beginRow (some x) s).supply < s.supply := by
  obtain ⟨hmem, hafter⟩ := nextRowOf_some (h.member (by simp [hq, Seq.inRow])) hx
  obtain ⟨hpass, hrow⟩ := rowOrder_fits hmem
  dsimp only at hafter
  simp only [State.supply, beginRow, hpass, hrow, hafter]
  omega

theorem Seq.stage_payload (k : ChunkCaller) : (Seq.payload k).stage = (Seq.nextChunk k).stage := by cases k <;> rfl

theorem Seq.stage_nextChunk_ne (k : ChunkCaller) : (Seq.nextChunk k).stage ≠ 2 := by cases k <;> decide

theorem Seq.stage_payload_ne (k : ChunkCaller) : (Seq.payload k).stage ≠ 2 := by cases k <;> decide

/-- The end of the definition of a code: the row's loop test is next, or an error (R100). -/
theorem Closer.of_define {s u : State} {p : Seq} {code : CodeField} {kw : Bool} (hp : s.seq = p) (hs : p.stage = 5)
    (hf : u.supply = s.supply) (hr : 3 < s.rank) : Closer (defineAndUpdate code kw u) s := by
  rcases define_position code kw u with hq | ⟨e, hq⟩
  · refine .of_rank hp hq hs.symm (by omega) ?_ (by simpa [State.rank, hq] using hr)
    simpa [State.supply] using hf
  · exact .of_stage hp (by rw [hq, hs]; simp [Seq.stage])

/-- None goes back to the caller of `next_chunk`, whose command it ends (R74, R84, R111). -/
theorem Closer.of_returnNone {s u : State} {k : ChunkCaller}
    (h : s.seq = .nextChunk k ∨ k = .command ∧ s.seq = .start .sbNextChunk) : Closer (returnNone k u) s := by
  rcases h with h | ⟨rfl, h⟩
  · exact .of_stage h (by cases k <;> simp [returnNone, Seq.stage])
  · exact .of_stage h (by simp [returnNone, Seq.stage])

/-- A chunk goes back to the caller of `next_chunk`: the copy loop, the extractor or the drain (R74, R84, R111). -/
theorem Closer.of_returnChunk {s u : State} {k : ChunkCaller} (h : s.seq = .payload k) (hf : u.supply = s.supply) :
    Closer (returnChunk k u) s := by
  cases k with
  | command => exact .of_stage h (by simp [returnChunk, Seq.stage])
  | extractor => exact .of_rank h rfl rfl (by decide) hf (by simp [State.rank, returnChunk, h])
  | drain => exact .of_rank h rfl rfl (by decide) hf (by simp [State.rank, returnChunk, h])

/-- Every move of a running command brings the block closer to its end. -/
theorem BlockMove.closer {s t : State} (h : Inv s) (hm : BlockMove s t) (hrun : s.seq ≠ .idle) : Closer t s := by
  have hinv := block_inv h hm
  cases hm
  case idle hq => exact absurd hq hrun
  case nop hq | sbOpen hq | chunkAtTerm hq _ | chunkAtEnd hq _ _ | decodeAtEnd hq _ | decodeIllegal hq _ _ _ _ |
      decodeLegal hq _ _ _ _ _ | drain hq | finish hq | codeEnd hq _ | codeInvalid hq _ | codeKnownFailed hq _ _ |
      codeKwkwkNoRoot hq _ _ | codeKwkwkFailed hq _ _ _ _ | copyDone hq _ | raising hq =>
    exact .of_stage hq (by simp [Seq.stage])
  case terminator k hq _ _ _ _ => exact .of_returnNone hq
  case chunkNone k hq _ => exact .of_returnNone (.inl hq)
  case chunkEndOfInput k hq _ _ => exact .of_stage hq (by cases k <;> simp [returnEndOfInput, Seq.stage])
  case length k hq _ he _ _ =>
    rcases hq with hq | ⟨rfl, hq⟩
    · exact .of_supply hq rfl (Seq.stage_payload k) (Seq.stage_nextChunk_ne k)
        (supply_read he rfl (Nat.zero_le _) rfl rfl)
    · exact .of_stage hq (by simp [Seq.stage])
  case payloadRead k hq hl he _ =>
    have hlen := storePayload_chunkLen (s.inSpace.read s.oper.inPtr.toNat) (s := afterRead s) hl
    refine .of_supply hq hq rfl (Seq.stage_payload_ne k) (supply_read he rfl ?_ rfl rfl)
    rw [hlen]
    simp only [storePayload_reader, afterRead_reader]
    omega
  case payloadShort k hq _ _ => exact .of_returnChunk hq rfl
  case payloadWhole k hq _ => exact .of_returnChunk hq rfl
  case copyWrite i hq hi _ _ =>
    refine .of_fuel (by rw [hq]; rfl) ?_
    simp only [State.fuel, hq]
    omega
  case firstRow hq => exact .of_stage hq (by unfold beginRow; split <;> simp [Seq.stage])
  case nextRow hq =>
    cases hx : nextRowOf s.oper.interlace s.oper.height.toNat s.rows.pass.toNat s.rows.row.toNat with
    | none => exact .of_stage hq (by simp [beginRow, Seq.stage])
    | some x =>
      exact .of_supply hq rfl rfl (by decide) (supply_nextRow (h.rows (by simp [State.decoding, hq])) hq hx)
  case flushPop k hq hp _ _ =>
    have hptr : (s.stk.stackPtr - 1#13).toNat = s.stk.stackPtr.toNat - 1 := BitVec.toNat_sub_of_le (BitVec.le_def.2 hp)
    refine .of_rank hq rfl rfl (by simp [Seq.stage]) rfl ?_
    simp only [State.rank, hq, hptr]
    omega
  case flushDone k hq _ =>
    have hrank : 3 < s.rank := by simp [State.rank, hq]
    cases k with
    | rowStart => exact .of_rank hq rfl rfl (by simp [Seq.stage]) rfl hrank
    | define code kw => exact .of_define hq rfl rfl hrank
  case emit v k hq _ => exact .of_rank hq rfl rfl (by simp [Seq.stage]) rfl (by simp [State.rank, hq])
  case rowLoop hq =>
    split
    · exact .of_rank hq rfl rfl (by decide) rfl (by simp [State.rank, hq])
    · exact .of_rank hq rfl rfl (by decide) rfl (by simp [State.rank, hq])
  case fetchNext hq _ _ => exact .of_rank hq rfl rfl (by decide) rfl (by simp [State.rank, hq])
  case fetchByte hq hw hp _ =>
    have hz := h.lzw (by simp [State.decoding, hq])
    have hlt := Nat.lt_of_le_of_ne h.reader.pos_le fun e => hp (BitVec.eq_of_toNat_eq e)
    exact .of_supply hq hq rfl (by decide)
      (supply_takeByte rfl rfl hlt rfl rfl (Nat.lt_of_lt_of_le hw hz.bits_range.2))
  case fetchCode hq hw =>
    have hz := h.lzw (by simp [State.decoding, hq])
    exact .of_supply hq rfl rfl (by decide)
      (supply_dropCode rfl rfl rfl rfl (Nat.lt_of_lt_of_le (Nat.succ_pos _) hz.bits_range.1) hw)
  case codeClear c hq _ => exact .of_rank hq rfl rfl (by simp [Seq.stage]) rfl (by simp [State.rank, hq])
  case codeLiteral c hq _ _ => exact .of_define hq rfl rfl (by simp [State.rank, hq])
  case codeKnown c k hq _ _ | codeKwkwk c _ _ k hq _ _ _ _ =>
    have hbound : k.stackPtr.toNat ≤ 4098 := (hinv.stack rfl).bound
    refine .of_rank hq rfl rfl (by simp [Seq.stage]) rfl ?_
    simp only [State.rank, hq]
    omega

/-! ### The run to the end -/

/-- A move of the block keeps the host's sizes (R7, R38, R78). -/
theorem BlockMove.hostSizes {s t : State} (hm : BlockMove s t) (h : HostSizes s) : HostSizes t := by
  obtain ⟨hw, hh, -⟩ := hm.sameImage
  obtain ⟨hin, hout⟩ := hm.spaces
  have hend : t.oper.inEnd = s.oper.inEnd := by
    rcases hm.oper with ho | ⟨ho, -⟩ <;> rw [ho]
  rw [HostSizes, hend, hw, hh, hin.size_eq, hout.size_eq]
  exact h

end Sys2Proof.Machine

namespace Sys2Proof

open Machine

/-- Settles O57, by induction on the distance to the end: the block always has a move, and each brings it closer. -/
theorem everyCommandEnds : Obligations.EveryCommandEnds := by
  intro s h hs ha
  induction hd : s.distance using WellFoundedLT.induction generalizing s with
  | ind d ih =>
    by_cases hq : s.seq = .idle
    · exact ⟨s, .refl s, Bool.eq_false_iff.2 fun hb => h.status.busy_iff.1 hb hq⟩
    · obtain ⟨t, ht⟩ := block_progress h hs
      have hm := blockStep_move ht
      have hcloser : t.distance < s.distance := hm.closer h hq
      obtain ⟨u, hu, hbusy⟩ :=
        ih _ (hd ▸ hcloser) t (block_inv h hm) (hm.hostSizes hs) (hm.agenda.1.trans ha) rfl
      exact ⟨u, .head ((step_noTurns ha).trans ht) hu, hbusy⟩

end Sys2Proof
end

section
/-! PROOFS. The row order of the rule (O45) takes every row once (O43), the block's iterator walks it (O44), and a row's
loop test fetches a code only for a pixel (O47). -/

namespace Sys2Proof

open Machine

/-- Settles O43: the rows of the order are those below the height, none twice. -/
theorem rowOrderTakesEveryRowOnce : Obligations.RowOrderTakesEveryRowOnce := rowOrder_perm

/-- Settles O44: the first pair, and from every pair the one after it. -/
theorem rowIteratorWalksTheRowOrder : Obligations.RowIteratorWalksTheRowOrder :=
  fun il h => ⟨firstRowOf_eq il h, fun _ _ => nextRowOf_eq⟩

/-- Settles O45: the four orders are evaluated. -/
theorem rowOrdersOfTheRule : Obligations.RowOrdersOfTheRule := ⟨rfl, rfl, rfl, rfl⟩

/-- Settles O47: the step is the block's move at the row's loop test. -/
theorem codesAreFetchedOnlyForAPixel : Obligations.CodesAreFetchedOnlyForAPixel :=
  fun _ _ hm hq => hm.step.trans (blockStep_rowLoop hq)

end Sys2Proof
end

section
/-! PROOFS. Where the pixels go (O48). -/

namespace Sys2Proof.Machine

/-- Where a row needs a pixel, the count of pixels written gives its place in the order, and COL (R106, R114). -/
theorem RowInv.position {s : State} (h : RowInv s) (hn : s.seq.needsPixel = true) {n : Nat}
    (hcount : n = s.oper.width.toNat * s.oper.height.toNat - s.rows.pixRemain.toNat) :
    (rowOrder s.oper.interlace s.oper.height.toNat)[n / s.oper.width.toNat]? =
        some (s.rows.pass.toNat, s.rows.row.toNat) ∧
      n % s.oper.width.toNat = s.rows.col.toNat := by
  have hin := Seq.inRow_of_needsPixel hn
  have hcol := h.col_lt hn
  obtain ⟨i, hi⟩ := List.mem_iff_getElem?.1 (h.member hin)
  have hwritten : n = s.oper.width.toNat * i + s.rows.col.toNat := by
    have hremain := h.remain hin
    have hsplit : s.oper.width.toNat * s.oper.height.toNat = s.oper.width.toNat * i + s.oper.width.toNat *
        (1 + rowsAfter s.oper.interlace s.oper.height.toNat s.rows.pass.toNat s.rows.row.toNat) := by
      rw [← Nat.mul_add, ← Nat.add_assoc, rowsAfter_getElem hi]
    omega
  rw [hwritten, Nat.mul_add_div (by omega), Nat.div_eq_of_lt hcol, Nat.mul_add_mod, Nat.mod_eq_of_lt hcol]
  exact ⟨hi, rfl⟩

/-- `t` is `s` with the byte `v` written to OUT at `a` as the next pixel of the row, which PIX_REMAIN counts (R109). -/
def DrawsPixel (s t : State) (a : Nat) (v : Byte) : Prop :=
  s.seq.needsPixel = true ∧ a = pixelOffset s ∧ t.outSpace = s.outSpace.write a v ∧
    t.rows.pixRemain = s.rows.pixRemain - 1#32

/-- The block's write of a byte is the copy loop's, or it draws a pixel (R74, R109). -/
theorem BlockWrites.draws {s t : State} {a : Nat} {v : Byte} (hw : BlockWrites s a v) (h : blockStep s = .next t) :
    (∃ i, s.seq = .copyOut i) ∨ DrawsPixel s t a v := by
  cases hw with
  | copied _ hq _ _ => exact .inl ⟨_, hq⟩
  | flushed v k hq =>
    rw [blockStep, hq] at h
    obtain ⟨u, hu, hk⟩ := andThen_next h
    obtain ⟨-, rfl⟩ := emitPixel_next hu
    cases hk
    exact .inr ⟨by simp [hq, Seq.needsPixel], rfl, rfl, rfl⟩
  | literal c hq hc =>
    rw [blockStep_process hq, hc] at h
    rw [exec_literal_next h, define_frame]
    exact .inr ⟨by simp [hq, Seq.needsPixel], rfl, rfl, rfl⟩

/-- A step that records an access is the block's move (R48). -/
theorem step_recorded_block {s t : State} (h : step s = .next t) {x : Access} (hh : t.history = x :: s.history) :
    ∃ s', BlockMoves s s' ∧ blockStep s' = .next t := by
  rcases step_cases h with hblock | ⟨_, rest, -, -, hx⟩ | ⟨rest, -, -, rfl⟩ | ⟨rest, -, -, rfl⟩
  · exact hblock
  · rw [hostStep_history hx] at hh
    simp at hh
  · simp at hh
  · simp at hh

/-- A write to OUT that a step records is the copy loop's, or it draws a pixel (R74, R109). -/
theorem step_draws {s t : State} (h : step s = .next t) {a : Nat} {v : Byte}
    (hh : t.history = .outWrite a v :: s.history) : (∃ i, s.seq = .copyOut i) ∨ DrawsPixel s t a v := by
  obtain ⟨s', hm, hb⟩ := step_recorded_block h hh
  rw [hm.eq] at hb
  exact ((blockStep_move hb).recorded hh).draws hb

end Sys2Proof.Machine

namespace Sys2Proof

open Machine

/-- Settles O48: the invariant's pixel count gives the row and the column, and a write under DECODE_IMAGE is a pixel. -/
theorem pixelsFollowTheRowOrder : Obligations.PixelsFollowTheRowOrder := by
  intro s n h hcount
  refine ⟨fun hd hn => (h.rows hd).position hn hcount, fun t a v hx hh hcmd => ?_⟩
  rcases step_draws hx hh with ⟨i, hq⟩ | ⟨hn, rfl, hout, hremain⟩
  case inl =>
    rw [h.command.next_chunk (.inr (.inr ⟨i, hq⟩))] at hcmd
    exact absurd hcmd (by decide)
  case inr =>
    have hrows := h.rows (decoding_of_inRow (Seq.inRow_of_needsPixel hn))
    obtain ⟨hrow, hcol⟩ := hrows.position hn hcount
    have hpos : (1#32).toNat ≤ s.rows.pixRemain.toNat := (hrows.room hn (m := 1) (hrows.col_lt hn)).2
    refine ⟨⟨_, _, hrow, by rw [hcol]; rfl⟩, ?written, ?counted⟩
    case written => rw [hout, Space.read_write h.memory.2, if_pos rfl]
    case counted =>
      rw [hremain, BitVec.toNat_sub_of_le (BitVec.le_def.2 hpos)]
      exact Nat.sub_add_cancel hpos

end Sys2Proof
end

section
/-! PROOFS. The drain (O49), and a DECODE_IMAGE of an image without pixels, from its acceptance to its end (O50). -/

namespace Sys2Proof.Machine

/-- Sub-block data have at least their terminator (R55). -/
theorem SubBlocksAt.lt {m : Space} {p q : Nat} (h : SubBlocksAt m p q) : p < q := by
  induction h with
  | terminator p _ => exact Nat.lt_succ_self p
  | subBlock p q _ _ ih => omega

/-- A DECODE_IMAGE after its drain: the reader in the terminal state, PHASE DONE, and the command ended (R71, R111). -/
def drained (s : State) (buf : Vector Byte 255) (ptr : Word) (history : List Access) : State :=
  finishOk
    { s with
      status := { s.status with phase := .done }
      reader := { s.reader.terminal with chunkBuf := buf }
      oper := { s.oper with inPtr := ptr }
      history := history }

/-- The drain at a terminator ends the command in two steps (R71, R111). -/
theorem drain_terminator {s : State} (ha : s.agenda = []) (hq : s.seq = .nextChunk .drain)
    (ht : s.reader.sbTerm = false) (he : s.oper.inPtr.toNat < s.oper.inEnd.toNat)
    (hs : s.oper.inEnd.toNat ≤ s.inSpace.size) (hb : s.inSpace.read s.oper.inPtr.toNat = 0#8) :
    Reaches s (drained s s.reader.chunkBuf (s.oper.inPtr + 1#32)
      (.inRead s.oper.inPtr.toNat (s.inSpace.read s.oper.inPtr.toNat) :: s.history)) := by
  have hread : step s = .next (returnNone .drain { afterRead s with reader := s.reader.terminal }) := by
    rw [step_noTurns ha, blockStep_nextChunk_byte hq ht ((inAtEnd_false_iff s).2 he) (Nat.lt_of_lt_of_le he hs), hb]
    exact exec_sbTerminator (s := afterRead s) hq
  exact .head hread (.single (step_finish ha rfl))

/-- The drain at a whole sub-block reads it and stands at the next length byte (R80, R111). -/
theorem drain_subBlock {s : State} {n : Nat} (ha : s.agenda = []) (hq : s.seq = .nextChunk .drain)
    (ht : s.reader.sbTerm = false) (hn : (s.inSpace.read s.oper.inPtr.toNat).toNat = n)
    (hb : s.inSpace.read s.oper.inPtr.toNat ≠ 0#8) (he : s.oper.inPtr.toNat + 1 + n < s.oper.inEnd.toNat)
    (hs : s.oper.inEnd.toNat ≤ s.inSpace.size) :
    ∃ r ptr history,
      Reaches s
        { s with
          reader := r, oper := { s.oper with inPtr := ptr }, history := history, seq := .nextChunk .drain } ∧
        r.sbTerm = false ∧ ptr.toNat = s.oper.inPtr.toNat + 1 + n := by
  have hlt : s.oper.inPtr.toNat < s.oper.inEnd.toNat := by omega
  have hread : step s = .next
      { afterRead s with
        reader := s.reader.announced (s.inSpace.read s.oper.inPtr.toNat), seq := .payload .drain } := by
    rw [step_noTurns ha, blockStep_nextChunk_byte hq ht ((inAtEnd_false_iff s).2 hlt) (Nat.lt_of_lt_of_le hlt hs),
      decodeLength_of_ne hb]
    exact exec_sbLen (s := afterRead s) hq _
  obtain ⟨buf, hpayload, -⟩ := payload_chunk (n := n) (.single hread) ha rfl rfl (inPtr_succ hlt) hlt hs
    (by show n = min (s.inSpace.read s.oper.inPtr.toNat).toNat (s.oper.inEnd.toNat - _); omega)
  refine ⟨_, _, _, hpayload, ht, ?pointer⟩
  case pointer =>
    have hend := s.oper.inEnd.isLt
    show (s.oper.inPtr + 1#32 + BitVec.ofNat 32 n).toNat = _
    rw [BitVec.toNat_add, inPtr_succ hlt, BitVec.toNat_ofNat]
    omega

/-- The drain over well-formed rest data, by the sub-blocks (R111). -/
theorem drain_loop {m : Space} {p q : Nat} (h : SubBlocksAt m p q) :
    ∀ {s : State}, s.agenda = [] → s.seq = .nextChunk .drain → s.reader.sbTerm = false → s.inSpace = m →
      s.oper.inPtr.toNat = p → q ≤ s.oper.inEnd.toNat → s.oper.inEnd.toNat ≤ s.inSpace.size →
      ∃ buf ptr history, Reaches s (drained s buf ptr history) ∧ ptr.toNat = q := by
  induction h with
  | terminator p hb =>
    rintro s ha hq ht rfl rfl he hs
    exact ⟨_, _, _, drain_terminator ha hq ht he hs hb, inPtr_succ he⟩
  | subBlock p q hb hrest ih =>
    rintro s ha hq ht rfl rfl he hs
    have hnext := hrest.lt
    obtain ⟨r, ptr, history, hread, hterm, hptr⟩ := drain_subBlock ha hq ht rfl hb (by omega) hs
    obtain ⟨buf, ptr', history', hdrain, hend⟩ :=
      ih (s := { s with
        reader := r, oper := { s.oper with inPtr := ptr }, history := history, seq := .nextChunk .drain })
        ha rfl hterm rfl hptr he hs
    exact ⟨buf, ptr', history', hread.trans hdrain, hend⟩

/-- The drain from its start, wherever the run began (R111). -/
theorem drain_ends {r s : State} {q : Nat} (hr : Reaches r s) (ha : s.agenda = []) (hq : s.seq = .startDrain)
    (ht : s.reader.sbTerm = false) (hdata : SubBlocksAt s.inSpace s.oper.inPtr.toNat q)
    (he : q ≤ s.oper.inEnd.toNat) (hs : s.oper.inEnd.toNat ≤ s.inSpace.size) :
    ∃ buf ptr history, Reaches r (drained (drainStart s) buf ptr history) ∧ ptr.toNat = q := by
  obtain ⟨buf, ptr, history, hdrain, hend⟩ := drain_loop hdata (s := drainStart s) ha rfl ht rfl rfl he hs
  exact ⟨buf, ptr, history,
    hr.trans (.head ((step_noTurns ha).trans (blockStep_startDrain hq)) hdrain), hend⟩

/-! ### Rows without pixels (R106, R112) -/

/-- A row of width 0 takes no byte and fetches no code: its `flush` and its loop test end at once, and the next row
follows (R108, R110). -/
theorem emptyRow_next {s : State} (ha : s.agenda = []) (hq : s.seq = .flush .rowStart)
    (hw : s.oper.width.toNat = 0) :
    Reaches s (beginRow (nextRowOf s.oper.interlace s.oper.height.toNat s.rows.pass.toNat s.rows.row.toNat)
      { s with seq := .nextRow }) := by
  have hfull : s.oper.width.toNat ≤ s.rows.col.toNat := hw ▸ Nat.zero_le _
  have hflush : step s = .next { s with seq := .rowLoop } :=
    (step_noTurns ha).trans (blockStep_flush_done hq (.inr hfull))
  have hloop : step { s with seq := .rowLoop } = .next { s with seq := .nextRow } := by
    rw [step_noTurns (s := { s with seq := .rowLoop }) ha, blockStep_rowLoop rfl, if_neg (Nat.not_lt.2 hfull)]
  exact .head hflush (.head hloop (.single
    ((step_noTurns (s := { s with seq := .nextRow }) ha).trans (blockStep_nextRow rfl))))

/-- From any row on, the rows of an image without pixels lead to the drain, PIX_REMAIN kept: with HEIGHT 0 there is no
row, with WIDTH 0 each is passed over (R106, R112). -/
theorem emptyRows_drain {n i : Nat} {s : State} (ha : s.agenda = [])
    (hempty : s.oper.width.toNat = 0 ∨ s.oper.height.toNat = 0) (hn : s.oper.height.toNat ≤ i + n) :
    ∃ row pass col,
      Reaches (beginRow (rowOrder s.oper.interlace s.oper.height.toNat)[i]? s)
        { s with
          rows := { row := row, pass := pass, col := col, pixRemain := s.rows.pixRemain }, seq := .startDrain } := by
  induction n generalizing i s with
  | zero =>
    rw [List.getElem?_eq_none (by rw [rowOrder_length]; omega)]
    exact ⟨_, _, _, .refl _⟩
  | succ n ih =>
    cases hx : (rowOrder s.oper.interlace s.oper.height.toNat)[i]? with
    | none => exact ⟨_, _, _, .refl _⟩
    | some x =>
      obtain ⟨hpass, hrow⟩ := rowOrder_fits (List.mem_of_getElem? hx)
      have hi := (List.getElem?_eq_some_iff.1 hx).1
      rw [rowOrder_length] at hi
      have hnext := emptyRow_next (s := beginRow (some x) s) ha rfl (hempty.resolve_right (by omega))
      simp only [beginRow, hpass, hrow] at hnext
      rw [nextRowOf_eq hx] at hnext
      obtain ⟨row, pass, col, hdrain⟩ := ih (i := i + 1) (s := { s with
        rows := { row := BitVec.ofNat 16 x.2, pass := BitVec.ofNat 2 x.1, col := 0#16, pixRemain := s.rows.pixRemain }
        seq := .nextRow }) ha hempty (by dsimp only; omega)
      exact ⟨row, pass, col, hnext.trans hdrain⟩

/-- An image without pixels from its first row to its end, wherever the run began (R111, R112). -/
theorem emptyImage_ends {r s : State} {q : Nat} (hr : Reaches r s) (ha : s.agenda = []) (hq : s.seq = .firstRow)
    (hempty : s.oper.width.toNat = 0 ∨ s.oper.height.toNat = 0) (ht : s.reader.sbTerm = false)
    (hdata : SubBlocksAt s.inSpace s.oper.inPtr.toNat q) (he : q ≤ s.oper.inEnd.toNat)
    (hs : s.oper.inEnd.toNat ≤ s.inSpace.size) :
    ∃ row pass col buf ptr history,
      Reaches r (drained (drainStart
        { s with
          rows := { row := row, pass := pass, col := col, pixRemain := s.rows.pixRemain }, seq := .startDrain })
        buf ptr history) ∧ ptr.toNat = q := by
  have hfirst := (step_noTurns ha).trans (blockStep_firstRow hq)
  rw [firstRowOf_eq] at hfirst
  obtain ⟨row, pass, col, hrows⟩ := emptyRows_drain (i := 0) ha hempty (Nat.le_add_left _ _)
  obtain ⟨buf, ptr, history, hdrain, hend⟩ := drain_ends (hr.trans (.head hfirst hrows)) ha rfl ht hdata he hs
  exact ⟨row, pass, col, buf, ptr, history, hdrain, hend⟩

/-- DECODE_IMAGE's first micro-step at a legal minimum code size (R75, R88). -/
theorem step_decode_legal {s : State} (ha : s.agenda = []) (hq : s.seq = .start .decodeImage)
    (he : s.oper.inPtr.toNat < s.oper.inEnd.toNat) (hs : s.oper.inPtr.toNat < s.inSpace.size) {m : Byte}
    (hb : s.inSpace.read s.oper.inPtr.toNat = m) (h1 : 1 ≤ m.toNat) (h8 : m.toNat ≤ 8) :
    step s = .next
      { afterRead (beginDecode s) with
        lzw := acceptMcs m s.lzw
        rows :=
          { row := 0#16, pass := 0#2, col := 0#16
            pixRemain := BitVec.ofNat 32 (s.oper.width.toNat * s.oper.height.toNat) }
        seq := .firstRow } := by
  rw [step_noTurns ha, blockStep_start_decode_byte hq ((inAtEnd_false_iff s).2 he) hs, hb]
  exact exec_mcs_legal _ h1 h8

end Sys2Proof.Machine

namespace Sys2Proof

open Machine

/-- Settles O49, by induction on the sub-blocks left. -/
theorem drainEndsAfterTheTerminator : Obligations.DrainEndsAfterTheTerminator := by
  intro s q ha hq ht hdata he hs
  obtain ⟨buf, ptr, history, hreach, hptr⟩ := drain_ends (.refl s) ha hq ht hdata he hs
  exact ⟨_, hreach, rfl, rfl, hptr, rfl, rfl, rfl, rfl, rfl, rfl, rfl, rfl, rfl, rfl, rfl, rfl⟩

/-- Settles O50: the minimum code size is read, every row is passed over, and the drain reads the framing. -/
theorem emptyImageReadsOnlyItsFraming : Obligations.EmptyImageReadsOnlyItsFraming := by
  intro s g m q hb ha hempty he hm h1 h8 hdata hq hs
  subst hm
  have hmcs := step_decode_legal (s := acceptCommand .decodeImage s) ha rfl he (Nat.lt_of_lt_of_le he hs) rfl h1 h8
  obtain ⟨row, pass, col, buf, ptr, history, hreach, hptr⟩ :=
    emptyImage_ends (.single hmcs) ha rfl hempty rfl (by rw [← inPtr_succ he] at hdata; exact hdata) hq hs
  refine ⟨_, _, exec_commandOf_idle .decodeImage g hb, hreach, rfl, rfl, hptr, ?pixels, ?code, rfl, rfl, rfl, rfl⟩
  case pixels =>
    show BitVec.ofNat 32 (s.oper.width.toNat * s.oper.height.toNat) = 0#32
    rw [Nat.mul_eq_zero.2 hempty]
  case code =>
    obtain ⟨-, -, -, hcode, -, -⟩ := acceptMcs_values _ s.lzw h1 h8
    exact hcode

end Sys2Proof
end

section
/-! PROOFS. The idle block and `raise` (O6, O51). -/

namespace Sys2Proof

open Machine

/-- Settles O6: with no turn pending the step is the block's move, which is to stay. -/
theorem idleBlockDoesNothing : Obligations.IdleBlockDoesNothing :=
  fun _ hidle hagenda => (step_noTurns hagenda).trans (blockStep_idle hidle)

/-- Settles O51: each row of the table gives the three fields of its cause, and the block's move is `raise`. -/
theorem raiseRecordsTheErrorOfTheTable : Obligations.RaiseRecordsTheErrorOfTheTable := by
  intro s s' e kind sub value hmoves hraising table
  have fields : e.err = kind ∧ e.sub = sub ∧ e.value = value := by
    rcases table with ⟨rfl, rfl, rfl, rfl⟩ | ⟨rfl, rfl, rfl, rfl⟩ | ⟨rfl, rfl, rfl, rfl⟩ | ⟨rfl, rfl, rfl, rfl⟩ |
      ⟨rfl, rfl, rfl, rfl⟩ | ⟨rfl, rfl, rfl⟩ | ⟨⟨b, rfl, rfl⟩, rfl, rfl⟩ | ⟨rfl, rfl, rfl⟩ | ⟨rfl, rfl, rfl⟩ |
      ⟨rfl, rfl, rfl⟩ | ⟨rfl, rfl, rfl⟩ | ⟨rfl, rfl, rfl⟩ <;> exact ⟨rfl, rfl, rfl⟩
  obtain ⟨rfl, rfl, rfl⟩ := fields
  exact hmoves.step.trans (blockStep_raising hraising)

end Sys2Proof
end

section
/-! PROOFS. Reset: what it leaves in the registers (O22), and what a reset at a micro-step boundary does (O23). -/

namespace Sys2Proof.Machine

/-- With every register as a reset leaves it (R127), each word of the window is put together from zero fields; the arrays
(R128) are in no word. -/
theorem regWord_of_reset {s : State} (n : Nat) (hstatus : s.status = .zero) (hoper : s.oper = .zero)
    (hreader : s.reader = .afterReset n) (hextr : s.extr = .zero) (hlzw : s.lzw = .afterReset n)
    (hstk : s.stk = .afterReset n) (hrows : s.rows = .zero) (off : Nat) : regWord s off = 0#32 := by
  have status : statusWord s = 0#32 := by
    simp [statusWord, hstatus, hreader, StatusRegs.zero, ReaderRegs.afterReset, Phase.code]
  have errInfo : errInfoWord s = 0#32 := by rw [errInfoWord, hstatus]; rfl
  have geom : geomWord s = 0#32 := by rw [geomWord, hoper]; rfl
  have mode : modeWord s = 0#32 := by rw [modeWord, hoper]; rfl
  have inPtr : s.oper.inPtr = 0#32 := by rw [hoper]; rfl
  have inEnd : s.oper.inEnd = 0#32 := by rw [hoper]; rfl
  have chunk : chunkWord s = 0#32 := by simp [chunkWord, hreader, ReaderRegs.afterReset]
  have lzwCfg : lzwCfgWord s = 0#32 := by simp [lzwCfgWord, hlzw, LzwRegs.afterReset]
  have lzwCodes : lzwCodesWord s = 0#32 := by simp [lzwCodesWord, hlzw, LzwRegs.afterReset]
  have lzwRun : lzwRunWord s = 0#32 := by simp [lzwRunWord, hlzw, LzwRegs.afterReset]
  have lzwMax : lzwMaxWord s = 0#32 := by simp [lzwMaxWord, hlzw, LzwRegs.afterReset]
  have lzwPrev : lzwPrevWord s = 0#32 := by simp [lzwPrevWord, hlzw, hextr, LzwRegs.afterReset, ExtractorRegs.zero]
  have stack : stackWord s = 0#32 := by simp [stackWord, hstk, StackRegs.afterReset]
  have shiftAcc : s.extr.shiftAcc = 0#32 := by rw [hextr]; rfl
  have shiftState : shiftStateWord s = 0#32 := by rw [shiftStateWord, hextr]; rfl
  have rowPos : rowPosWord s = 0#32 := by rw [rowPosWord, hrows]; rfl
  have col : colWord s = 0#32 := by rw [colWord, hrows]; rfl
  have pixRemain : s.rows.pixRemain = 0#32 := by rw [hrows]; rfl
  simp only [regWord, status, errInfo, geom, mode, inPtr, inEnd, chunk, lzwCfg, lzwCodes, lzwRun, lzwMax, lzwPrev, stack,
    shiftAcc, shiftState, rowPos, col, pixRemain, ite_self]

/-- A reset makes every register read 0 (R127). -/
@[simp] theorem regWord_resetBlock (s : State) (off : Nat) : regWord (resetBlock s) off = 0#32 :=
  regWord_of_reset (s.freeCount + 1) rfl rfl rfl rfl rfl rfl rfl off

end Sys2Proof.Machine

namespace Sys2Proof

open Machine

/-- Settles O22: the reset state has its registers as any reset leaves them. -/
theorem everyRegisterReadsZeroAfterReset : Obligations.EveryRegisterReadsZeroAfterReset :=
  ⟨regWord_of_reset 0 rfl rfl rfl rfl rfl rfl rfl, rfl⟩

/-- Settles O23: the step is the reset, which touches neither memory, history nor the turns left. -/
theorem resetAbandonsTheCommand : Obligations.ResetAbandonsTheCommand :=
  fun _ _ hboundary hreset =>
    ⟨_, step_reset hboundary hreset, regWord_resetBlock _, resetBlock_seq _, resetBlock_inSpace _, resetBlock_outSpace _,
      resetBlock_history _, resetBlock_agenda _⟩

end Sys2Proof
end
